-- ==== Sys2Proof/Word.lean ====
section
/-! DEFINITION. The two word types of the 8085: 8-bit data and 16-bit addresses (rule R5). -/

namespace Sys2Proof

/-- A byte: a data register, a memory location, a port number, an opcode (R5, R8). -/
abbrev Byte := BitVec 8

/-- A 16-bit word: an address, a register pair, the program counter, the stack pointer (R5, R8). -/
abbrev Word := BitVec 16

end Sys2Proof
end

