-- ==== Sys2Proof/Syntax.lean ====
section
/-! DEFINITION. The instructions of the 8085 as syntax: one constructor for each of the 103 rows of the opcode
table (93 instruction rows and ten rows for the opcode values with no instruction). A row's forms with a register
and with M are two rows, so two constructors. -/

namespace Sys2Proof

/-- The seven registers an opcode field can name (R22); the eighth code, 110, is the operand M and no register. -/
inductive Reg where
  | b | c | d | e | h | l | a
  deriving DecidableEq, Repr

/-- The pair operand of LDAX and STAX (R23): the 1-bit field x. -/
inductive PairX where
  | bc | de
  deriving DecidableEq, Repr

/-- The pair operand of LXI, INX, DCX, DAD (R23): code 11 is SP. -/
inductive PairSP where
  | bc | de | hl | sp
  deriving DecidableEq, Repr

/-- The pair operand of PUSH and POP (R23): code 11 is PSW. -/
inductive PairPSW where
  | bc | de | hl | psw
  deriving DecidableEq, Repr

/-- The eight conditions of the conditional jumps, calls and returns (R89, R200). -/
inductive Cond where
  | nz | z | nc | c | po | pe | p | m
  deriving DecidableEq, Repr

/-- The instructions, in the table's order. -/
inductive Instr where
  | nop                         -- NOP (R253)
  | lxi (p : PairSP) (v : Word) -- LXI rp,data16 (R116)
  | stax (p : PairX)            -- STAX rp (R120)
  | ldax (p : PairX)            -- LDAX rp (R119)
  | shld (a : Word)             -- SHLD addr16 (R122)
  | lhld (a : Word)             -- LHLD addr16 (R121)
  | sta (a : Word)              -- STA addr16 (R118)
  | lda (a : Word)              -- LDA addr16 (R117)
  | inx (p : PairSP)            -- INX rp (R154)
  | dcx (p : PairSP)            -- DCX rp (R155)
  | dad (p : PairSP)            -- DAD rp (R156)
  | inrR (r : Reg)              -- INR r (R152)
  | inrM                        -- INR M (R152)
  | dcrR (r : Reg)              -- DCR r (R153)
  | dcrM                        -- DCR M (R153)
  | mviR (r : Reg) (v : Byte)   -- MVI r,data8 (R114)
  | mviM (v : Byte)             -- MVI M,data8 (R115)
  | rlc                         -- RLC (R179)
  | rrc                         -- RRC (R180)
  | ral                         -- RAL (R181)
  | rar                         -- RAR (R182)
  | daa                         -- DAA (R157)
  | cma                         -- CMA (R183)
  | stc                         -- STC (R185)
  | cmc                         -- CMC (R184)
  | rim                         -- RIM (R257)
  | sim                         -- SIM (R258)
  | movRR (dst src : Reg)       -- MOV Rd,Rs (R111)
  | movRM (dst : Reg)           -- MOV Rd,M (R112)
  | movMR (src : Reg)           -- MOV M,Rs (R113)
  | hlt                         -- HLT (R252)
  | addR (r : Reg)              -- ADD r (R144)
  | addM                        -- ADD M (R144)
  | adcR (r : Reg)              -- ADC r (R145)
  | adcM                        -- ADC M (R145)
  | subR (r : Reg)              -- SUB r (R148)
  | subM                        -- SUB M (R148)
  | sbbR (r : Reg)              -- SBB r (R149)
  | sbbM                        -- SBB M (R149)
  | anaR (r : Reg)              -- ANA r (R171)
  | anaM                        -- ANA M (R171)
  | xraR (r : Reg)              -- XRA r (R173)
  | xraM                        -- XRA M (R173)
  | oraR (r : Reg)              -- ORA r (R175)
  | oraM                        -- ORA M (R175)
  | cmpR (r : Reg)              -- CMP r (R177)
  | cmpM                        -- CMP M (R177)
  | rnz                         -- RNZ (R221)
  | rz                          -- RZ (R222)
  | rnc                         -- RNC (R223)
  | rc                          -- RC (R224)
  | rpo                         -- RPO (R225)
  | rpe                         -- RPE (R226)
  | rp                          -- RP (R227)
  | rm                          -- RM (R228)
  | pop (p : PairPSW)           -- POP rp (R241)
  | ret                         -- RET (R220)
  | pchl                        -- PCHL (R230)
  | sphl                        -- SPHL (R243)
  | jnz (a : Word)              -- JNZ addr16 (R203)
  | jz (a : Word)               -- JZ addr16 (R204)
  | jnc (a : Word)              -- JNC addr16 (R205)
  | jc (a : Word)               -- JC addr16 (R206)
  | jpo (a : Word)              -- JPO addr16 (R207)
  | jpe (a : Word)              -- JPE addr16 (R208)
  | jp (a : Word)               -- JP addr16 (R209)
  | jm (a : Word)               -- JM addr16 (R210)
  | jmp (a : Word)              -- JMP addr16 (R202)
  | out (p : Byte)              -- OUT port8 (R245)
  | inp (p : Byte)              -- IN port8 (R244)
  | xthl                        -- XTHL (R242)
  | xchg                        -- XCHG (R123)
  | di                          -- DI (R251)
  | ei                          -- EI (R250)
  | cnz (a : Word)              -- CNZ addr16 (R212)
  | cz (a : Word)               -- CZ addr16 (R213)
  | cnc (a : Word)              -- CNC addr16 (R214)
  | cc (a : Word)               -- CC addr16 (R215)
  | cpo (a : Word)              -- CPO addr16 (R216)
  | cpe (a : Word)              -- CPE addr16 (R217)
  | cp (a : Word)               -- CP addr16 (R218)
  | cm (a : Word)               -- CM addr16 (R219)
  | push (p : PairPSW)          -- PUSH rp (R240)
  | call (a : Word)             -- CALL addr16 (R211)
  | adi (v : Byte)              -- ADI data8 (R146)
  | aci (v : Byte)              -- ACI data8 (R147)
  | sui (v : Byte)              -- SUI data8 (R150)
  | sbi (v : Byte)              -- SBI data8 (R151)
  | ani (v : Byte)              -- ANI data8 (R172)
  | xri (v : Byte)              -- XRI data8 (R174)
  | ori (v : Byte)              -- ORI data8 (R176)
  | cpi (v : Byte)              -- CPI data8 (R178)
  | rst (n : BitVec 3)          -- RST n (R229)
  | unassigned08                -- (unassigned) (R96)
  | unassigned10                -- (unassigned) (R96)
  | unassigned18                -- (unassigned) (R96)
  | unassigned28                -- (unassigned) (R96)
  | unassigned38                -- (unassigned) (R96)
  | unassignedCB                -- (unassigned) (R96)
  | unassignedD9                -- (unassigned) (R96)
  | unassignedDD                -- (unassigned) (R96)
  | unassignedED                -- (unassigned) (R96)
  | unassignedFD                -- (unassigned) (R96)
  deriving DecidableEq, Repr

end Sys2Proof
end

