-- ==== Sys2Proof/WellFormed.lean ====
section
/-! DEFINITION. Which terms of the syntax are instructions of the 8085. The operand types already exclude every
operand the opcode table excludes (register code 110 in a register field, SP in PUSH and POP, PSW in LXI, INX, DCX
and DAD, HL in LDAX and STAX), and every other field value is meaningful (R97). What is left to check is that the
term is not one of the ten opcode values with no instruction (R96). -/

namespace Sys2Proof

/-- An assigned instruction: one of the 93 instruction rows (R90), not one of the ten unassigned ones (R96). -/
def Instr.wellFormed : Instr → Bool
  | .nop => true
  | .lxi _ _ => true
  | .stax _ => true
  | .ldax _ => true
  | .shld _ => true
  | .lhld _ => true
  | .sta _ => true
  | .lda _ => true
  | .inx _ => true
  | .dcx _ => true
  | .dad _ => true
  | .inrR _ => true
  | .inrM => true
  | .dcrR _ => true
  | .dcrM => true
  | .mviR _ _ => true
  | .mviM _ => true
  | .rlc => true
  | .rrc => true
  | .ral => true
  | .rar => true
  | .daa => true
  | .cma => true
  | .stc => true
  | .cmc => true
  | .rim => true
  | .sim => true
  | .movRR _ _ => true
  | .movRM _ => true
  | .movMR _ => true
  | .hlt => true
  | .addR _ => true
  | .addM => true
  | .adcR _ => true
  | .adcM => true
  | .subR _ => true
  | .subM => true
  | .sbbR _ => true
  | .sbbM => true
  | .anaR _ => true
  | .anaM => true
  | .xraR _ => true
  | .xraM => true
  | .oraR _ => true
  | .oraM => true
  | .cmpR _ => true
  | .cmpM => true
  | .rnz => true
  | .rz => true
  | .rnc => true
  | .rc => true
  | .rpo => true
  | .rpe => true
  | .rp => true
  | .rm => true
  | .pop _ => true
  | .ret => true
  | .pchl => true
  | .sphl => true
  | .jnz _ => true
  | .jz _ => true
  | .jnc _ => true
  | .jc _ => true
  | .jpo _ => true
  | .jpe _ => true
  | .jp _ => true
  | .jm _ => true
  | .jmp _ => true
  | .out _ => true
  | .inp _ => true
  | .xthl => true
  | .xchg => true
  | .di => true
  | .ei => true
  | .cnz _ => true
  | .cz _ => true
  | .cnc _ => true
  | .cc _ => true
  | .cpo _ => true
  | .cpe _ => true
  | .cp _ => true
  | .cm _ => true
  | .push _ => true
  | .call _ => true
  | .adi _ => true
  | .aci _ => true
  | .sui _ => true
  | .sbi _ => true
  | .ani _ => true
  | .xri _ => true
  | .ori _ => true
  | .cpi _ => true
  | .rst _ => true
  | .unassigned08 => false
  | .unassigned10 => false
  | .unassigned18 => false
  | .unassigned28 => false
  | .unassigned38 => false
  | .unassignedCB => false
  | .unassignedD9 => false
  | .unassignedDD => false
  | .unassignedED => false
  | .unassignedFD => false

/-- The check as a proposition `decide` runs on. -/
abbrev WellFormed (i : Instr) : Prop := i.wellFormed = true

end Sys2Proof
end

