-- ==== Sys2Proof/Decode.lean ====
section
/-! DEFINITION. The decoder, total on any bytes, and after it the encoder: fields of the opcode byte (R85), the four
groups (R86 to R89), lengths (R84), operand assembly (R91). -/

namespace Sys2Proof

/-- Why a list of bytes decodes to nothing. Every opcode byte has a row (R90, R96), so the one reason is that bytes
are missing. -/
inductive DecodeError where
  /-- The list holds no byte, or fewer bytes than the opcode's length (R84). -/
  | truncated
  deriving DecidableEq, Repr

/-! ## Fields of the opcode byte (R85) -/

/-- D7 D6. -/
def groupField (op : Byte) : BitVec 2 := op.extractLsb' 6 2

/-- D5 D4 D3: `ddd`, `aaa`, `ccc`, `nnn`. -/
def midField (op : Byte) : BitVec 3 := op.extractLsb' 3 3

/-- D2 D1 D0: `sss`. -/
def lowField (op : Byte) : BitVec 3 := op.extractLsb' 0 3

/-- The register a 3-bit code names (R22); code 110 is M and names none. -/
def regOfCode (c : BitVec 3) : Option Reg :=
  match c.toNat with
  | 0 => some .b
  | 1 => some .c
  | 2 => some .d
  | 3 => some .e
  | 4 => some .h
  | 5 => some .l
  | 6 => none
  | _ => some .a

/-- The pair of LXI, INX, DCX, DAD in the middle field's upper two bits `xx` (R23). -/
def pairSPOfMid (mid : BitVec 3) : PairSP :=
  match (mid.extractLsb' 1 2).toNat with
  | 0 => .bc
  | 1 => .de
  | 2 => .hl
  | _ => .sp

/-- The pair of PUSH and POP in the middle field's upper two bits `xx` (R23). -/
def pairPSWOfMid (mid : BitVec 3) : PairPSW :=
  match (mid.extractLsb' 1 2).toNat with
  | 0 => .bc
  | 1 => .de
  | 2 => .hl
  | _ => .psw

/-! ## Length (R84) -/

/-- How many bytes the instruction with this opcode has; 1 also for the ten unassigned opcodes, which have no length
(R84, log entry 8). -/
def opcodeLength (op : Byte) : Nat :=
  match (groupField op).toNat, (lowField op).toNat, (midField op).toNat with
  | 0, 6, _ => 2
  | 0, 1, m => if m % 2 = 0 then 3 else 1
  | 0, 2, m => if m < 4 then 1 else 3
  | 3, 6, _ => 2
  | 3, 2, _ => 3
  | 3, 4, _ => 3
  | 3, 3, m => if m = 0 then 3 else if m = 2 ∨ m = 3 then 2 else 1
  | 3, 5, m => if m = 1 then 3 else 1
  | _, _, _ => 1

/-! ## The four groups -/

/-- Group 00 (R88). -/
def decodeGroup00 (mid low : BitVec 3) (d8 : Byte) (d16 : Word) : Instr :=
  match low.toNat with
  | 0 =>
    match mid.toNat with
    | 0 => .nop
    | 1 => .unassigned08
    | 2 => .unassigned10
    | 3 => .unassigned18
    | 4 => .rim
    | 5 => .unassigned28
    | 6 => .sim
    | _ => .unassigned38
  | 1 => if mid.getLsbD 0 then .dad (pairSPOfMid mid) else .lxi (pairSPOfMid mid) d16
  | 2 =>
    match mid.toNat with
    | 0 => .stax .bc
    | 1 => .ldax .bc
    | 2 => .stax .de
    | 3 => .ldax .de
    | 4 => .shld d16
    | 5 => .lhld d16
    | 6 => .sta d16
    | _ => .lda d16
  | 3 => if mid.getLsbD 0 then .dcx (pairSPOfMid mid) else .inx (pairSPOfMid mid)
  | 4 =>
    match regOfCode mid with
    | some r => .inrR r
    | none => .inrM
  | 5 =>
    match regOfCode mid with
    | some r => .dcrR r
    | none => .dcrM
  | 6 =>
    match regOfCode mid with
    | some r => .mviR r d8
    | none => .mviM d8
  | _ =>
    match mid.toNat with
    | 0 => .rlc
    | 1 => .rrc
    | 2 => .ral
    | 3 => .rar
    | 4 => .daa
    | 5 => .cma
    | 6 => .stc
    | _ => .cmc

/-- Group 01 (R86): MOV, but for `01 110 110`, which is HLT. -/
def decodeGroup01 (mid low : BitVec 3) : Instr :=
  match regOfCode mid, regOfCode low with
  | some dst, some src => .movRR dst src
  | some dst, none => .movRM dst
  | none, some src => .movMR src
  | none, none => .hlt

/-- Group 10 (R87): the middle field `aaa` selects the operation, the low field the operand. -/
def decodeGroup10 (mid low : BitVec 3) : Instr :=
  match regOfCode low with
  | some r =>
    match mid.toNat with
    | 0 => .addR r
    | 1 => .adcR r
    | 2 => .subR r
    | 3 => .sbbR r
    | 4 => .anaR r
    | 5 => .xraR r
    | 6 => .oraR r
    | _ => .cmpR r
  | none =>
    match mid.toNat with
    | 0 => .addM
    | 1 => .adcM
    | 2 => .subM
    | 3 => .sbbM
    | 4 => .anaM
    | 5 => .xraM
    | 6 => .oraM
    | _ => .cmpM

/-- Group 11 (R89). -/
def decodeGroup11 (mid low : BitVec 3) (d8 : Byte) (d16 : Word) : Instr :=
  match low.toNat with
  | 0 =>
    match mid.toNat with
    | 0 => .rnz
    | 1 => .rz
    | 2 => .rnc
    | 3 => .rc
    | 4 => .rpo
    | 5 => .rpe
    | 6 => .rp
    | _ => .rm
  | 1 =>
    match mid.toNat with
    | 1 => .ret
    | 3 => .unassignedD9
    | 5 => .pchl
    | 7 => .sphl
    | _ => .pop (pairPSWOfMid mid)
  | 2 =>
    match mid.toNat with
    | 0 => .jnz d16
    | 1 => .jz d16
    | 2 => .jnc d16
    | 3 => .jc d16
    | 4 => .jpo d16
    | 5 => .jpe d16
    | 6 => .jp d16
    | _ => .jm d16
  | 3 =>
    match mid.toNat with
    | 0 => .jmp d16
    | 1 => .unassignedCB
    | 2 => .out d8
    | 3 => .inp d8
    | 4 => .xthl
    | 5 => .xchg
    | 6 => .di
    | _ => .ei
  | 4 =>
    match mid.toNat with
    | 0 => .cnz d16
    | 1 => .cz d16
    | 2 => .cnc d16
    | 3 => .cc d16
    | 4 => .cpo d16
    | 5 => .cpe d16
    | 6 => .cp d16
    | _ => .cm d16
  | 5 =>
    match mid.toNat with
    | 1 => .call d16
    | 3 => .unassignedDD
    | 5 => .unassignedED
    | 7 => .unassignedFD
    | _ => .push (pairPSWOfMid mid)
  | 6 =>
    match mid.toNat with
    | 0 => .adi d8
    | 1 => .aci d8
    | 2 => .sui d8
    | 3 => .sbi d8
    | 4 => .ani d8
    | 5 => .xri d8
    | 6 => .ori d8
    | _ => .cpi d8
  | _ => .rst mid

/-- The instruction with opcode `op`, second byte `b2` and third byte `b3`; `data16` and `addr16` are
`byte3 ++ byte2` (R83, R91). Bytes past the opcode's length play no part. -/
def decodeInstr (op b2 b3 : Byte) : Instr :=
  match (groupField op).toNat with
  | 0 => decodeGroup00 (midField op) (lowField op) b2 (b3 ++ b2)
  | 1 => decodeGroup01 (midField op) (lowField op)
  | 2 => decodeGroup10 (midField op) (lowField op)
  | _ => decodeGroup11 (midField op) (lowField op) b2 (b3 ++ b2)

/-- Reads one instruction from the front of a list of bytes and returns it with the rest of the list (R80 to R84). -/
def decode (bytes : List Byte) : Except DecodeError (Instr × List Byte) :=
  match bytes with
  | [] => .error .truncated
  | op :: rest =>
    match opcodeLength op, rest with
    | 1, r => .ok (decodeInstr op 0 0, r)
    | 2, b2 :: r => .ok (decodeInstr op b2 0, r)
    | 3, b2 :: b3 :: r => .ok (decodeInstr op b2 b3, r)
    | _, _ => .error .truncated

/-- The instruction the decoder reads from an instruction whose bits are `w`, the first byte in bits 7..0; every bit
above `nbits` is 0. -/
def decodeTableWord (nbits w : Nat) : Option Instr :=
  let v := w % 2 ^ nbits
  match decode [BitVec.ofNat 8 v, BitVec.ofNat 8 (v / 2 ^ 8), BitVec.ofNat 8 (v / 2 ^ 16)] with
  | .ok (i, _) => some i
  | .error _ => none

/-! ## The encoder, from the same tables (R22, R23, R86 to R89) -/

/-- The 3-bit code of a register (R22). -/
def regCode : Reg → BitVec 3
  | .b => 0b000#3
  | .c => 0b001#3
  | .d => 0b010#3
  | .e => 0b011#3
  | .h => 0b100#3
  | .l => 0b101#3
  | .a => 0b111#3

/-- The 1-bit field x of LDAX and STAX (R23). -/
def pairXCode : PairX → BitVec 1
  | .bc => 0b0#1
  | .de => 0b1#1

/-- The 2-bit field xx of LXI, INX, DCX, DAD (R23). -/
def pairSPCode : PairSP → BitVec 2
  | .bc => 0b00#2
  | .de => 0b01#2
  | .hl => 0b10#2
  | .sp => 0b11#2

/-- The 2-bit field xx of PUSH and POP (R23). -/
def pairPSWCode : PairPSW → BitVec 2
  | .bc => 0b00#2
  | .de => 0b01#2
  | .hl => 0b10#2
  | .psw => 0b11#2

/-- A 3-byte instruction: the opcode, the low-order byte, the high-order byte (R83). -/
def threeBytes (op : Byte) (v : Word) : List Byte := [op, v.extractLsb' 0 8, v.extractLsb' 8 8]

/-- The bytes of an instruction, the opcode first. -/
def encode : Instr → List Byte
  | .nop => [0b00000000#8]
  | .lxi p v => threeBytes (0b00#2 ++ pairSPCode p ++ 0b0001#4) v
  | .stax p => [0b000#3 ++ pairXCode p ++ 0b0010#4]
  | .ldax p => [0b000#3 ++ pairXCode p ++ 0b1010#4]
  | .shld a => threeBytes 0b00100010#8 a
  | .lhld a => threeBytes 0b00101010#8 a
  | .sta a => threeBytes 0b00110010#8 a
  | .lda a => threeBytes 0b00111010#8 a
  | .inx p => [0b00#2 ++ pairSPCode p ++ 0b0011#4]
  | .dcx p => [0b00#2 ++ pairSPCode p ++ 0b1011#4]
  | .dad p => [0b00#2 ++ pairSPCode p ++ 0b1001#4]
  | .inrR r => [0b00#2 ++ regCode r ++ 0b100#3]
  | .inrM => [0b00110100#8]
  | .dcrR r => [0b00#2 ++ regCode r ++ 0b101#3]
  | .dcrM => [0b00110101#8]
  | .mviR r v => [(0b00#2 ++ regCode r ++ 0b110#3), v]
  | .mviM v => [0b00110110#8, v]
  | .rlc => [0b00000111#8]
  | .rrc => [0b00001111#8]
  | .ral => [0b00010111#8]
  | .rar => [0b00011111#8]
  | .daa => [0b00100111#8]
  | .cma => [0b00101111#8]
  | .stc => [0b00110111#8]
  | .cmc => [0b00111111#8]
  | .rim => [0b00100000#8]
  | .sim => [0b00110000#8]
  | .movRR dst src => [0b01#2 ++ regCode dst ++ regCode src]
  | .movRM dst => [0b01#2 ++ regCode dst ++ 0b110#3]
  | .movMR src => [0b01110#5 ++ regCode src]
  | .hlt => [0b01110110#8]
  | .addR r => [0b10000#5 ++ regCode r]
  | .addM => [0b10000110#8]
  | .adcR r => [0b10001#5 ++ regCode r]
  | .adcM => [0b10001110#8]
  | .subR r => [0b10010#5 ++ regCode r]
  | .subM => [0b10010110#8]
  | .sbbR r => [0b10011#5 ++ regCode r]
  | .sbbM => [0b10011110#8]
  | .anaR r => [0b10100#5 ++ regCode r]
  | .anaM => [0b10100110#8]
  | .xraR r => [0b10101#5 ++ regCode r]
  | .xraM => [0b10101110#8]
  | .oraR r => [0b10110#5 ++ regCode r]
  | .oraM => [0b10110110#8]
  | .cmpR r => [0b10111#5 ++ regCode r]
  | .cmpM => [0b10111110#8]
  | .rnz => [0b11000000#8]
  | .rz => [0b11001000#8]
  | .rnc => [0b11010000#8]
  | .rc => [0b11011000#8]
  | .rpo => [0b11100000#8]
  | .rpe => [0b11101000#8]
  | .rp => [0b11110000#8]
  | .rm => [0b11111000#8]
  | .pop p => [0b11#2 ++ pairPSWCode p ++ 0b0001#4]
  | .ret => [0b11001001#8]
  | .pchl => [0b11101001#8]
  | .sphl => [0b11111001#8]
  | .jnz a => threeBytes 0b11000010#8 a
  | .jz a => threeBytes 0b11001010#8 a
  | .jnc a => threeBytes 0b11010010#8 a
  | .jc a => threeBytes 0b11011010#8 a
  | .jpo a => threeBytes 0b11100010#8 a
  | .jpe a => threeBytes 0b11101010#8 a
  | .jp a => threeBytes 0b11110010#8 a
  | .jm a => threeBytes 0b11111010#8 a
  | .jmp a => threeBytes 0b11000011#8 a
  | .out p => [0b11010011#8, p]
  | .inp p => [0b11011011#8, p]
  | .xthl => [0b11100011#8]
  | .xchg => [0b11101011#8]
  | .di => [0b11110011#8]
  | .ei => [0b11111011#8]
  | .cnz a => threeBytes 0b11000100#8 a
  | .cz a => threeBytes 0b11001100#8 a
  | .cnc a => threeBytes 0b11010100#8 a
  | .cc a => threeBytes 0b11011100#8 a
  | .cpo a => threeBytes 0b11100100#8 a
  | .cpe a => threeBytes 0b11101100#8 a
  | .cp a => threeBytes 0b11110100#8 a
  | .cm a => threeBytes 0b11111100#8 a
  | .push p => [0b11#2 ++ pairPSWCode p ++ 0b0101#4]
  | .call a => threeBytes 0b11001101#8 a
  | .adi v => [0b11000110#8, v]
  | .aci v => [0b11001110#8, v]
  | .sui v => [0b11010110#8, v]
  | .sbi v => [0b11011110#8, v]
  | .ani v => [0b11100110#8, v]
  | .xri v => [0b11101110#8, v]
  | .ori v => [0b11110110#8, v]
  | .cpi v => [0b11111110#8, v]
  | .rst n => [0b11#2 ++ n ++ 0b111#3]
  | .unassigned08 => [0b00001000#8]
  | .unassigned10 => [0b00010000#8]
  | .unassigned18 => [0b00011000#8]
  | .unassigned28 => [0b00101000#8]
  | .unassigned38 => [0b00111000#8]
  | .unassignedCB => [0b11001011#8]
  | .unassignedD9 => [0b11011001#8]
  | .unassignedDD => [0b11011101#8]
  | .unassignedED => [0b11101101#8]
  | .unassignedFD => [0b11111101#8]

/-- How many bytes an instruction has (R84). -/
def Instr.length (i : Instr) : Nat := (encode i).length

end Sys2Proof
end

