-- ==== Sys2Proof/Config.lean ====
section
/-! DEFINITION. The parameters the spec leaves open (R6), as one record of plain data that State carries and
no step changes, and the free values (opaque constants) that stand for what nothing in the spec fixes. -/

namespace Sys2Proof

/-- What `MEM_MAP` declares an address to be (R6, R54). -/
inductive MemKind where
  | ram      -- read and written
  | rom      -- read; a write completes and changes nothing
  | absent   -- any access is the model fault `UnmappedAccess`
  deriving DecidableEq, Repr

/-- One entry of `MEM_MAP`: the addresses `first` to `last`, both included, are of the kind `kind`. -/
structure Region where
  first : Word
  last  : Word
  kind  : MemKind
  deriving DecidableEq, Repr

/-- The implementation parameters of R6. `UNASSIGNED_OPCODE` has one value in the spec (the fault
`IllegalOpcode`, D7) and `IO_ENV` is the environment held in State (`Machine.Env`); the rest are fields. -/
structure Params where
  /-- `MEM_MAP` (D9): the first region that holds an address decides its kind; an address in no region is RAM. -/
  memMap       : List Region
  /-- `PSW_FILL` (D2): the flag byte's bits 5, 3, 1 in PUSH PSW; `none` is the default, a fresh draw at every PUSH PSW. -/
  pswFill      : Option (BitVec 3)
  /-- `AC_SUB_NIBBLE0` (D3): AC after a subtraction whose subtrahend has low nibble 0 and no borrow in. -/
  acSubNibble0 : Bool
  /-- `RESET_PC` (D8). -/
  resetPc      : Word
  /-- `EI_DELAY` (D14): true is the parameter's value 1, false its value 0. -/
  eiDelay      : Bool
  /-- `INTA_OPCODES` (D13): the bytes external hardware may insert when INTR is acknowledged. -/
  intaOpcodes  : List Byte
  deriving DecidableEq, Repr

/-- The defaults of R6. -/
def Params.default : Params where
  memMap       := []
  pswFill      := none
  acSubNibble0 := false
  resetPc      := 0x0000#16
  eiDelay      := true
  intaOpcodes  := [0xC7#8, 0xCF#8, 0xD7#8, 0xDF#8, 0xE7#8, 0xEF#8, 0xF7#8, 0xFF#8]

/-- What an address that memory does not list holds. DESIGN CHOICE (unsafe), log entry 1: the spec gives the
initial contents of memory no value (R40, U1). -/
def memUnlisted : Byte := 0x00#8

/-- FREE VALUE (log entry 3): the bits 5, 3, 1 of the byte PUSH PSW writes at draw `n` (R25, D2, U3). -/
opaque Config.pswFill (n : Nat) : BitVec 3

/-- FREE VALUE (log entry 4): what the environment presents at the I/O bus address `a` at draw `n`, where the
environment's inputs name no byte (R51, D10, U10). -/
opaque Config.portByte (a : Word) (n : Nat) : Byte

/-- FREE VALUE (log entry 4): the serial input bit at draw `n`, where the environment's inputs name none
(R35, D28, U10). -/
opaque Config.serialIn (n : Nat) : Bool

/-- FREE VALUE (log entry 5): the register with code `c` (R22) after the reset that is draw `n` (R310, U1). -/
opaque Config.resetReg (n : Nat) (c : BitVec 3) : Byte

/-- FREE VALUE (log entry 5): the flag at bit `k` of the flag byte (R25) after the reset that is draw `n`. -/
opaque Config.resetFlag (n : Nat) (k : Nat) : Bool

/-- FREE VALUE (log entry 5): the stack pointer after the reset that is draw `n`. -/
opaque Config.resetSp (n : Nat) : Word

end Sys2Proof
end

