-- ==== Sys2Proof/Machine/State.lean ====
section
/-! DEFINITION. The state of the machine as plain data (10_state.md), the reasons a step can stop, and the state
after reset. -/

namespace Sys2Proof.Machine

/-- The accumulator and the six general registers (R20, R21). -/
structure Regs where
  a : Byte
  b : Byte
  c : Byte
  d : Byte
  e : Byte
  h : Byte
  l : Byte
  deriving DecidableEq, Repr

/-- The five flags S, Z, AC, P, CY (R24). -/
structure Flags where
  s  : Bool
  z  : Bool
  ac : Bool
  p  : Bool
  cy : Bool
  deriving DecidableEq, Repr

/-- The control state (R29): interrupt enable, the three masks, the RST 7.5 flip-flop, the serial output latch,
halted, and the two latches `ei_shadow` and `trap_req`. -/
structure Control where
  /-- `IE`, R30. -/
  ie       : Bool
  /-- `M75`, R31. -/
  m75      : Bool
  /-- `M65`, R31. -/
  m65      : Bool
  /-- `M55`, R31. -/
  m55      : Bool
  /-- `R75`, R32. -/
  r75      : Bool
  /-- `SOD`, R33. -/
  sod      : Bool
  /-- `halted`, R34. -/
  halted   : Bool
  /-- `ei_shadow`, R38. -/
  eiShadow : Bool
  /-- `trap_req`, R41. -/
  trapReq  : Bool
  deriving DecidableEq, Repr

/-- What the environment presents to the machine at one step (R35, R270). -/
structure Inputs where
  /-- Reset is asserted (R310). -/
  reset        : Bool
  /-- A TRAP request arrived since the last sample (R272, R279). -/
  trapRequest  : Bool
  /-- An RST 7.5 request arrived since the last sample (R273, R279). -/
  rst75Request : Bool
  /-- The level of the RST 6.5 request line (R274) through the whole step: at the sampling of step 2 and at a RIM the step
  runs. DESIGN CHOICE (unsafe), log entry 16. -/
  line65       : Bool
  /-- The level of the RST 5.5 request line (R274) through the whole step, as for RST 6.5. DESIGN CHOICE (unsafe), log
  entry 16. -/
  line55       : Bool
  /-- `none`: the INTR line is 0. `some b`: it is 1, and `b` is the byte an acknowledge would be given (R275). -/
  intr         : Option Byte
  /-- The serial input bit; `none` is a draw from the environment, a free value (R35, U10, log entry 4). -/
  sid          : Option Bool
  /-- What the input port an IN reads presents; `none` is a draw, a free value (R51, U10, log entry 4). -/
  portIn       : Option Byte
  deriving DecidableEq, Repr

/-- No request, no line up, no reset; ports and serial input are draws. -/
def Inputs.idle : Inputs where
  reset        := false
  trapRequest  := false
  rst75Request := false
  line65       := false
  line55       := false
  intr         := none
  sid          := none
  portIn       := none

/-- What the machine delivers to the environment (R51, R33, D10, D36). -/
inductive OutEvent where
  /-- OUT delivered `v` to output port `p`. -/
  | port (p v : Byte)
  /-- The SOD line changed to `b`. -/
  | sod (b : Bool)
  deriving DecidableEq, Repr

/-- The environment's side of the machine (`IO_ENV`, R6, R270): what it presents at the next step, what it will
present at the steps after that, and what it has received. -/
structure Env where
  /-- The inputs of the next step. -/
  inputs : Inputs
  /-- The inputs of the steps after it; when the list ends, levels stay and no further event comes (log entry 6). -/
  script : List Inputs
  /-- The output trace, oldest event first. -/
  out    : List OutEvent
  /-- The MODEL's own field: how many free values have been drawn (log entry 3). -/
  draws  : Nat
  deriving DecidableEq, Repr

/-- Memory: the bytes that differ from `memUnlisted`, by address, addresses strictly rising (R50). -/
abbrev Memory := List Host.Cell

/-- The state of the machine (10_state.md), its environment and its parameters (R6). -/
structure State where
  regs   : Regs
  flags  : Flags
  /-- The program counter, R27. -/
  pc     : Word
  /-- The stack pointer, R28. -/
  sp     : Word
  ctl    : Control
  mem    : Memory
  env    : Env
  /-- The parameters of R6, which no step changes. -/
  params : Params
  deriving DecidableEq, Repr

/-- What an access that `MEM_MAP` does not admit was (R285). -/
inductive Access where
  | fetch | read | write
  deriving DecidableEq, Repr

/-- The two model faults (R285). -/
inductive Fault where
  /-- Raised by the ten unassigned instructions: the opcode byte at `pc0` has no instruction (R96, D7). Safe: the chip
  does something there that the spec does not describe, and the model says nothing about it. -/
  | illegalOpcode (opcode : Byte) (pc0 : Word)
  /-- Raised by the fetch of an instruction byte and by `memRead` and `memWrite` at an address `MEM_MAP` marks absent
  (R54, D9). Safe: the chip would go on with a value the spec does not give. -/
  | unmappedAccess (addr : Word) (access : Access)
  deriving DecidableEq, Repr

/-- The refusals. -/
inductive Refusal where
  /-- Raised by an arm of `exec` whose instruction has no meaning yet; no arm does. Safe. -/
  | notModelled (mnemonic : String)
  /-- Raised by an INTR acknowledge that delivers a byte outside `INTA_OPCODES` (R275, R281, D13). Safe: the model
  gives the run no meaning. -/
  | intaByteNotAdmitted (byte : Byte)
  deriving DecidableEq, Repr

/-- What an operation that can stop answers. -/
abbrev Result (α : Type) := Host.Outcome α Fault Refusal

/-- The control state after reset (R40, R310). -/
def Control.afterReset : Control where
  ie       := false
  m75      := true
  m65      := true
  m55      := true
  r75      := false
  sod      := false
  halted   := false
  eiShadow := false
  trapReq  := false

/-- The machine right after reset (R40), with the default parameters (R6) and an idle environment. Registers, flags
and `sp` are the DESIGN CHOICE of log entry 2, the environment that of log entry 6. -/
def State.reset : State where
  regs   := { a := 0x00#8, b := 0x00#8, c := 0x00#8, d := 0x00#8, e := 0x00#8, h := 0x00#8, l := 0x00#8 }
  flags  := { s := false, z := false, ac := false, p := false, cy := false }
  pc     := Params.default.resetPc
  sp     := 0x0000#16
  ctl    := Control.afterReset
  mem    := []
  env    := { inputs := Inputs.idle, script := [], out := [], draws := 0 }
  params := Params.default

end Sys2Proof.Machine
end

