-- ==== Sys2Proof/Machine/Ops.lean ====
section
/-! DEFINITION. The named operations over state: field updates, registers and pairs, memory under `MEM_MAP`, the
stack, ports and serial input, sampling and recognising interrupts, taking one, returning from one, reset, and
fetching an instruction. -/

namespace Sys2Proof.Machine

/-- Runs `f` on what `x` answers; a fault or a refusal of `x` stands. -/
def andThen {α β : Type} (x : Result α) (f : α → Result β) : Result β :=
  match x with
  | .next v => f v
  | .fault r => .fault r
  | .refused r => .refused r

/-! ## Field updates -/

/-- `s` with these registers. -/
def State.setRegs (s : State) (r : Regs) : State := { s with regs := r }

/-- `s` with these flags. -/
def State.setFlags (s : State) (f : Flags) : State := { s with flags := f }

/-- `s` with this program counter. -/
def State.setPc (s : State) (v : Word) : State := { s with pc := v }

/-- `s` with this stack pointer. -/
def State.setSp (s : State) (v : Word) : State := { s with sp := v }

/-- `s` with this control state. -/
def State.setCtl (s : State) (c : Control) : State := { s with ctl := c }

/-- `s` with this memory. -/
def State.setMem (s : State) (m : Memory) : State := { s with mem := m }

/-- `s` with this environment. -/
def State.setEnv (s : State) (e : Env) : State := { s with env := e }

/-- `next`: the address of the instruction after one of `n` bytes at `pc`, modulo 65536 (R10, R27). -/
def State.nextPc (s : State) (n : Nat) : Word := s.pc + BitVec.ofNat 16 n

/-- `pc <- next` for an instruction of `n` bytes. -/
def State.advance (s : State) (n : Nat) : State := s.setPc (s.nextPc n)

/-! ## Bytes and words (R8) -/

/-- The high-order byte. -/
def hiByte (v : Word) : Byte := v.extractLsb' 8 8

/-- The low-order byte. -/
def loByte (v : Word) : Byte := v.extractLsb' 0 8

/-! ## Registers (R20 to R23) -/

/-- `x[r]`. -/
def Regs.get (g : Regs) : Reg → Byte
  | .b => g.b
  | .c => g.c
  | .d => g.d
  | .e => g.e
  | .h => g.h
  | .l => g.l
  | .a => g.a

/-- The registers after `x[r] <- v`. -/
def Regs.set (g : Regs) (r : Reg) (v : Byte) : Regs :=
  match r with
  | .b => { g with b := v }
  | .c => { g with c := v }
  | .d => { g with d := v }
  | .e => { g with e := v }
  | .h => { g with h := v }
  | .l => { g with l := v }
  | .a => { g with a := v }

/-- `x[r]`. -/
def State.reg (s : State) (r : Reg) : Byte := s.regs.get r

/-- `x[r] <- v`. -/
def State.setReg (s : State) (r : Reg) (v : Byte) : State := s.setRegs (s.regs.set r v)

/-- `rp[BC]`. -/
def State.bc (s : State) : Word := s.regs.b ++ s.regs.c

/-- `rp[DE]`. -/
def State.de (s : State) : Word := s.regs.d ++ s.regs.e

/-- `rp[HL]`. -/
def State.hl (s : State) : Word := s.regs.h ++ s.regs.l

/-- `rp[BC] <- v`. -/
def State.setBc (s : State) (v : Word) : State := s.setRegs { s.regs with b := hiByte v, c := loByte v }

/-- `rp[DE] <- v`. -/
def State.setDe (s : State) (v : Word) : State := s.setRegs { s.regs with d := hiByte v, e := loByte v }

/-- `rp[HL] <- v`. -/
def State.setHl (s : State) (v : Word) : State := s.setRegs { s.regs with h := hiByte v, l := loByte v }

/-! ## Memory (R50, R54) -/

/-- The byte a memory holds at an address. -/
def Memory.lookup : Memory → Nat → Byte
  | [], _ => memUnlisted
  | (k, v) :: m, a => if k = a then v else Memory.lookup m a

/-- Memory with `b` at address `a`, in canonical form: writing what an unlisted address holds removes the entry. -/
def Memory.store : Memory → Nat → Byte → Memory
  | [], a, b => if b = memUnlisted then [] else [(a, b)]
  | (k, v) :: m, a, b =>
    if a < k then
      if b = memUnlisted then (k, v) :: m else (a, b) :: (k, v) :: m
    else if a = k then
      if b = memUnlisted then m else (a, b) :: m
    else
      (k, v) :: Memory.store m a b

/-- Every listed address is at least `lo`, addresses rise strictly, each is below 65536, and no entry equals what an
unlisted address holds. -/
def Memory.wfFrom (lo : Nat) : Memory → Bool
  | [] => true
  | (k, v) :: m => decide (lo ≤ k) && decide (k < 65536) && decide (v ≠ memUnlisted) && Memory.wfFrom (k + 1) m

/-- The canonical form of memory. -/
def Memory.wf (m : Memory) : Bool := Memory.wfFrom 0 m

/-- Does the region hold the address? -/
def regionHolds (r : Region) (a : Word) : Bool := decide (r.first ≤ a) && decide (a ≤ r.last)

/-- `MEM_MAP` at an address (R6, D9): the first region that holds it; RAM where none does. -/
def kindIn : List Region → Word → MemKind
  | [], _ => .ram
  | r :: rs, a => if regionHolds r a then r.kind else kindIn rs a

/-- What `MEM_MAP` declares the address to be. -/
def State.kindAt (s : State) (a : Word) : MemKind := kindIn s.params.memMap a

/-- The byte memory holds at the address. -/
def State.byteAt (s : State) (a : Word) : Byte := Memory.lookup s.mem a.toNat

/-- The byte an access of this sort gets at the address; the fault `UnmappedAccess` where it is absent (R54, R285). -/
def loadByte (acc : Access) (s : State) (a : Word) : Result Byte :=
  match s.kindAt a with
  | .absent => .fault (.unmappedAccess a acc)
  | .ram => .next (s.byteAt a)
  | .rom => .next (s.byteAt a)

/-- `MemRead(a, 1)` (R10, R54). -/
def memRead (s : State) (a : Word) : Result Byte := loadByte .read s a

/-- The fetch of one instruction byte (R54, R67). -/
def fetchByte (s : State) (a : Word) : Result Byte := loadByte .fetch s a

/-- `MemWrite(a, 1, v)` (R10, R54): no effect on ROM, the fault `UnmappedAccess` where absent. -/
def memWrite (s : State) (a : Word) (v : Byte) : Result State :=
  match s.kindAt a with
  | .absent => .fault (.unmappedAccess a .write)
  | .rom => .next s
  | .ram => .next (s.setMem (Memory.store s.mem a.toNat v))

/-! ## The stack (R201, R240, R241) -/

/-- Pushes `hi` and then `lo`, each after `sp` is decremented. -/
def pushBytes (s : State) (hi lo : Byte) : Result State :=
  andThen (memWrite (s.setSp (s.sp - 1)) (s.sp - 1) hi) fun s1 =>
    memWrite (s1.setSp (s1.sp - 1)) (s1.sp - 1) lo

/-- Pops the low-order byte and then the high-order byte, `sp` incremented after each. -/
def popBytes (s : State) : Result (Byte × Byte × State) :=
  andThen (memRead s s.sp) fun lo =>
    andThen (memRead (s.setSp (s.sp + 1)) (s.sp + 1)) fun hi =>
      .next (hi, lo, s.setSp (s.sp + 1 + 1))

/-- `push_pc(v)` (R201). -/
def pushPc (s : State) (v : Word) : Result State := pushBytes s (hiByte v) (loByte v)

/-- `pc <- pop_pc()` (R201): the return from a subroutine and from an interrupt, for the machine has no other (R283). -/
def returnToCaller (s : State) : Result State :=
  andThen (popBytes s) fun r => .next (r.2.2.setPc (r.1 ++ r.2.1))

/-- A call: the return address pushed, then control to the target (R211, R229). -/
def callTo (s : State) (ret target : Word) : Result State :=
  andThen (pushPc s ret) fun s1 => .next (s1.setPc target)

/-! ## Free values, ports, serial lines (R33, R35, R51) -/

/-- One more free value drawn. -/
def State.drawn (s : State) : State := s.setEnv { s.env with draws := s.env.draws + 1 }

/-- The address on the bus during an access to port `p`: the port number on both halves (R56). -/
def ioBusAddress (p : Byte) : Word := p ++ p

/-- `IORead(p)` (R51): what the environment presents, a free value where its inputs name no byte. -/
def ioRead (s : State) (p : Byte) : Byte × State :=
  match s.env.inputs.portIn with
  | some v => (v, s)
  | none => (Config.portByte (ioBusAddress p) s.env.draws, s.drawn)

/-- An event added to the output trace. -/
def State.emit (s : State) (e : OutEvent) : State := s.setEnv { s.env with out := s.env.out ++ [e] }

/-- `IOWrite(p, v)` (R51, D10). -/
def ioWrite (s : State) (p v : Byte) : State := s.emit (.port p v)

/-- `SID_in` at the moment RIM executes (D28), a free value where the inputs name none. -/
def sidRead (s : State) : Bool × State :=
  match s.env.inputs.sid with
  | some b => (b, s)
  | none => (Config.serialIn s.env.draws, s.drawn)

/-- `SOD <- b`; a change of the line is an event of the output trace (R33, D36). -/
def latchSod (s : State) (b : Bool) : State :=
  if s.ctl.sod = b then s else (s.setCtl { s.ctl with sod := b }).emit (.sod b)

/-! ## Interrupts (60_exceptions.md) -/

/-- The five interrupt sources (R271); INTR with the byte the environment supplies (R275). -/
inductive IntSource where
  | trap | rst75 | rst65 | rst55
  | intr (b : Byte)
  deriving DecidableEq, Repr

/-- Step 2 of R270: the request events are folded into `trap_req` and `R75` (R279). -/
def sampleInterrupts (s : State) : State :=
  s.setCtl { s.ctl with
    trapReq := s.ctl.trapReq || s.env.inputs.trapRequest
    r75     := s.ctl.r75 || s.env.inputs.rst75Request }

/-- What R277 asks of every source but TRAP: `IE` = 1 and `ei_shadow` = 0. -/
def State.maskableEnabled (s : State) : Bool := s.ctl.ie && !s.ctl.eiShadow

/-- `recognisable(source)` (R277). -/
def State.recognisable (s : State) : IntSource → Bool
  | .trap => s.ctl.trapReq
  | .rst75 => s.ctl.r75 && !s.ctl.m75 && s.maskableEnabled
  | .rst65 => s.env.inputs.line65 && !s.ctl.m65 && s.maskableEnabled
  | .rst55 => s.env.inputs.line55 && !s.ctl.m55 && s.maskableEnabled
  | .intr b => decide (s.env.inputs.intr = some b) && s.maskableEnabled

/-- The recognisable source of highest priority, TRAP > RST 7.5 > RST 6.5 > RST 5.5 > INTR (R278). -/
def State.pendingInterrupt (s : State) : Option IntSource :=
  if s.recognisable .trap then some .trap
  else if s.recognisable .rst75 then some .rst75
  else if s.recognisable .rst65 then some .rst65
  else if s.recognisable .rst55 then some .rst55
  else
    match s.env.inputs.intr with
    | some b => if s.recognisable (.intr b) then some (.intr b) else none
    | none => none

/-- The address of RST n: `8 * n` (R229). -/
def rstAddress (n : BitVec 3) : Word := (0#10 ++ n) ++ 0b000#3

/-- Where control goes when the source is taken (R271, R280, R281). -/
def IntSource.restartAddress : IntSource → Word
  | .trap => 0x0024#16
  | .rst75 => 0x003C#16
  | .rst65 => 0x0034#16
  | .rst55 => 0x002C#16
  | .intr b => rstAddress (midField b)

/-- The control state an interrupt entry leaves (R280, R281): `halted`, `IE`, `ei_shadow` and the served source's latch
cleared, the rest kept. -/
def Control.afterEntry (c : Control) (src : IntSource) : Control :=
  { c with
    halted   := false
    ie       := false
    eiShadow := false
    r75      := match src with | .rst75 => false | _ => c.r75
    trapReq  := match src with | .trap => false | _ => c.trapReq }

/-- Taking an interrupt, the one entry of every source (R280, R281): the control state changes, the unadvanced `pc` is
pushed, and control goes to the source's restart address. -/
def interruptEntry (s : State) (src : IntSource) : Result State :=
  callTo (s.setCtl (s.ctl.afterEntry src)) s.pc src.restartAddress

/-- Is the byte one the model admits on an INTR acknowledge: in `INTA_OPCODES`, and an RST opcode `11 nnn 111`, the only
kind R281 gives an entry for? -/
def admitsInta (p : Params) (b : Byte) : Bool :=
  p.intaOpcodes.contains b && decide (groupField b = 0b11#2) && decide (lowField b = 0b111#3)

/-- Step 3 of R270 for the source to be taken; an INTR byte that is not admitted is refused (R275). -/
def takeInterrupt (s : State) (src : IntSource) : Result State :=
  match src with
  | .intr b => if admitsInta s.params b then interruptEntry s (.intr b) else .refused (.intaByteNotAdmitted b)
  | .trap => interruptEntry s .trap
  | .rst75 => interruptEntry s .rst75
  | .rst65 => interruptEntry s .rst65
  | .rst55 => interruptEntry s .rst55

/-! ## Reset (R310) -/

/-- The registers after the reset that is draw `n`: free values (U1). -/
def regsAfterReset (n : Nat) : Regs where
  a := Config.resetReg n (regCode .a)
  b := Config.resetReg n (regCode .b)
  c := Config.resetReg n (regCode .c)
  d := Config.resetReg n (regCode .d)
  e := Config.resetReg n (regCode .e)
  h := Config.resetReg n (regCode .h)
  l := Config.resetReg n (regCode .l)

/-- The flags after the reset that is draw `n`: free values (U1). -/
def flagsAfterReset (n : Nat) : Flags where
  s  := Config.resetFlag n 7
  z  := Config.resetFlag n 6
  ac := Config.resetFlag n 4
  p  := Config.resetFlag n 2
  cy := Config.resetFlag n 0

/-- Reset of a running machine (R310): the control state and `pc` as R40 says, registers, flags and `sp` unspecified,
memory unchanged. -/
def performReset (s : State) : State :=
  let n := s.env.draws
  ((((((latchSod s false).drawn).setRegs (regsAfterReset n)).setFlags (flagsAfterReset n)).setSp
    (Config.resetSp n)).setPc s.params.resetPc).setCtl Control.afterReset

/-! ## The environment's clock, `ei_shadow`, the fetch -/

/-- The inputs once they have been presented: levels stay, events are over. -/
def Inputs.held (i : Inputs) : Inputs :=
  { i with reset := false, trapRequest := false, rst75Request := false }

/-- What the environment presents at the step after this one (log entry 6). -/
def Env.tick (e : Env) : Env :=
  match e.script with
  | [] => { e with inputs := e.inputs.held }
  | i :: rest => { e with inputs := i, script := rest }

/-- The step is over: the environment moves on. -/
def State.tick (s : State) : State := s.setEnv s.env.tick

/-- Is this EI? -/
def isEi : Instr → Bool
  | .ei => true
  | _ => false

/-- Step 6 of R270, `i` the instruction just executed. -/
def updateShadow (i : Instr) (s : State) : State :=
  if s.params.eiDelay then s.setCtl { s.ctl with eiShadow := isEi i } else s

/-- Step 5 of R270, the fetch: the opcode at `pc`, then the operand bytes its length requires, in ascending address
order (R62, R84). -/
def fetchInstr (s : State) : Result Instr :=
  andThen (fetchByte s s.pc) fun op =>
    match opcodeLength op with
    | 1 => .next (decodeInstr op 0 0)
    | 2 => andThen (fetchByte s (s.pc + 1)) fun b2 => .next (decodeInstr op b2 0)
    | _ =>
      andThen (fetchByte s (s.pc + 1)) fun b2 =>
        andThen (fetchByte s (s.pc + 2)) fun b3 => .next (decodeInstr op b2 b3)

/-! ## Placing one instruction for the next step -/

/-- `MEM_MAP` with the address made RAM where it was absent, and unchanged elsewhere. -/
def admitAddress (m : List Region) (a : Word) : List Region :=
  match kindIn m a with
  | .absent => { first := a, last := a, kind := .ram } :: m
  | .ram => m
  | .rom => m

/-- A byte put into memory from outside the machine, whatever `MEM_MAP` says of the address. -/
def State.place (s : State) (a : Word) (b : Byte) : State :=
  { s with
    mem    := Memory.store s.mem a.toNat b
    params := { s.params with memMap := admitAddress s.params.memMap a } }

/-- Nothing keeps the next step from fetching: not halted, no reset, no TRAP request, no script, and, if a maskable
interrupt would be recognised, recognition held off for that one step as after an EI. -/
def State.readyToFetch (s : State) : State :=
  let s1 := (s.setCtl { s.ctl with halted := false, trapReq := false }).setEnv
    { s.env with inputs := { s.env.inputs with reset := false, trapRequest := false } }
  match (sampleInterrupts s1).pendingInterrupt with
  | none => s1
  | some _ => s1.setCtl { s1.ctl with eiShadow := true }

end Sys2Proof.Machine
end

