-- ==== Sys2Proof/Machine/Flags.lean ====
section
/-! DEFINITION. Every flag computation of the spec: set_ZSP (R140), the addition and subtraction laws (R141, R142), the
logical law (R170), INR and DCR (R152, R153), DAD (R156), DAA (R157), the rotates (R179 to R182), the flag byte (R25)
and the conditions (R200). -/

namespace Sys2Proof.Machine

/-- An 8-bit result with its carry and auxiliary carry. -/
structure AluOut where
  res : Byte
  cy  : Bool
  ac  : Bool
  deriving DecidableEq, Repr

/-- `parity_even(v)` (R10, R24): the number of 1 bits is even. -/
def parityEven (v : Byte) : Bool :=
  !(v.getLsbD 0 ^^ v.getLsbD 1 ^^ v.getLsbD 2 ^^ v.getLsbD 3 ^^ v.getLsbD 4 ^^ v.getLsbD 5 ^^ v.getLsbD 6 ^^ v.getLsbD 7)

/-- `set_ZSP(res)` (R140): Z, S and P from the result, AC and CY kept. -/
def Flags.setZSP (f : Flags) (res : Byte) : Flags :=
  { f with z := decide (res = 0x00#8), s := res.getLsbD 7, p := parityEven res }

/-- All five flags of an addition or subtraction (R144 to R151, R177, R178). -/
def AluOut.flags (o : AluOut) (f : Flags) : Flags := { f.setZSP o.res with cy := o.cy, ac := o.ac }

/-- The addition law (R141). -/
def add8 (a b : Byte) (cin : Bool) : AluOut :=
  let sum := a.toNat + b.toNat + cin.toNat
  { res := BitVec.ofNat 8 sum
    cy  := decide (255 < sum)
    ac  := decide (15 < a.toNat % 16 + b.toNat % 16 + cin.toNat) }

/-- The subtraction law (R142), `nibble0` being `AC_SUB_NIBBLE0`. -/
def sub8 (nibble0 : Bool) (a b : Byte) (bin : Bool) : AluOut :=
  let s := b.toNat + bin.toNat
  let t := (256 - s) % 256
  { res := BitVec.ofNat 8 (a.toNat + 256 - s)
    cy  := decide (a.toNat < s)
    ac  := if s % 16 = 0 ∧ bin = false then nibble0 else decide (15 < a.toNat % 16 + t % 16) }

/-- The flags of a logical instruction (R170): set_ZSP, CY 0, AC as the instruction says. -/
def Flags.logic (f : Flags) (res : Byte) (ac : Bool) : Flags := { f.setZSP res with cy := false, ac := ac }

/-- INR's result (R152). -/
def incResult (v : Byte) : Byte := BitVec.ofNat 8 (v.toNat + 1)

/-- INR's flags (R152): CY kept. -/
def Flags.inc (f : Flags) (v : Byte) : Flags :=
  { f.setZSP (incResult v) with ac := decide (v.toNat % 16 = 15) }

/-- DCR's result (R153). -/
def decResult (v : Byte) : Byte := BitVec.ofNat 8 (v.toNat + 255)

/-- DCR's flags (R153): CY kept. -/
def Flags.dec (f : Flags) (v : Byte) : Flags :=
  { f.setZSP (decResult v) with ac := decide (v.toNat % 16 ≠ 0) }

/-- DAD's sum modulo 65536 (R156). -/
def dadSum (hl v : Word) : Word := BitVec.ofNat 16 (hl.toNat + v.toNat)

/-- DAD's carry out of bit 15 (R156). -/
def dadCarry (hl v : Word) : Bool := decide (65535 < hl.toNat + v.toNat)

/-- DAA (R157): the low-order step, then the high-order step on its value. -/
def daa8 (a : Byte) (acIn cyIn : Bool) : AluOut :=
  let low := decide (9 < a.toNat % 16) || acIn
  let s1 := if low then a.toNat + 6 else a.toNat
  let acOut := low && decide (15 < a.toNat % 16 + 6)
  let a1 := s1 % 256
  let c1 := decide (255 < s1)
  let high := decide (9 < a1 / 16) || cyIn || c1
  { res := BitVec.ofNat 8 (if high then a1 + 96 else a1)
    cy  := high
    ac  := acOut }

/-- RLC (R179): the rotated byte. -/
def rotLeft (a : Byte) : Byte := a.extractLsb' 0 7 ++ a.extractLsb' 7 1

/-- RRC (R180): the rotated byte. -/
def rotRight (a : Byte) : Byte := a.extractLsb' 0 1 ++ a.extractLsb' 1 7

/-- RAL (R181): the rotated byte, the old carry in bit D0. -/
def rotLeftThrough (a : Byte) (cy : Bool) : Byte := a.extractLsb' 0 7 ++ BitVec.ofBool cy

/-- RAR (R182): the rotated byte, the old carry in bit D7. -/
def rotRightThrough (a : Byte) (cy : Bool) : Byte := BitVec.ofBool cy ++ a.extractLsb' 1 7

/-- The flags with this carry, the others kept. -/
def Flags.setCy (f : Flags) (b : Bool) : Flags := { f with cy := b }

/-- `flagbyte()` (R25, D1): S Z f5 AC f3 P f1 CY, with `fill` = f5 f3 f1. -/
def flagByte (f : Flags) (fill : BitVec 3) : Byte :=
  BitVec.ofBool f.s ++ BitVec.ofBool f.z ++ BitVec.ofBool (fill.getLsbD 2) ++ BitVec.ofBool f.ac ++
    BitVec.ofBool (fill.getLsbD 1) ++ BitVec.ofBool f.p ++ BitVec.ofBool (fill.getLsbD 0) ++ BitVec.ofBool f.cy

/-- The five flags POP PSW loads from a byte (R241); bits 5, 3, 1 are discarded. -/
def flagsOfByte (v : Byte) : Flags where
  s  := v.getLsbD 7
  z  := v.getLsbD 6
  ac := v.getLsbD 4
  p  := v.getLsbD 2
  cy := v.getLsbD 0

/-- `cond(ccc)` (R200). -/
def condHolds (f : Flags) : Cond → Bool
  | .nz => !f.z
  | .z => f.z
  | .nc => !f.cy
  | .c => f.cy
  | .po => !f.p
  | .pe => f.p
  | .p => !f.s
  | .m => f.s

end Sys2Proof.Machine
end

