-- ==== Sys2Proof/Machine/Operands.lean ====
section
/-! DEFINITION. Every operand form of the spec (R91, R92) and the operations the meanings of a family share. -/

namespace Sys2Proof.Machine

/-! ## Pairs -/

/-- The pair of LDAX and STAX as an address (R23, R119). -/
def State.pairX (s : State) : PairX → Word
  | .bc => s.bc
  | .de => s.de

/-- The pair of LXI, INX, DCX, DAD (R23). -/
def State.pairSP (s : State) : PairSP → Word
  | .bc => s.bc
  | .de => s.de
  | .hl => s.hl
  | .sp => s.sp

/-- Writes the pair of LXI, INX, DCX (R23). -/
def State.setPairSP (s : State) (p : PairSP) (v : Word) : State :=
  match p with
  | .bc => s.setBc v
  | .de => s.setDe v
  | .hl => s.setHl v
  | .sp => s.setSp v

/-! ## The operand M (R22) -/

/-- Runs `f` on the byte at HL. -/
def withM (s : State) (f : Byte → Result State) : Result State := andThen (memRead s s.hl) f

/-! ## Arithmetic and logic on A -/

/-- A and all flags from an addition (R144 to R147). -/
def State.addToA (s : State) (v : Byte) (cin : Bool) : State :=
  (s.setReg .a (add8 s.regs.a v cin).res).setFlags ((add8 s.regs.a v cin).flags s.flags)

/-- The subtraction law on A with the platform's `AC_SUB_NIBBLE0` (R142). -/
def State.subOut (s : State) (v : Byte) (bin : Bool) : AluOut := sub8 s.params.acSubNibble0 s.regs.a v bin

/-- A and all flags from a subtraction (R148 to R151). -/
def State.subFromA (s : State) (v : Byte) (bin : Bool) : State :=
  (s.setReg .a (s.subOut v bin).res).setFlags ((s.subOut v bin).flags s.flags)

/-- All flags from a comparison; A is kept (R177, R178). -/
def State.compareA (s : State) (v : Byte) : State := s.setFlags ((s.subOut v false).flags s.flags)

/-- A and the flags from a logical result, AC as said (R170). -/
def State.logicToA (s : State) (res : Byte) (ac : Bool) : State :=
  (s.setReg .a res).setFlags (s.flags.logic res ac)

/-- A and CY from a rotate (R179 to R182). -/
def State.rotateA (s : State) (res : Byte) (cy : Bool) : State :=
  (s.setReg .a res).setFlags (s.flags.setCy cy)

/-! ## Branches -/

/-- Jumps when the condition holds, else goes on after the 3-byte instruction (R203). -/
def jumpIf (s : State) (cc : Cond) (target : Word) : Result State :=
  if condHolds s.flags cc then .next (s.setPc target) else .next (s.advance 3)

/-- Calls when the condition holds, else goes on after the 3-byte instruction (R212). -/
def callIf (s : State) (cc : Cond) (target : Word) : Result State :=
  if condHolds s.flags cc then callTo s (s.nextPc 3) target else .next (s.advance 3)

/-- Returns when the condition holds, else goes on after the 1-byte instruction (R221). -/
def returnIf (s : State) (cc : Cond) : Result State :=
  if condHolds s.flags cc then returnToCaller s else .next (s.advance 1)

/-! ## Stack operands -/

/-- The three bits PUSH PSW writes beside the flags: the platform's, or a fresh draw (R25, D2). -/
def State.pswFillBits (s : State) : BitVec 3 := s.params.pswFill.getD (Config.pswFill s.env.draws)

/-- The state once `pswFillBits` is used: a draw counts. -/
def State.afterFill (s : State) : State := if s.params.pswFill = none then s.drawn else s

/-- PUSH's high-order byte and low-order byte (R240). -/
def State.pushPair (s : State) : PairPSW → Byte × Byte
  | .bc => (s.regs.b, s.regs.c)
  | .de => (s.regs.d, s.regs.e)
  | .hl => (s.regs.h, s.regs.l)
  | .psw => (s.regs.a, flagByte s.flags s.pswFillBits)

/-- What POP does with the popped bytes (R241). -/
def State.popPair (s : State) (p : PairPSW) (hi lo : Byte) : State :=
  match p with
  | .bc => s.setRegs { s.regs with b := hi, c := lo }
  | .de => s.setRegs { s.regs with d := hi, e := lo }
  | .hl => s.setRegs { s.regs with h := hi, l := lo }
  | .psw => (s.setReg .a hi).setFlags (flagsOfByte lo)

/-! ## RIM's byte -/

/-- The byte RIM loads, D7 to D0: SID, R75, the two request lines, IE, the masks (R36, R257, D16). The lines are at the
one level the step presents, the level already sampled: DESIGN CHOICE (unsafe), log entry 16. -/
def State.rimByte (s : State) (sid : Bool) : Byte :=
  BitVec.ofBool sid ++ BitVec.ofBool s.ctl.r75 ++ BitVec.ofBool s.env.inputs.line65 ++
    BitVec.ofBool s.env.inputs.line55 ++ BitVec.ofBool s.ctl.ie ++ BitVec.ofBool s.ctl.m75 ++
    BitVec.ofBool s.ctl.m65 ++ BitVec.ofBool s.ctl.m55

/-! ## No instruction -/

/-- `raise IllegalOpcode(opcode)` (R96, R285). -/
def raiseIllegalOpcode (s : State) (opcode : Byte) : Result State := .fault (.illegalOpcode opcode s.pc)

end Sys2Proof.Machine
end

