-- ==== Sys2Proof/Machine/Arithmetic.lean ====
section
/-! DEFINITION. The meanings of the arithmetic instructions (41_arithmetic.md). -/

namespace Sys2Proof.Machine

/-- `ADD R` (R144). -/
def execAddR (r : Reg) (s : State) : Result State := .next ((s.addToA (s.reg r) false).advance 1)

/-- `ADD M` (R144). -/
def execAddM (s : State) : Result State := withM s fun v => .next ((s.addToA v false).advance 1)

/-- `ADC R` (R145). -/
def execAdcR (r : Reg) (s : State) : Result State := .next ((s.addToA (s.reg r) s.flags.cy).advance 1)

/-- `ADC M` (R145). -/
def execAdcM (s : State) : Result State := withM s fun v => .next ((s.addToA v s.flags.cy).advance 1)

/-- `ADI data8` (R146). -/
def execAdi (v : Byte) (s : State) : Result State := .next ((s.addToA v false).advance 2)

/-- `ACI data8` (R147). -/
def execAci (v : Byte) (s : State) : Result State := .next ((s.addToA v s.flags.cy).advance 2)

/-- `SUB R` (R148). -/
def execSubR (r : Reg) (s : State) : Result State := .next ((s.subFromA (s.reg r) false).advance 1)

/-- `SUB M` (R148). -/
def execSubM (s : State) : Result State := withM s fun v => .next ((s.subFromA v false).advance 1)

/-- `SBB R` (R149). -/
def execSbbR (r : Reg) (s : State) : Result State := .next ((s.subFromA (s.reg r) s.flags.cy).advance 1)

/-- `SBB M` (R149). -/
def execSbbM (s : State) : Result State := withM s fun v => .next ((s.subFromA v s.flags.cy).advance 1)

/-- `SUI data8` (R150). -/
def execSui (v : Byte) (s : State) : Result State := .next ((s.subFromA v false).advance 2)

/-- `SBI data8` (R151). -/
def execSbi (v : Byte) (s : State) : Result State := .next ((s.subFromA v s.flags.cy).advance 2)

/-- `INR R` (R152). -/
def execInrR (r : Reg) (s : State) : Result State :=
  .next (((s.setReg r (incResult (s.reg r))).setFlags (s.flags.inc (s.reg r))).advance 1)

/-- `INR M` (R152): a read, then a write of the same address. -/
def execInrM (s : State) : Result State :=
  withM s fun v =>
    andThen (memWrite s s.hl (incResult v)) fun s1 => .next ((s1.setFlags (s.flags.inc v)).advance 1)

/-- `DCR R` (R153). -/
def execDcrR (r : Reg) (s : State) : Result State :=
  .next (((s.setReg r (decResult (s.reg r))).setFlags (s.flags.dec (s.reg r))).advance 1)

/-- `DCR M` (R153): a read, then a write of the same address. -/
def execDcrM (s : State) : Result State :=
  withM s fun v =>
    andThen (memWrite s s.hl (decResult v)) fun s1 => .next ((s1.setFlags (s.flags.dec v)).advance 1)

/-- `INX rp` (R154): no flag. -/
def execInx (p : PairSP) (s : State) : Result State := .next ((s.setPairSP p (s.pairSP p + 1)).advance 1)

/-- `DCX rp` (R155): no flag. -/
def execDcx (p : PairSP) (s : State) : Result State := .next ((s.setPairSP p (s.pairSP p - 1)).advance 1)

/-- `DAD rp` (R156): CY is written in both directions (D5). -/
def execDad (p : PairSP) (s : State) : Result State :=
  .next (((s.setHl (dadSum s.hl (s.pairSP p))).setFlags (s.flags.setCy (dadCarry s.hl (s.pairSP p)))).advance 1)

/-- `DAA` (R157). -/
def execDaa (s : State) : Result State :=
  let o := daa8 s.regs.a s.flags.ac s.flags.cy
  .next (((s.setReg .a o.res).setFlags (o.flags s.flags)).advance 1)

end Sys2Proof.Machine
end

