-- ==== Sys2Proof/Machine/Branch.lean ====
section
/-! DEFINITION. The meanings of the branch instructions (43_branch.md), and of the ten opcode values with no
instruction (30_encoding.md R96). -/

namespace Sys2Proof.Machine

/-- `JMP addr16` (R202). -/
def execJmp (a : Word) (s : State) : Result State := .next (s.setPc a)

/-- `JNZ addr16`, jump on no zero (R203). -/
def execJnz (a : Word) (s : State) : Result State := jumpIf s .nz a

/-- `JZ addr16`, jump on zero (R204). -/
def execJz (a : Word) (s : State) : Result State := jumpIf s .z a

/-- `JNC addr16`, jump on no carry (R205). -/
def execJnc (a : Word) (s : State) : Result State := jumpIf s .nc a

/-- `JC addr16`, jump on carry (R206). -/
def execJc (a : Word) (s : State) : Result State := jumpIf s .c a

/-- `JPO addr16`, jump on parity odd (R207). -/
def execJpo (a : Word) (s : State) : Result State := jumpIf s .po a

/-- `JPE addr16`, jump on parity even (R208). -/
def execJpe (a : Word) (s : State) : Result State := jumpIf s .pe a

/-- `JP addr16`, jump on positive (R209). -/
def execJp (a : Word) (s : State) : Result State := jumpIf s .p a

/-- `JM addr16`, jump on minus (R210). -/
def execJm (a : Word) (s : State) : Result State := jumpIf s .m a

/-- `CALL addr16` (R211): the address after the 3-byte instruction is pushed. -/
def execCall (a : Word) (s : State) : Result State := callTo s (s.nextPc 3) a

/-- `CNZ addr16`, call on no zero (R212). -/
def execCnz (a : Word) (s : State) : Result State := callIf s .nz a

/-- `CZ addr16`, call on zero (R213). -/
def execCz (a : Word) (s : State) : Result State := callIf s .z a

/-- `CNC addr16`, call on no carry (R214). -/
def execCnc (a : Word) (s : State) : Result State := callIf s .nc a

/-- `CC addr16`, call on carry (R215). -/
def execCc (a : Word) (s : State) : Result State := callIf s .c a

/-- `CPO addr16`, call on parity odd (R216). -/
def execCpo (a : Word) (s : State) : Result State := callIf s .po a

/-- `CPE addr16`, call on parity even (R217). -/
def execCpe (a : Word) (s : State) : Result State := callIf s .pe a

/-- `CP addr16`, call on positive (R218). -/
def execCp (a : Word) (s : State) : Result State := callIf s .p a

/-- `CM addr16`, call on minus (R219). -/
def execCm (a : Word) (s : State) : Result State := callIf s .m a

/-- `RET` (R220). -/
def execRet (s : State) : Result State := returnToCaller s

/-- `RNZ`, return on no zero (R221). -/
def execRnz (s : State) : Result State := returnIf s .nz

/-- `RZ`, return on zero (R222). -/
def execRz (s : State) : Result State := returnIf s .z

/-- `RNC`, return on no carry (R223). -/
def execRnc (s : State) : Result State := returnIf s .nc

/-- `RC`, return on carry (R224). -/
def execRc (s : State) : Result State := returnIf s .c

/-- `RPO`, return on parity odd (R225). -/
def execRpo (s : State) : Result State := returnIf s .po

/-- `RPE`, return on parity even (R226). -/
def execRpe (s : State) : Result State := returnIf s .pe

/-- `RP`, return on positive (R227). -/
def execRp (s : State) : Result State := returnIf s .p

/-- `RM`, return on minus (R228). -/
def execRm (s : State) : Result State := returnIf s .m

/-- `RST n` (R229): a one-byte call to `8 * n`. -/
def execRst (n : BitVec 3) (s : State) : Result State := callTo s (s.nextPc 1) (rstAddress n)

/-- `PCHL` (R230). -/
def execPchl (s : State) : Result State := .next (s.setPc s.hl)

/-- The opcode 08H has no instruction (R96, R285). -/
def execUnassigned08 (s : State) : Result State := raiseIllegalOpcode s 0x08#8

/-- The opcode 10H has no instruction (R96, R285). -/
def execUnassigned10 (s : State) : Result State := raiseIllegalOpcode s 0x10#8

/-- The opcode 18H has no instruction (R96, R285). -/
def execUnassigned18 (s : State) : Result State := raiseIllegalOpcode s 0x18#8

/-- The opcode 28H has no instruction (R96, R285). -/
def execUnassigned28 (s : State) : Result State := raiseIllegalOpcode s 0x28#8

/-- The opcode 38H has no instruction (R96, R285). -/
def execUnassigned38 (s : State) : Result State := raiseIllegalOpcode s 0x38#8

/-- The opcode CBH has no instruction (R96, R285). -/
def execUnassignedCB (s : State) : Result State := raiseIllegalOpcode s 0xCB#8

/-- The opcode D9H has no instruction (R96, R285). -/
def execUnassignedD9 (s : State) : Result State := raiseIllegalOpcode s 0xD9#8

/-- The opcode DDH has no instruction (R96, R285). -/
def execUnassignedDD (s : State) : Result State := raiseIllegalOpcode s 0xDD#8

/-- The opcode EDH has no instruction (R96, R285). -/
def execUnassignedED (s : State) : Result State := raiseIllegalOpcode s 0xED#8

/-- The opcode FDH has no instruction (R96, R285). -/
def execUnassignedFD (s : State) : Result State := raiseIllegalOpcode s 0xFD#8

end Sys2Proof.Machine
end

