-- ==== Sys2Proof/Machine/DataTransfer.lean ====
section
/-! DEFINITION. The meanings of the data transfer instructions (40_data_transfer.md). No flag is read or written. -/

namespace Sys2Proof.Machine

/-- `MOV Rd,Rs` (R111). -/
def execMovRR (dst src : Reg) (s : State) : Result State := .next ((s.setReg dst (s.reg src)).advance 1)

/-- `MOV Rd,M` (R112): HL is read before the register is written. -/
def execMovRM (dst : Reg) (s : State) : Result State := withM s fun v => .next ((s.setReg dst v).advance 1)

/-- `MOV M,Rs` (R113). -/
def execMovMR (src : Reg) (s : State) : Result State :=
  andThen (memWrite s s.hl (s.reg src)) fun s1 => .next (s1.advance 1)

/-- `MVI Rd,data8` (R114). -/
def execMviR (r : Reg) (v : Byte) (s : State) : Result State := .next ((s.setReg r v).advance 2)

/-- `MVI M,data8` (R115). -/
def execMviM (v : Byte) (s : State) : Result State :=
  andThen (memWrite s s.hl v) fun s1 => .next (s1.advance 2)

/-- `LXI rp,data16` (R116). -/
def execLxi (p : PairSP) (v : Word) (s : State) : Result State := .next ((s.setPairSP p v).advance 3)

/-- `LDA addr16` (R117). -/
def execLda (a : Word) (s : State) : Result State :=
  andThen (memRead s a) fun v => .next ((s.setReg .a v).advance 3)

/-- `STA addr16` (R118). -/
def execSta (a : Word) (s : State) : Result State :=
  andThen (memWrite s a s.regs.a) fun s1 => .next (s1.advance 3)

/-- `LDAX rp` (R119). -/
def execLdax (p : PairX) (s : State) : Result State :=
  andThen (memRead s (s.pairX p)) fun v => .next ((s.setReg .a v).advance 1)

/-- `STAX rp` (R120). -/
def execStax (p : PairX) (s : State) : Result State :=
  andThen (memWrite s (s.pairX p) s.regs.a) fun s1 => .next (s1.advance 1)

/-- `LHLD addr16` (R121): L from the address, H from the next address, modulo 65536. -/
def execLhld (a : Word) (s : State) : Result State :=
  andThen (memRead s a) fun lo =>
    andThen (memRead s (a + 1)) fun hi =>
      .next (((s.setReg .l lo).setReg .h hi).advance 3)

/-- `SHLD addr16` (R122): L to the address, then H to the next address, modulo 65536. -/
def execShld (a : Word) (s : State) : Result State :=
  andThen (memWrite s a s.regs.l) fun s1 =>
    andThen (memWrite s1 (a + 1) s.regs.h) fun s2 => .next (s2.advance 3)

/-- `XCHG` (R123). -/
def execXchg (s : State) : Result State :=
  .next ((s.setRegs { s.regs with h := s.regs.d, l := s.regs.e, d := s.regs.h, e := s.regs.l }).advance 1)

end Sys2Proof.Machine
end

