-- ==== Sys2Proof/Machine/Logical.lean ====
section
/-! DEFINITION. The meanings of the logical, compare, rotate and complement instructions (42_logical.md). -/

namespace Sys2Proof.Machine

/-- `ANA R` (R171): AC is set. -/
def execAnaR (r : Reg) (s : State) : Result State := .next ((s.logicToA (s.regs.a &&& s.reg r) true).advance 1)

/-- `ANA M` (R171). -/
def execAnaM (s : State) : Result State := withM s fun v => .next ((s.logicToA (s.regs.a &&& v) true).advance 1)

/-- `ANI data8` (R172). -/
def execAni (v : Byte) (s : State) : Result State := .next ((s.logicToA (s.regs.a &&& v) true).advance 2)

/-- `XRA R` (R173): AC is reset. -/
def execXraR (r : Reg) (s : State) : Result State := .next ((s.logicToA (s.regs.a ^^^ s.reg r) false).advance 1)

/-- `XRA M` (R173). -/
def execXraM (s : State) : Result State := withM s fun v => .next ((s.logicToA (s.regs.a ^^^ v) false).advance 1)

/-- `XRI data8` (R174). -/
def execXri (v : Byte) (s : State) : Result State := .next ((s.logicToA (s.regs.a ^^^ v) false).advance 2)

/-- `ORA R` (R175): AC is reset. -/
def execOraR (r : Reg) (s : State) : Result State := .next ((s.logicToA (s.regs.a ||| s.reg r) false).advance 1)

/-- `ORA M` (R175). -/
def execOraM (s : State) : Result State := withM s fun v => .next ((s.logicToA (s.regs.a ||| v) false).advance 1)

/-- `ORI data8` (R176). -/
def execOri (v : Byte) (s : State) : Result State := .next ((s.logicToA (s.regs.a ||| v) false).advance 2)

/-- `CMP R` (R177): A is kept. -/
def execCmpR (r : Reg) (s : State) : Result State := .next ((s.compareA (s.reg r)).advance 1)

/-- `CMP M` (R177). -/
def execCmpM (s : State) : Result State := withM s fun v => .next ((s.compareA v).advance 1)

/-- `CPI data8` (R178). -/
def execCpi (v : Byte) (s : State) : Result State := .next ((s.compareA v).advance 2)

/-- `RLC` (R179). -/
def execRlc (s : State) : Result State := .next ((s.rotateA (rotLeft s.regs.a) (s.regs.a.getLsbD 7)).advance 1)

/-- `RRC` (R180). -/
def execRrc (s : State) : Result State := .next ((s.rotateA (rotRight s.regs.a) (s.regs.a.getLsbD 0)).advance 1)

/-- `RAL` (R181). -/
def execRal (s : State) : Result State :=
  .next ((s.rotateA (rotLeftThrough s.regs.a s.flags.cy) (s.regs.a.getLsbD 7)).advance 1)

/-- `RAR` (R182). -/
def execRar (s : State) : Result State :=
  .next ((s.rotateA (rotRightThrough s.regs.a s.flags.cy) (s.regs.a.getLsbD 0)).advance 1)

/-- `CMA` (R183): no flag. -/
def execCma (s : State) : Result State := .next ((s.setReg .a (~~~ s.regs.a)).advance 1)

/-- `CMC` (R184). -/
def execCmc (s : State) : Result State := .next ((s.setFlags (s.flags.setCy (!s.flags.cy))).advance 1)

/-- `STC` (R185). -/
def execStc (s : State) : Result State := .next ((s.setFlags (s.flags.setCy true)).advance 1)

end Sys2Proof.Machine
end

