-- ==== Sys2Proof/Machine/StackIo.lean ====
section
/-! DEFINITION. The meanings of the stack, input/output and machine control instructions (44_stack_io_control.md). -/

namespace Sys2Proof.Machine

/-- `PUSH rp` (R240). -/
def execPush (p : PairPSW) (s : State) : Result State :=
  andThen (pushBytes s (s.pushPair p).1 (s.pushPair p).2) fun s1 =>
    .next ((if p = .psw then s1.afterFill else s1).advance 1)

/-- `POP rp` (R241). -/
def execPop (p : PairPSW) (s : State) : Result State :=
  andThen (popBytes s) fun r => .next ((r.2.2.popPair p r.1 r.2.1).advance 1)

/-- `XTHL` (R242): both reads, then the write at `sp` + 1 from H, then the write at `sp` from L (D32). -/
def execXthl (s : State) : Result State :=
  andThen (memRead s s.sp) fun lo =>
    andThen (memRead s (s.sp + 1)) fun hi =>
      andThen (memWrite s (s.sp + 1) s.regs.h) fun s1 =>
        andThen (memWrite s1 s.sp s.regs.l) fun s2 =>
          .next (((s2.setReg .l lo).setReg .h hi).advance 1)

/-- `SPHL` (R243). -/
def execSphl (s : State) : Result State := .next ((s.setSp s.hl).advance 1)

/-- `IN port8` (R244). -/
def execInp (p : Byte) (s : State) : Result State :=
  .next (((ioRead s p).2.setReg .a (ioRead s p).1).advance 2)

/-- `OUT port8` (R245). -/
def execOut (p : Byte) (s : State) : Result State := .next ((ioWrite s p s.regs.a).advance 2)

/-- `EI` (R250): `ei_shadow` is set where `EI_DELAY` = 1. -/
def execEi (s : State) : Result State :=
  .next ((s.setCtl { s.ctl with ie := true, eiShadow := s.ctl.eiShadow || s.params.eiDelay }).advance 1)

/-- `DI` (R251). -/
def execDi (s : State) : Result State := .next ((s.setCtl { s.ctl with ie := false }).advance 1)

/-- `HLT` (R252): `pc` holds the address after the HLT. -/
def execHlt (s : State) : Result State := .next ((s.setCtl { s.ctl with halted := true }).advance 1)

/-- `NOP` (R253). -/
def execNop (s : State) : Result State := .next (s.advance 1)

/-- `RIM` (R257). -/
def execRim (s : State) : Result State :=
  .next (((sidRead s).2.setReg .a (s.rimByte (sidRead s).1)).advance 1)

/-- `SIM` (R258): three independent groups, D3 for the masks, D4 for `R75`, D6 for `SOD`; D5 is ignored. -/
def execSim (s : State) : Result State :=
  let a := s.regs.a
  let mse := a.getLsbD 3
  let s1 := s.setCtl { s.ctl with
    m75 := if mse then a.getLsbD 2 else s.ctl.m75
    m65 := if mse then a.getLsbD 1 else s.ctl.m65
    m55 := if mse then a.getLsbD 0 else s.ctl.m55
    r75 := s.ctl.r75 && !a.getLsbD 4 }
  let s2 := if a.getLsbD 6 then latchSod s1 (a.getLsbD 7) else s1
  .next (s2.advance 1)

end Sys2Proof.Machine
end

