-- ==== Sys2Proof/Machine/Dispatch.lean ====
section
/-! DEFINITION. The dispatch: one arm per constructor of Instr, in the opcode table's order. -/

namespace Sys2Proof.Machine

def exec (i : Instr) (s : State) : Host.Outcome State Fault Refusal :=
  match i with
  | .nop => Sys2Proof.Machine.execNop s
  | .lxi p v => Sys2Proof.Machine.execLxi p v s
  | .stax p => Sys2Proof.Machine.execStax p s
  | .ldax p => Sys2Proof.Machine.execLdax p s
  | .shld a => Sys2Proof.Machine.execShld a s
  | .lhld a => Sys2Proof.Machine.execLhld a s
  | .sta a => Sys2Proof.Machine.execSta a s
  | .lda a => Sys2Proof.Machine.execLda a s
  | .inx p => Sys2Proof.Machine.execInx p s
  | .dcx p => Sys2Proof.Machine.execDcx p s
  | .dad p => Sys2Proof.Machine.execDad p s
  | .inrR r => Sys2Proof.Machine.execInrR r s
  | .inrM => Sys2Proof.Machine.execInrM s
  | .dcrR r => Sys2Proof.Machine.execDcrR r s
  | .dcrM => Sys2Proof.Machine.execDcrM s
  | .mviR r v => Sys2Proof.Machine.execMviR r v s
  | .mviM v => Sys2Proof.Machine.execMviM v s
  | .rlc => Sys2Proof.Machine.execRlc s
  | .rrc => Sys2Proof.Machine.execRrc s
  | .ral => Sys2Proof.Machine.execRal s
  | .rar => Sys2Proof.Machine.execRar s
  | .daa => Sys2Proof.Machine.execDaa s
  | .cma => Sys2Proof.Machine.execCma s
  | .stc => Sys2Proof.Machine.execStc s
  | .cmc => Sys2Proof.Machine.execCmc s
  | .rim => Sys2Proof.Machine.execRim s
  | .sim => Sys2Proof.Machine.execSim s
  | .movRR dst src => Sys2Proof.Machine.execMovRR dst src s
  | .movRM dst => Sys2Proof.Machine.execMovRM dst s
  | .movMR src => Sys2Proof.Machine.execMovMR src s
  | .hlt => Sys2Proof.Machine.execHlt s
  | .addR r => Sys2Proof.Machine.execAddR r s
  | .addM => Sys2Proof.Machine.execAddM s
  | .adcR r => Sys2Proof.Machine.execAdcR r s
  | .adcM => Sys2Proof.Machine.execAdcM s
  | .subR r => Sys2Proof.Machine.execSubR r s
  | .subM => Sys2Proof.Machine.execSubM s
  | .sbbR r => Sys2Proof.Machine.execSbbR r s
  | .sbbM => Sys2Proof.Machine.execSbbM s
  | .anaR r => Sys2Proof.Machine.execAnaR r s
  | .anaM => Sys2Proof.Machine.execAnaM s
  | .xraR r => Sys2Proof.Machine.execXraR r s
  | .xraM => Sys2Proof.Machine.execXraM s
  | .oraR r => Sys2Proof.Machine.execOraR r s
  | .oraM => Sys2Proof.Machine.execOraM s
  | .cmpR r => Sys2Proof.Machine.execCmpR r s
  | .cmpM => Sys2Proof.Machine.execCmpM s
  | .rnz => Sys2Proof.Machine.execRnz s
  | .rz => Sys2Proof.Machine.execRz s
  | .rnc => Sys2Proof.Machine.execRnc s
  | .rc => Sys2Proof.Machine.execRc s
  | .rpo => Sys2Proof.Machine.execRpo s
  | .rpe => Sys2Proof.Machine.execRpe s
  | .rp => Sys2Proof.Machine.execRp s
  | .rm => Sys2Proof.Machine.execRm s
  | .pop p => Sys2Proof.Machine.execPop p s
  | .ret => Sys2Proof.Machine.execRet s
  | .pchl => Sys2Proof.Machine.execPchl s
  | .sphl => Sys2Proof.Machine.execSphl s
  | .jnz a => Sys2Proof.Machine.execJnz a s
  | .jz a => Sys2Proof.Machine.execJz a s
  | .jnc a => Sys2Proof.Machine.execJnc a s
  | .jc a => Sys2Proof.Machine.execJc a s
  | .jpo a => Sys2Proof.Machine.execJpo a s
  | .jpe a => Sys2Proof.Machine.execJpe a s
  | .jp a => Sys2Proof.Machine.execJp a s
  | .jm a => Sys2Proof.Machine.execJm a s
  | .jmp a => Sys2Proof.Machine.execJmp a s
  | .out p => Sys2Proof.Machine.execOut p s
  | .inp p => Sys2Proof.Machine.execInp p s
  | .xthl => Sys2Proof.Machine.execXthl s
  | .xchg => Sys2Proof.Machine.execXchg s
  | .di => Sys2Proof.Machine.execDi s
  | .ei => Sys2Proof.Machine.execEi s
  | .cnz a => Sys2Proof.Machine.execCnz a s
  | .cz a => Sys2Proof.Machine.execCz a s
  | .cnc a => Sys2Proof.Machine.execCnc a s
  | .cc a => Sys2Proof.Machine.execCc a s
  | .cpo a => Sys2Proof.Machine.execCpo a s
  | .cpe a => Sys2Proof.Machine.execCpe a s
  | .cp a => Sys2Proof.Machine.execCp a s
  | .cm a => Sys2Proof.Machine.execCm a s
  | .push p => Sys2Proof.Machine.execPush p s
  | .call a => Sys2Proof.Machine.execCall a s
  | .adi v => Sys2Proof.Machine.execAdi v s
  | .aci v => Sys2Proof.Machine.execAci v s
  | .sui v => Sys2Proof.Machine.execSui v s
  | .sbi v => Sys2Proof.Machine.execSbi v s
  | .ani v => Sys2Proof.Machine.execAni v s
  | .xri v => Sys2Proof.Machine.execXri v s
  | .ori v => Sys2Proof.Machine.execOri v s
  | .cpi v => Sys2Proof.Machine.execCpi v s
  | .rst n => Sys2Proof.Machine.execRst n s
  | .unassigned08 => Sys2Proof.Machine.execUnassigned08 s
  | .unassigned10 => Sys2Proof.Machine.execUnassigned10 s
  | .unassigned18 => Sys2Proof.Machine.execUnassigned18 s
  | .unassigned28 => Sys2Proof.Machine.execUnassigned28 s
  | .unassigned38 => Sys2Proof.Machine.execUnassigned38 s
  | .unassignedCB => Sys2Proof.Machine.execUnassignedCB s
  | .unassignedD9 => Sys2Proof.Machine.execUnassignedD9 s
  | .unassignedDD => Sys2Proof.Machine.execUnassignedDD s
  | .unassignedED => Sys2Proof.Machine.execUnassignedED s
  | .unassignedFD => Sys2Proof.Machine.execUnassignedFD s

end Sys2Proof.Machine
end

