-- ==== Sys2Proof/Machine/Step.lean ====
section
/-! DEFINITION. One step of the machine (R270), and one instruction placed where the next step fetches. -/

namespace Sys2Proof.Machine

/-- Steps 5 and 6 of R270: fetch, execute, update `ei_shadow`; then the environment moves on. -/
def runInstruction (s : State) : Host.Outcome State Fault Refusal :=
  andThen (fetchInstr s) fun i =>
    andThen (exec i s) fun t => .next (updateShadow i t).tick

/-- Steps 3 to 6 of R270, on a state whose inputs are sampled. -/
def stepSampled (s : State) : Host.Outcome State Fault Refusal :=
  match s.pendingInterrupt with
  | some src => andThen (takeInterrupt s src) fun t => .next t.tick
  | none => if s.ctl.halted then .next s.tick else runInstruction s

/-- One step (R270): reset if asserted; else sample; take the interrupt of highest priority; stay halted; or fetch and
execute one instruction. -/
def step (s : State) : Host.Outcome State Fault Refusal :=
  if s.env.inputs.reset then .next (performReset s).tick else stepSampled (sampleInterrupts s)

/-- `s` with the instruction whose bits are `w` (the first byte in bits 7..0, every bit above `nbits` 0) at `pc`, and
nothing in the way of its fetch: the load of a program from outside the machine (R313, log entry 10). -/
def State.withFetchWord (s : State) (nbits w : Nat) : State :=
  let v := w % 2 ^ nbits
  (((s.readyToFetch.place s.pc (BitVec.ofNat 8 v)).place (s.pc + 1) (BitVec.ofNat 8 (v / 2 ^ 8))).place (s.pc + 2)
    (BitVec.ofNat 8 (v / 2 ^ 16)))

end Sys2Proof.Machine
end

