-- ==== Sys2Proof/Machine/Timing.lean ====
section
/-! DEFINITION. The timing table (R330): bytes, machine cycles and clock periods. No rule depends on it and the step
counts no time (D26, log entry 12). -/

namespace Sys2Proof.Machine

/-- Bytes, M-cycles and T-states of an instruction; `exact` is false where the spec says "or more" (HLT). -/
structure Timing where
  bytes   : Nat
  mCycles : Nat
  tStates : Nat
  exact   : Bool
  deriving DecidableEq, Repr

/-- An instruction that always takes this long. -/
def fixedTiming (bytes mCycles tStates : Nat) : Option Timing := some { bytes, mCycles, tStates, exact := true }

/-- A conditional jump with these flags. -/
def jumpTiming (f : Flags) (cc : Cond) : Option Timing := if condHolds f cc then fixedTiming 3 3 10 else fixedTiming 3 2 7

/-- A conditional call with these flags. -/
def callTiming (f : Flags) (cc : Cond) : Option Timing := if condHolds f cc then fixedTiming 3 5 18 else fixedTiming 3 2 9

/-- A conditional return with these flags. -/
def returnTiming (f : Flags) (cc : Cond) : Option Timing :=
  if condHolds f cc then fixedTiming 1 3 12 else fixedTiming 1 1 6

/-- The table; the flags decide the conditional rows. The ten unassigned opcodes have no row. -/
def timing (i : Instr) (f : Flags) : Option Timing :=
  match i with
  | .nop => fixedTiming 1 1 4
  | .lxi _ _ => fixedTiming 3 3 10
  | .stax _ => fixedTiming 1 2 7
  | .ldax _ => fixedTiming 1 2 7
  | .shld _ => fixedTiming 3 5 16
  | .lhld _ => fixedTiming 3 5 16
  | .sta _ => fixedTiming 3 4 13
  | .lda _ => fixedTiming 3 4 13
  | .inx _ => fixedTiming 1 1 6
  | .dcx _ => fixedTiming 1 1 6
  | .dad _ => fixedTiming 1 3 10
  | .inrR _ => fixedTiming 1 1 4
  | .inrM => fixedTiming 1 3 10
  | .dcrR _ => fixedTiming 1 1 4
  | .dcrM => fixedTiming 1 3 10
  | .mviR _ _ => fixedTiming 2 2 7
  | .mviM _ => fixedTiming 2 3 10
  | .rlc => fixedTiming 1 1 4
  | .rrc => fixedTiming 1 1 4
  | .ral => fixedTiming 1 1 4
  | .rar => fixedTiming 1 1 4
  | .daa => fixedTiming 1 1 4
  | .cma => fixedTiming 1 1 4
  | .stc => fixedTiming 1 1 4
  | .cmc => fixedTiming 1 1 4
  | .rim => fixedTiming 1 1 4
  | .sim => fixedTiming 1 1 4
  | .movRR _ _ => fixedTiming 1 1 4
  | .movRM _ => fixedTiming 1 2 7
  | .movMR _ => fixedTiming 1 2 7
  | .hlt => some { bytes := 1, mCycles := 2, tStates := 5, exact := false }
  | .addR _ => fixedTiming 1 1 4
  | .addM => fixedTiming 1 2 7
  | .adcR _ => fixedTiming 1 1 4
  | .adcM => fixedTiming 1 2 7
  | .subR _ => fixedTiming 1 1 4
  | .subM => fixedTiming 1 2 7
  | .sbbR _ => fixedTiming 1 1 4
  | .sbbM => fixedTiming 1 2 7
  | .anaR _ => fixedTiming 1 1 4
  | .anaM => fixedTiming 1 2 7
  | .xraR _ => fixedTiming 1 1 4
  | .xraM => fixedTiming 1 2 7
  | .oraR _ => fixedTiming 1 1 4
  | .oraM => fixedTiming 1 2 7
  | .cmpR _ => fixedTiming 1 1 4
  | .cmpM => fixedTiming 1 2 7
  | .rnz => returnTiming f .nz
  | .rz => returnTiming f .z
  | .rnc => returnTiming f .nc
  | .rc => returnTiming f .c
  | .rpo => returnTiming f .po
  | .rpe => returnTiming f .pe
  | .rp => returnTiming f .p
  | .rm => returnTiming f .m
  | .pop _ => fixedTiming 1 3 10
  | .ret => fixedTiming 1 3 10
  | .pchl => fixedTiming 1 1 6
  | .sphl => fixedTiming 1 1 6
  | .jnz _ => jumpTiming f .nz
  | .jz _ => jumpTiming f .z
  | .jnc _ => jumpTiming f .nc
  | .jc _ => jumpTiming f .c
  | .jpo _ => jumpTiming f .po
  | .jpe _ => jumpTiming f .pe
  | .jp _ => jumpTiming f .p
  | .jm _ => jumpTiming f .m
  | .jmp _ => fixedTiming 3 3 10
  | .out _ => fixedTiming 2 3 10
  | .inp _ => fixedTiming 2 3 10
  | .xthl => fixedTiming 1 5 16
  | .xchg => fixedTiming 1 1 4
  | .di => fixedTiming 1 1 4
  | .ei => fixedTiming 1 1 4
  | .cnz _ => callTiming f .nz
  | .cz _ => callTiming f .z
  | .cnc _ => callTiming f .nc
  | .cc _ => callTiming f .c
  | .cpo _ => callTiming f .po
  | .cpe _ => callTiming f .pe
  | .cp _ => callTiming f .p
  | .cm _ => callTiming f .m
  | .push _ => fixedTiming 1 3 12
  | .call _ => fixedTiming 3 5 18
  | .adi _ => fixedTiming 2 2 7
  | .aci _ => fixedTiming 2 2 7
  | .sui _ => fixedTiming 2 2 7
  | .sbi _ => fixedTiming 2 2 7
  | .ani _ => fixedTiming 2 2 7
  | .xri _ => fixedTiming 2 2 7
  | .ori _ => fixedTiming 2 2 7
  | .cpi _ => fixedTiming 2 2 7
  | .rst _ => fixedTiming 1 3 12
  | .unassigned08 => none
  | .unassigned10 => none
  | .unassigned18 => none
  | .unassigned28 => none
  | .unassigned38 => none
  | .unassignedCB => none
  | .unassignedD9 => none
  | .unassignedDD => none
  | .unassignedED => none
  | .unassignedFD => none

end Sys2Proof.Machine
end

