-- ==== Sys2Proof/Safety.lean ====
section
/-! DEFINITION. What a safe step and a safe run are, and how a run ends (R314), in the terms statements use. -/

namespace Sys2Proof

open Sys2Proof.Machine

/-- The step does not stop: neither a model fault nor a refusal. -/
def StepSafe (s : State) : Prop := ∃ t, step s = .next t

/-- `n` steps from `s` all complete. -/
def RunSafe (n : Nat) (s : State) : Prop := ∃ t, core.run n s = .next t

/-- The environment asserts nothing now and has nothing to present later (R314's assumption). -/
def QuietEnv (s : State) : Prop :=
  s.env.script = [] ∧ s.env.inputs.reset = false ∧ s.env.inputs.trapRequest = false ∧
    s.env.inputs.rst75Request = false

/-- The final state of a run (R314): halted, and no interrupt recognisable. -/
def FinalHalt (s : State) : Prop := s.ctl.halted = true ∧ (sampleInterrupts s).pendingInterrupt = none

/-- The address holds something: RAM or ROM, not absent (R54). -/
def Present (s : State) (a : Word) : Prop := s.kindAt a ≠ .absent

/-- What every reachable state keeps: memory in its canonical form, and `ei_shadow` set only right after an EI, so only
where `EI_DELAY` = 1, with interrupts enabled and the machine not halted (R38, R250, R270). -/
def Inv (s : State) : Prop :=
  Memory.wf s.mem = true ∧
    (s.ctl.eiShadow = true → s.params.eiDelay = true ∧ s.ctl.ie = true ∧ s.ctl.halted = false)

end Sys2Proof
end

