-- ==== Sys2Proof/Certificates/Slice0/Obligations.lean ====
section
/-! DEFINITION. The statements for the provers. The terms they share come first, under Sys2Proof.Says; then one
definition per obligation. -/

namespace Sys2Proof.Says

open Sys2Proof.Machine

/-! ## Frames -/

/-- Control state, environment and parameters are as before. -/
def RestKept (s t : State) : Prop := t.ctl = s.ctl ∧ t.env = s.env ∧ t.params = s.params

/-- Every byte of memory reads as before. -/
def MemKept (s t : State) : Prop := ∀ x : Word, t.byteAt x = s.byteAt x

/-- Every byte of memory outside the listed addresses reads as before. -/
def MemKeptBut (s t : State) (stored : List Word) : Prop := ∀ x : Word, x ∉ stored → t.byteAt x = s.byteAt x

/-- Every register outside the list is as before. -/
def RegsKeptBut (s t : State) (written : List Reg) : Prop := ∀ r : Reg, r ∉ written → t.reg r = s.reg r

/-- What an instruction that writes only the listed registers and perhaps flags and `pc` leaves alone. -/
def KeptBut (s t : State) (written : List Reg) : Prop :=
  RegsKeptBut s t written ∧ t.sp = s.sp ∧ MemKept s t ∧ RestKept s t

/-- Only `pc` may differ. -/
def OnlyPc (s t : State) : Prop := KeptBut s t [] ∧ t.flags = s.flags

/-- The address holds the byte written, or, in ROM, what it held (R54). -/
def Written (s t : State) (a : Word) (v : Byte) : Prop := t.byteAt a = if s.kindAt a = .rom then s.byteAt a else v

/-- The step or meaning stops because an access of this sort reached the absent address `a` (R54, R285). -/
def StopsAt (o : Result State) (a : Word) (acc : Access) : Prop := o = .fault (.unmappedAccess a acc)

/-! ## Forms -/

/-- The bytes of the instruction and its machine cycles and clock periods. -/
def Form (i : Instr) (bytes : List Byte) (mCycles tStates : Nat) : Prop :=
  encode i = bytes ∧ ∀ f, timing i f = some { bytes := bytes.length, mCycles, tStates, exact := true }

/-- The low-order byte of a word by arithmetic. -/
def low8 (v : Word) : Byte := BitVec.ofNat 8 (v.toNat % 256)

/-- The high-order byte of a word by arithmetic. -/
def high8 (v : Word) : Byte := BitVec.ofNat 8 (v.toNat / 256)

/-- A word from its high-order and low-order byte by arithmetic. -/
def word (hi lo : Byte) : Word := BitVec.ofNat 16 (hi.toNat * 256 + lo.toNat)

/-! ## Flags -/

/-- How many of the eight bits are 1. -/
def ones (v : Byte) : Nat := (List.range 8).countP fun k => v.getLsbD k

/-- Z, S and P reflect the result (R24, R140). -/
def ReflectsZSP (f : Flags) (res : Byte) : Prop :=
  (f.z = true ↔ res = 0) ∧ f.s = res.getLsbD 7 ∧ (f.p = true ↔ ones res % 2 = 0)

/-- S, Z, AC and P are as before. -/
def KeptButCy (f g : Flags) : Prop := g.s = f.s ∧ g.z = f.z ∧ g.ac = f.ac ∧ g.p = f.p

/-! ## Families -/

/-- `i`, of `n` bytes, completes with A and all flags from the sum of A, `v` and `cin` (R141). -/
def Adds (i : Instr) (n : Nat) (s : State) (v : Byte) (cin : Bool) : Prop :=
  ∃ t, exec i s = .next t ∧ t.regs.a.toNat = (s.regs.a.toNat + v.toNat + cin.toNat) % 256 ∧
    ReflectsZSP t.flags t.regs.a ∧ (t.flags.cy = true ↔ 256 ≤ s.regs.a.toNat + v.toNat + cin.toNat) ∧
    (t.flags.ac = true ↔ 16 ≤ s.regs.a.toNat % 16 + v.toNat % 16 + cin.toNat) ∧
    t.pc = s.pc + BitVec.ofNat 16 n ∧ KeptBut s t [.a]

/-- The flags of `a - (v + bin)` with the 8-bit result `res` (R142): CY is the borrow; AC is the carry out of bit D3 when
the two's complement of the subtrahend is added, and `AC_SUB_NIBBLE0` in the one case left to it. -/
def DifferenceFlags (p : Params) (f : Flags) (a v : Byte) (bin : Bool) (res : Byte) : Prop :=
  ReflectsZSP f res ∧ (f.cy = true ↔ a.toNat < v.toNat + bin.toNat) ∧
    (if v.toNat % 16 = 0 ∧ bin = false then f.ac = p.acSubNibble0
     else (f.ac = true ↔ 16 ≤ a.toNat % 16 + (16 - (v.toNat + bin.toNat) % 16) % 16))

/-- `i`, of `n` bytes, completes with A and all flags from A - (`v` + `bin`) (R142). -/
def Subtracts (i : Instr) (n : Nat) (s : State) (v : Byte) (bin : Bool) : Prop :=
  ∃ t, exec i s = .next t ∧ (t.regs.a.toNat + v.toNat + bin.toNat) % 256 = s.regs.a.toNat ∧
    DifferenceFlags s.params t.flags s.regs.a v bin t.regs.a ∧
    t.pc = s.pc + BitVec.ofNat 16 n ∧ KeptBut s t [.a]

/-- `i`, of `n` bytes, completes with the flags of A - `v`, A kept (R177, R178). -/
def Compares (i : Instr) (n : Nat) (s : State) (v : Byte) : Prop :=
  ∃ t, exec i s = .next t ∧
    (∃ d : Byte, (d.toNat + v.toNat) % 256 = s.regs.a.toNat ∧ DifferenceFlags s.params t.flags s.regs.a v false d) ∧
    t.pc = s.pc + BitVec.ofNat 16 n ∧ KeptBut s t []

/-- `i`, of `n` bytes, completes with A the bitwise `op` of A and `v`, CY reset and AC as said (R170). -/
def Combines (i : Instr) (n : Nat) (s : State) (v : Byte) (op : Bool → Bool → Bool) (ac : Bool) : Prop :=
  ∃ t, exec i s = .next t ∧ (∀ k, k < 8 → t.regs.a.getLsbD k = op (s.regs.a.getLsbD k) (v.getLsbD k)) ∧
    ReflectsZSP t.flags t.regs.a ∧ t.flags.cy = false ∧ t.flags.ac = ac ∧
    t.pc = s.pc + BitVec.ofNat 16 n ∧ KeptBut s t [.a]

/-- A 1-byte rotate completes with CY as said and bit `k` of A from `bits k`; S, Z, AC, P kept. -/
def Rotates (i : Instr) (op : Byte) (s : State) (bits : Nat → Bool) (cy : Bool) : Prop :=
  Form i [op] 1 4 ∧ ∃ t, exec i s = .next t ∧ (∀ k, k < 8 → t.regs.a.getLsbD k = bits k) ∧ t.flags.cy = cy ∧
    KeptButCy s.flags t.flags ∧ t.pc = s.pc + 1 ∧ KeptBut s t [.a]

/-- INR and DCR of a value `v` with the result `res`: the flags but CY (R152, R153). -/
def StepFlags (f g : Flags) (res : Byte) (ac : Prop) : Prop :=
  ReflectsZSP g res ∧ (g.ac = true ↔ ac) ∧ g.cy = f.cy

/-- A jump with this opcode goes to its address where `taken`, else to the next instruction, and changes only `pc`; it takes
3 M-cycles and 10 T-states where taken, else 2 and 7. -/
def Jumps (mk : Word → Instr) (op : Byte) (taken : Flags → Bool) : Prop :=
  ∀ (a : Word) (s : State), encode (mk a) = [op, low8 a, high8 a] ∧
    (timing (mk a) s.flags = if taken s.flags then fixedTiming 3 3 10 else fixedTiming 3 2 7) ∧
    ∃ t, exec (mk a) s = .next t ∧ t.pc = (if taken s.flags then a else s.pc + 3) ∧ OnlyPc s t

/-- `t` is `s` after `ret` was pushed and control went to `target`: high-order byte at `sp` - 1, low-order byte at
`sp` - 2, and nothing else changed (R201). -/
def Called (s t : State) (ret target : Word) : Prop :=
  t.pc = target ∧ t.sp = s.sp - 2 ∧ Written s t (s.sp - 1) (high8 ret) ∧ Written s t (s.sp - 2) (low8 ret) ∧
    MemKeptBut s t [s.sp - 1, s.sp - 2] ∧ RegsKeptBut s t [] ∧ t.flags = s.flags ∧ RestKept s t

/-- A call with this opcode: where `taken`, `Called` with the address after its three bytes; else only `pc` moves on; and
with an absent stack byte it stops there. -/
def Calls (mk : Word → Instr) (op : Byte) (taken : Flags → Bool) : Prop :=
  ∀ (a : Word) (s : State), encode (mk a) = [op, low8 a, high8 a] ∧
    (timing (mk a) s.flags = if taken s.flags then fixedTiming 3 5 18 else fixedTiming 3 2 9) ∧
    (taken s.flags = true → Memory.wf s.mem = true → Present s (s.sp - 1) → Present s (s.sp - 2) →
      ∃ t, exec (mk a) s = .next t ∧ Called s t (s.pc + 3) a) ∧
    (taken s.flags = true → ¬ Present s (s.sp - 1) → StopsAt (exec (mk a) s) (s.sp - 1) .write) ∧
    (taken s.flags = true → Present s (s.sp - 1) → ¬ Present s (s.sp - 2) → StopsAt (exec (mk a) s) (s.sp - 2) .write) ∧
    (taken s.flags = false → ∃ t, exec (mk a) s = .next t ∧ t.pc = s.pc + 3 ∧ OnlyPc s t)

/-- A return with this opcode: where `taken`, `pc` from the two bytes at `sp`, `sp` two higher; else only `pc` moves on;
and with an absent stack byte it stops there. It takes 3 M-cycles and `tTaken` T-states where taken, else 1 and 6. -/
def Returns (i : Instr) (op : Byte) (tTaken : Nat) (taken : Flags → Bool) : Prop :=
  encode i = [op] ∧ ∀ s : State,
    (timing i s.flags = if taken s.flags then fixedTiming 1 3 tTaken else fixedTiming 1 1 6) ∧
    (taken s.flags = true → Present s s.sp → Present s (s.sp + 1) →
      ∃ t, exec i s = .next t ∧ t.pc = word (s.byteAt (s.sp + 1)) (s.byteAt s.sp) ∧ t.sp = s.sp + 2 ∧
        MemKept s t ∧ RegsKeptBut s t [] ∧ t.flags = s.flags ∧ RestKept s t) ∧
    (taken s.flags = true → ¬ Present s s.sp → StopsAt (exec i s) s.sp .read) ∧
    (taken s.flags = true → Present s s.sp → ¬ Present s (s.sp + 1) → StopsAt (exec i s) (s.sp + 1) .read) ∧
    (taken s.flags = false → ∃ t, exec i s = .next t ∧ t.pc = s.pc + 1 ∧ OnlyPc s t)

/-- The pair a PUSH or POP operand names, as (high-order, low-order) registers; PSW has no low-order register. -/
def pairRegs : PairPSW → List Reg
  | .bc => [.b, .c]
  | .de => [.d, .e]
  | .hl => [.h, .l]
  | .psw => [.a]

/-- The ten opcode values with no instruction (R96). -/
def tenUnassigned : List Byte := [0x08, 0x10, 0x18, 0x28, 0x38, 0xCB, 0xD9, 0xDD, 0xED, 0xFD]

/-- The opcodes of the 2-byte instructions, as R84 lists them. -/
def twoByteOpcodes : List Byte :=
  [0x06, 0x0E, 0x16, 0x1E, 0x26, 0x2E, 0x36, 0x3E, 0xC6, 0xCE, 0xD6, 0xDE, 0xE6, 0xEE, 0xF6, 0xFE, 0xD3, 0xDB]

/-- The opcodes of the 3-byte instructions, as R84 lists them. -/
def threeByteOpcodes : List Byte :=
  [0x01, 0x11, 0x21, 0x31, 0x22, 0x2A, 0x32, 0x3A, 0xC2, 0xCA, 0xD2, 0xDA, 0xE2, 0xEA, 0xF2, 0xFA, 0xC3,
   0xC4, 0xCC, 0xD4, 0xDC, 0xE4, 0xEC, 0xF4, 0xFC, 0xCD]

/-- The value of some bytes, the first in bits 7..0. -/
def wordOf : List Byte → Nat
  | [] => 0
  | b :: rest => b.toNat + 256 * wordOf rest

/-- A two-digit number as packed BCD. -/
def bcd (n : Nat) : Byte := BitVec.ofNat 8 (n / 10 * 16 + n % 10)

/-- The next step of `s` fetches: no reset, nothing recognisable, not halted. -/
def Fetches (s : State) : Prop :=
  s.env.inputs.reset = false ∧ (sampleInterrupts s).pendingInterrupt = none ∧ s.ctl.halted = false

/-- Is the byte in `INTA_OPCODES` and an RST opcode `11 nnn 111`? In arithmetic: the upper two bits are 3, the lower three 7
(R275, R281; that a byte of a wider set must be an RST opcode is log entry 9, DESIGN CHOICE). -/
def AdmittedByte (p : Params) (b : Byte) : Prop := b ∈ p.intaOpcodes ∧ b.toNat / 64 = 3 ∧ b.toNat % 8 = 7

/-- Where an interrupt goes, from the table of R271. -/
def restartOf : IntSource → Nat
  | .trap => 0x24
  | .rst55 => 0x2C
  | .rst65 => 0x34
  | .rst75 => 0x3C
  | .intr b => 8 * (b.toNat / 8 % 8)

end Sys2Proof.Says

open Sys2Proof Sys2Proof.Machine Sys2Proof.Says

/-! ## Encoding -/

/-- Decoding the bytes of an instruction, followed by anything, gives the instruction and what follows (R84 to R91; that
the ten opcodes with no instruction have terms of one byte is log entry 8, DESIGN CHOICE). -/
def Obligations.DecodeOfEncodeIsTheInstruction : Prop :=
  ∀ (i : Instr) (rest : List Byte), decode (encode i ++ rest) = .ok (i, rest)

/-- Whatever decodes is the encoding of what it decodes to, so every byte string has at most one meaning and no bit of it
is dropped (R84 to R91; the terms of the ten opcodes with no instruction are log entry 8, DESIGN CHOICE). -/
def Obligations.DecodedBytesAreTheEncoding : Prop :=
  ∀ (bytes : List Byte) (i : Instr) (rest : List Byte), decode bytes = .ok (i, rest) → bytes = encode i ++ rest

/-- Words the spec spells out decode to the instructions it names them (R82, R83, R85, R86, R229). -/
def Obligations.SpelledOutWordsDecode : Prop :=
  decode [0x41] = .ok (.movRR .b .c, []) ∧ decode [0x7C] = .ok (.movRR .a .h, []) ∧
    decode [0x76] = .ok (.hlt, []) ∧ decode [0x06, 0x57] = .ok (.mviR .b 0x57, []) ∧
    decode [0x32, 0x00, 0x56] = .ok (.sta 0x5600, []) ∧ decode [0xCD, 0x50, 0x20] = .ok (.call 0x2050, []) ∧
    decode [0x86] = .ok (.addM, []) ∧ decode [0x34] = .ok (.inrM, []) ∧ decode [0xF5] = .ok (.push .psw, []) ∧
    decode [0x39] = .ok (.dad .sp, []) ∧ decode [0xE6, 0x97] = .ok (.ani 0x97, []) ∧
    decode [0xEF] = .ok (.rst 5, []) ∧ decode [0xDB, 0x01] = .ok (.inp 0x01, [])

/-- The length of an assigned instruction is a function of its opcode byte alone, by R84's table. -/
def Obligations.OpcodeAloneDecidesTheLength : Prop :=
  ∀ op b2 b3 : Byte, ∃ i rest, decode [op, b2, b3] = .ok (i, rest) ∧
    (WellFormed i → i.length = (if op ∈ twoByteOpcodes then 2 else if op ∈ threeByteOpcodes then 3 else 1) ∧
      rest = [op, b2, b3].drop i.length)

/-- The opcode values whose decoding is no instruction are the ten R96 lists, and no other (that they decode to ill-formed
terms is log entry 8, DESIGN CHOICE). -/
def Obligations.TenOpcodesHaveNoInstruction : Prop :=
  ∀ (op b2 b3 : Byte) (i : Instr) (rest : List Byte), decode [op, b2, b3] = .ok (i, rest) →
    (¬ WellFormed i ↔ op ∈ tenUnassigned)

/-! ## The step -/

/-- A step before whose fetch nothing comes. When the bytes at `pc` decode to an instruction and are all there, the step is
the instruction's meaning on the sampled state, then step 6 of R270 on `ei_shadow`, then the environment moves on (log entry
6, DESIGN CHOICE); a stop of the meaning is a stop of the step. When a byte of the instruction is at an absent address, the
first such byte stops the step as a fetch (R54, R62, R285, decision D9), and the opcode's does so whatever stands there. -/
def Obligations.StepRunsTheDecodedInstruction : Prop :=
  ∀ s : State, Fetches s →
    (¬ Present s s.pc → StopsAt (step s) s.pc .fetch) ∧
    ∀ (i : Instr) (rest : List Byte),
      decode [s.byteAt s.pc, s.byteAt (s.pc + 1), s.byteAt (s.pc + 2)] = .ok (i, rest) → WellFormed i →
      ((∀ k, k < i.length → Present s (s.pc + BitVec.ofNat 16 k)) →
        step s = match exec i (sampleInterrupts s) with
          | .next t => .next { t with
              ctl := { t.ctl with eiShadow := if t.params.eiDelay then isEi i else t.ctl.eiShadow }
              env := t.env.tick }
          | .fault r => .fault r
          | .refused r => .refused r) ∧
      (∀ k, 0 < k → k < i.length → (∀ j, j < k → Present s (s.pc + BitVec.ofNat 16 j)) →
        ¬ Present s (s.pc + BitVec.ofNat 16 k) → StopsAt (step s) (s.pc + BitVec.ofNat 16 k) .fetch)

/-- The bytes of an instruction placed where the next step fetches are the instruction that step runs, from any state with
memory in its canonical form; registers, flags, `sp` and the other bytes are as before (the placing is the model's own tool,
log entry 10, DESIGN CHOICE). -/
def Obligations.PlacedInstructionRunsNext : Prop :=
  ∀ (s : State) (i : Instr), WellFormed i → Memory.wf s.mem = true →
    let u := s.withFetchWord (8 * i.length) (wordOf (encode i))
    Fetches u ∧ u.pc = s.pc ∧ fetchInstr (sampleInterrupts u) = .next i ∧
      u.regs = s.regs ∧ u.flags = s.flags ∧ u.sp = s.sp ∧
      (∀ x : Word, x ≠ s.pc → x ≠ s.pc + 1 → x ≠ s.pc + 2 → u.byteAt x = s.byteAt x)

/-- Executing an opcode with no instruction raises IllegalOpcode with the opcode and `pc0`; a step that
fetches one raises it, and one that takes an interrupt, stays halted or is reset does not (R285, R286; that the run has no
further meaning is decision D7). -/
def Obligations.UnassignedOpcodesRaiseIllegalOpcode : Prop :=
  ∀ s : State,
    (exec .unassigned08 s = .fault (.illegalOpcode 0x08 s.pc) ∧ exec .unassigned10 s = .fault (.illegalOpcode 0x10 s.pc) ∧
    exec .unassigned18 s = .fault (.illegalOpcode 0x18 s.pc) ∧ exec .unassigned28 s = .fault (.illegalOpcode 0x28 s.pc) ∧
    exec .unassigned38 s = .fault (.illegalOpcode 0x38 s.pc) ∧ exec .unassignedCB s = .fault (.illegalOpcode 0xCB s.pc) ∧
    exec .unassignedD9 s = .fault (.illegalOpcode 0xD9 s.pc) ∧ exec .unassignedDD s = .fault (.illegalOpcode 0xDD s.pc) ∧
    exec .unassignedED s = .fault (.illegalOpcode 0xED s.pc) ∧ exec .unassignedFD s = .fault (.illegalOpcode 0xFD s.pc)) ∧
    (Present s s.pc → s.byteAt s.pc ∈ tenUnassigned → Fetches s → step s = .fault (.illegalOpcode (s.byteAt s.pc) s.pc)) ∧
    (¬ Fetches s → ∀ op pc0, step s ≠ .fault (.illegalOpcode op pc0))

/-- The only stops of a step: IllegalOpcode for one of the ten opcodes, at `pc` (decision D7); UnmappedAccess at an address
`MEM_MAP` marks absent (decision D9); and the refusal of an INTR byte outside `INTA_OPCODES` (R275, decision D13) or, in a
wider set of the platform's, no RST opcode, which is the model's choice (log entry 9, DESIGN CHOICE). -/
def Obligations.StopsOnlyWhereTheSpecSays : Prop :=
  ∀ s : State,
    (∀ op pc0, step s = .fault (.illegalOpcode op pc0) →
      pc0 = s.pc ∧ op = s.byteAt s.pc ∧ op ∈ tenUnassigned ∧ Fetches s) ∧
    (∀ a acc, step s = .fault (.unmappedAccess a acc) → ¬ Present s a) ∧
    (∀ r, step s = .refused r →
      ∃ b, r = .intaByteNotAdmitted b ∧ s.env.inputs.intr = some b ∧ ¬ AdmittedByte s.params b)

/-! ## Invariants and whole-machine rules -/

/-- Every step keeps the invariant: memory stays in its canonical form (the form is the model's, log entry 1), and `ei_shadow` is set only with `EI_DELAY` = 1,
interrupts enabled and the machine not halted. -/
def Obligations.EveryStepKeepsTheInvariant : Prop :=
  ∀ s t : State, Inv s → step s = .next t → Inv t

/-- The state after reset has the invariant. -/
def Obligations.ResetStateHasTheInvariant : Prop := Inv State.reset

/-- No step changes a parameter (they stand in State by log entry 7) or a byte `MEM_MAP` marks ROM (R54, decision D9). -/
def Obligations.NoStepChangesRomOrParameters : Prop :=
  ∀ s t : State, step s = .next t →
    t.params = s.params ∧ ∀ x : Word, s.kindAt x = .rom → t.byteAt x = s.byteAt x

/-- The output trace only grows, by at most one event a step, and only a reset or a step that runs OUT or SIM adds one (R51,
R33, decisions D10, D36; that a change of SOD, by SIM or by reset, is the one event and an unchanged write none, is log entry
14, DEDUCED). -/
def Obligations.OutputTraceGrowsByOneEventAtMost : Prop :=
  ∀ s t : State, step s = .next t →
    ∃ es, t.env.out = s.env.out ++ es ∧ es.length ≤ 1 ∧
      (es ≠ [] → s.env.inputs.reset = true ∨
        (Fetches s ∧ ∃ i, fetchInstr (sampleInterrupts s) = .next i ∧ (i = .sim ∨ ∃ p, i = .out p)))

/-- Interrupts become enabled only by EI, and a mask changes only by SIM or reset (R30, R31). -/
def Obligations.OnlyEiEnablesAndOnlySimMasks : Prop :=
  ∀ s t : State, step s = .next t →
    (s.ctl.ie = false → t.ctl.ie = true → Fetches s ∧ fetchInstr (sampleInterrupts s) = .next .ei) ∧
    ((t.ctl.m75, t.ctl.m65, t.ctl.m55) ≠ (s.ctl.m75, s.ctl.m65, s.ctl.m55) →
      s.env.inputs.reset = true ∨ (Fetches s ∧ fetchInstr (sampleInterrupts s) = .next .sim))

/-- Only HLT enters the halt, and only a recognisable interrupt or reset leaves it (R34, R290). -/
def Obligations.OnlyHltHaltsAndOnlyInterruptOrResetWakes : Prop :=
  ∀ s t : State, step s = .next t →
    (s.ctl.halted = false → t.ctl.halted = true → Fetches s ∧ fetchInstr (sampleInterrupts s) = .next .hlt) ∧
    (s.ctl.halted = true → t.ctl.halted = false →
      s.env.inputs.reset = true ∨ (sampleInterrupts s).pendingInterrupt ≠ none)

/-! ## Reset -/

/-- What the spec says reset leaves, of the state after reset and of a running machine on which reset is asserted: `pc`,
the control state, memory; nothing is said of registers, flags and `sp` (R40, R310; the values beyond `IE` and `halted`
are decision D8, from general knowledge). -/
def Obligations.ResetLeavesTheStateOfTheTable : Prop :=
  (State.reset.pc = 0x0000 ∧ State.reset.ctl.ie = false ∧ State.reset.ctl.m75 = true ∧ State.reset.ctl.m65 = true ∧
    State.reset.ctl.m55 = true ∧ State.reset.ctl.r75 = false ∧ State.reset.ctl.trapReq = false ∧
    State.reset.ctl.sod = false ∧ State.reset.ctl.halted = false ∧ State.reset.ctl.eiShadow = false) ∧
  ∀ s : State, s.env.inputs.reset = true →
    ∃ t, step s = .next t ∧ t.pc = s.params.resetPc ∧ t.ctl.ie = false ∧ t.ctl.m75 = true ∧ t.ctl.m65 = true ∧
      t.ctl.m55 = true ∧ t.ctl.r75 = false ∧ t.ctl.trapReq = false ∧ t.ctl.sod = false ∧ t.ctl.halted = false ∧
      t.ctl.eiShadow = false ∧ MemKept s t ∧ t.params = s.params

/-! ## Interrupts -/

/-- Which source a sampled state takes: the recognition rule of R277 and the order of R278 (decision D11: TRAP, RST 7.5,
RST 6.5, RST 5.5, INTR). -/
def Obligations.RecognitionAndPriority : Prop :=
  ∀ s : State,
    let on := s.ctl.ie = true ∧ s.ctl.eiShadow = false
    let q75 := on ∧ s.ctl.r75 = true ∧ s.ctl.m75 = false
    let q65 := on ∧ s.env.inputs.line65 = true ∧ s.ctl.m65 = false
    let q55 := on ∧ s.env.inputs.line55 = true ∧ s.ctl.m55 = false
    (s.pendingInterrupt = some .trap ↔ s.ctl.trapReq = true) ∧
    (s.pendingInterrupt = some .rst75 ↔ s.ctl.trapReq = false ∧ q75) ∧
    (s.pendingInterrupt = some .rst65 ↔ s.ctl.trapReq = false ∧ ¬ q75 ∧ q65) ∧
    (s.pendingInterrupt = some .rst55 ↔ s.ctl.trapReq = false ∧ ¬ q75 ∧ ¬ q65 ∧ q55) ∧
    (∀ b, s.pendingInterrupt = some (.intr b) ↔
      s.ctl.trapReq = false ∧ ¬ q75 ∧ ¬ q65 ∧ ¬ q55 ∧ on ∧ s.env.inputs.intr = some b)

/-- Taking an interrupt (R280, R281, decision D15): the unadvanced `pc` is pushed, control goes to the restart address,
`IE`, `halted`, `ei_shadow` and the served latch are cleared, and registers, flags, masks, `SOD`, the trace and every
other byte are as before; with an absent stack byte the step stops there (decision D9). An INTR byte is one of `INTA_OPCODES`
and an RST opcode (log entry 9 for a wider set, DESIGN CHOICE). -/
def Obligations.InterruptEntrySavesPcAndGoesToTheRestartAddress : Prop :=
  ∀ (s : State) (src : IntSource), s.env.inputs.reset = false →
    (sampleInterrupts s).pendingInterrupt = some src → (∀ b, src = .intr b → AdmittedByte s.params b) →
    (Memory.wf s.mem = true → Present s (s.sp - 1) → Present s (s.sp - 2) →
      ∃ t, step s = .next t ∧ t.pc.toNat = restartOf src ∧ t.sp = s.sp - 2 ∧
        Written s t (s.sp - 1) (high8 s.pc) ∧ Written s t (s.sp - 2) (low8 s.pc) ∧
        MemKeptBut s t [s.sp - 1, s.sp - 2] ∧ t.regs = s.regs ∧ t.flags = s.flags ∧
        t.ctl.ie = false ∧ t.ctl.halted = false ∧ t.ctl.eiShadow = false ∧
        (t.ctl.r75 = true ↔ src ≠ .rst75 ∧ (s.ctl.r75 = true ∨ s.env.inputs.rst75Request = true)) ∧
        (t.ctl.trapReq = true ↔ src ≠ .trap ∧ (s.ctl.trapReq = true ∨ s.env.inputs.trapRequest = true)) ∧
        t.ctl.m75 = s.ctl.m75 ∧ t.ctl.m65 = s.ctl.m65 ∧ t.ctl.m55 = s.ctl.m55 ∧ t.ctl.sod = s.ctl.sod ∧
        t.env.out = s.env.out ∧ t.env.draws = s.env.draws ∧ t.params = s.params) ∧
    (¬ Present s (s.sp - 1) → StopsAt (step s) (s.sp - 1) .write) ∧
    (Present s (s.sp - 1) → ¬ Present s (s.sp - 2) → StopsAt (step s) (s.sp - 2) .write)

/-- TRAP cannot be disabled: whatever `IE`, the masks, `ei_shadow` and `halted` hold, a TRAP request is taken at the next
step, once (R272; the latch is decision D12, and that entry clears `IE`, `halted` and the latch is decision D15, log entry
11). -/
def Obligations.TrapCannotBeDisabled : Prop :=
  ∀ s : State, s.env.inputs.reset = false → (s.ctl.trapReq = true ∨ s.env.inputs.trapRequest = true) →
    Present s (s.sp - 1) → Present s (s.sp - 2) →
    ∃ t, step s = .next t ∧ t.pc = 0x0024 ∧ t.ctl.trapReq = false ∧ t.ctl.ie = false ∧ t.ctl.halted = false

/-- An INTR byte outside `INTA_OPCODES` is refused (R275, decision D13), and so is a byte a platform has in that set that is
no RST opcode `11 nnn 111`: the second is the model's choice (log entry 9, DESIGN CHOICE). -/
def Obligations.OtherIntrBytesAreRefused : Prop :=
  ∀ (s : State) (b : Byte), s.env.inputs.reset = false →
    (sampleInterrupts s).pendingInterrupt = some (.intr b) →
    (b ∉ s.params.intaOpcodes ∨ b.toNat / 64 ≠ 3 ∨ b.toNat % 8 ≠ 7) →
    step s = .refused (.intaByteNotAdmitted b)

/-- A request of RST 7.5 that is not taken stays stored, whatever `IE` and the mask hold, unless SIM or reset clears it
(R273, R279, decision D12). -/
def Obligations.Rst75RequestStaysStored : Prop :=
  ∀ s t : State, step s = .next t → s.env.inputs.reset = false →
    (s.ctl.r75 = true ∨ s.env.inputs.rst75Request = true) →
    (sampleInterrupts s).pendingInterrupt ≠ some .rst75 →
    ¬ (Fetches s ∧ fetchInstr (sampleInterrupts s) = .next .sim) → t.ctl.r75 = true

/-- After EI with `EI_DELAY` = 1 no source but TRAP is recognisable at the next step, and after an instruction that is not
EI `ei_shadow` is 0 (R276, decision D14, from general knowledge). -/
def Obligations.EiTakesEffectAfterTheNextInstruction : Prop :=
  ∀ (s t : State) (i : Instr), s.params.eiDelay = true → Fetches s →
    fetchInstr (sampleInterrupts s) = .next i → step s = .next t →
    (i = .ei → t.ctl.ie = true ∧ t.ctl.eiShadow = true ∧
      ∀ src, src ≠ .trap → (sampleInterrupts t).recognisable src = false) ∧
    (i ≠ .ei → t.ctl.eiShadow = false)

/-- A halted machine with no recognisable interrupt fetches and changes nothing: only requests are sampled and the
environment moves on (R252, R270, R290). -/
def Obligations.HaltedStepChangesNothing : Prop :=
  ∀ s : State, s.env.inputs.reset = false → FinalHalt s →
    ∃ t, step s = .next t ∧ t.regs = s.regs ∧ t.flags = s.flags ∧ t.pc = s.pc ∧ t.sp = s.sp ∧ MemKept s t ∧
      t.ctl = (sampleInterrupts s).ctl ∧ t.env.out = s.env.out ∧ t.env.draws = s.env.draws ∧ t.params = s.params

/-- Halted, nothing recognisable and an environment that raises nothing more: the state no longer changes, however many
steps run (R314, decisions D23, D35; that a quiet environment stays quiet is log entry 6, DESIGN CHOICE). -/
def Obligations.HaltedRunIsFinal : Prop :=
  ∀ (s : State) (n : Nat), QuietEnv s → FinalHalt s → core.run n s = .next s

/-- The return from an interrupt: after the entry, RET gives back the interrupted `pc` and `sp`, with the stack in RAM
(R283; that entry pushes the unadvanced `pc` is decision D15, log entry 11). -/
def Obligations.RetAfterInterruptEntryResumes : Prop :=
  ∀ (s u : State) (src : IntSource), Memory.wf s.mem = true → s.kindAt (s.sp - 1) = .ram → s.kindAt (s.sp - 2) = .ram →
    interruptEntry s src = .next u →
    ∃ t, exec .ret u = .next t ∧ t.pc = s.pc ∧ t.sp = s.sp ∧ t.regs = s.regs ∧ t.flags = s.flags

/-! ## Data transfer -/

/-- MOV Rd,Rs copies the source register and changes nothing else but `pc` (R111). -/
def Obligations.MovCopiesARegister : Prop :=
  ∀ (dst src : Reg) (s : State), Form (.movRR dst src) [0b01#2 ++ regCode dst ++ regCode src] 1 4 ∧
    ∃ t, exec (.movRR dst src) s = .next t ∧ t.reg dst = s.reg src ∧ t.flags = s.flags ∧ t.pc = s.pc + 1 ∧
      KeptBut s t [dst]

/-- MOV Rd,M loads the register from the byte at HL, the old HL (R112); an absent address stops it. -/
def Obligations.MovLoadsFromMemory : Prop :=
  ∀ (dst : Reg) (s : State), Form (.movRM dst) [0b01#2 ++ regCode dst ++ 0b110#3] 2 7 ∧
    (Present s (word s.regs.h s.regs.l) →
      ∃ t, exec (.movRM dst) s = .next t ∧ t.reg dst = s.byteAt (word s.regs.h s.regs.l) ∧ t.flags = s.flags ∧
        t.pc = s.pc + 1 ∧ KeptBut s t [dst]) ∧
    (¬ Present s (word s.regs.h s.regs.l) → StopsAt (exec (.movRM dst) s) (word s.regs.h s.regs.l) .read)

/-- MOV M,Rs and MVI M,data8 store their byte at HL and nowhere else (R113, R115); an absent address stops them. -/
def Obligations.MovAndMviStoreToMemory : Prop :=
  ∀ (src : Reg) (v : Byte) (s : State),
    Form (.movMR src) [0b01110#5 ++ regCode src] 2 7 ∧ Form (.mviM v) [0x36, v] 3 10 ∧
    (Present s s.hl → Memory.wf s.mem = true →
      (∃ t, exec (.movMR src) s = .next t ∧ Written s t s.hl (s.reg src) ∧ MemKeptBut s t [s.hl] ∧
        t.flags = s.flags ∧ t.pc = s.pc + 1 ∧ RegsKeptBut s t [] ∧ t.sp = s.sp ∧ RestKept s t) ∧
      (∃ t, exec (.mviM v) s = .next t ∧ Written s t s.hl v ∧ MemKeptBut s t [s.hl] ∧
        t.flags = s.flags ∧ t.pc = s.pc + 2 ∧ RegsKeptBut s t [] ∧ t.sp = s.sp ∧ RestKept s t)) ∧
    (¬ Present s s.hl → StopsAt (exec (.movMR src) s) s.hl .write ∧ StopsAt (exec (.mviM v) s) s.hl .write)

/-- MVI Rd,data8 loads the immediate byte (R114). -/
def Obligations.MviLoadsARegister : Prop :=
  ∀ (r : Reg) (v : Byte) (s : State), Form (.mviR r v) [0b00#2 ++ regCode r ++ 0b110#3, v] 2 7 ∧
    ∃ t, exec (.mviR r v) s = .next t ∧ t.reg r = v ∧ t.flags = s.flags ∧ t.pc = s.pc + 2 ∧ KeptBut s t [r]

/-- LXI loads the pair, byte 3 in the high-order register and byte 2 in the low-order one, or SP (R116). -/
def Obligations.LxiLoadsAPair : Prop :=
  ∀ (b2 b3 : Byte) (s : State),
    (Form (.lxi .bc (b3 ++ b2)) [0x01, b2, b3] 3 10 ∧
      ∃ t, exec (.lxi .bc (b3 ++ b2)) s = .next t ∧ t.regs.b = b3 ∧ t.regs.c = b2 ∧ t.flags = s.flags ∧
        t.pc = s.pc + 3 ∧ KeptBut s t [.b, .c]) ∧
    (Form (.lxi .de (b3 ++ b2)) [0x11, b2, b3] 3 10 ∧
      ∃ t, exec (.lxi .de (b3 ++ b2)) s = .next t ∧ t.regs.d = b3 ∧ t.regs.e = b2 ∧ t.flags = s.flags ∧
        t.pc = s.pc + 3 ∧ KeptBut s t [.d, .e]) ∧
    (Form (.lxi .hl (b3 ++ b2)) [0x21, b2, b3] 3 10 ∧
      ∃ t, exec (.lxi .hl (b3 ++ b2)) s = .next t ∧ t.regs.h = b3 ∧ t.regs.l = b2 ∧ t.flags = s.flags ∧
        t.pc = s.pc + 3 ∧ KeptBut s t [.h, .l]) ∧
    (Form (.lxi .sp (b3 ++ b2)) [0x31, b2, b3] 3 10 ∧
      ∃ t, exec (.lxi .sp (b3 ++ b2)) s = .next t ∧ t.sp = word b3 b2 ∧ t.flags = s.flags ∧ t.pc = s.pc + 3 ∧
        RegsKeptBut s t [] ∧ MemKept s t ∧ RestKept s t)

/-- LDA and LDAX copy the byte at their address to A (R117, R119); an absent address stops them. -/
def Obligations.LdaAndLdaxLoadA : Prop :=
  ∀ (a : Word) (p : PairX) (s : State),
    let q := match p with | .bc => word s.regs.b s.regs.c | .de => word s.regs.d s.regs.e
    Form (.lda a) [0x3A, low8 a, high8 a] 4 13 ∧ Form (.ldax .bc) [0x0A] 2 7 ∧ Form (.ldax .de) [0x1A] 2 7 ∧
    (Present s a → ∃ t, exec (.lda a) s = .next t ∧ t.regs.a = s.byteAt a ∧ t.flags = s.flags ∧ t.pc = s.pc + 3 ∧
      KeptBut s t [.a]) ∧
    (¬ Present s a → StopsAt (exec (.lda a) s) a .read) ∧
    (Present s q → ∃ t, exec (.ldax p) s = .next t ∧ t.regs.a = s.byteAt q ∧ t.flags = s.flags ∧ t.pc = s.pc + 1 ∧
      KeptBut s t [.a]) ∧
    (¬ Present s q → StopsAt (exec (.ldax p) s) q .read)

/-- STA and STAX copy A to their address and store nowhere else (R118, R120); an absent address stops them. -/
def Obligations.StaAndStaxStoreA : Prop :=
  ∀ (a : Word) (p : PairX) (s : State), Memory.wf s.mem = true →
    Form (.sta a) [0x32, low8 a, high8 a] 4 13 ∧ Form (.stax .bc) [0x02] 2 7 ∧ Form (.stax .de) [0x12] 2 7 ∧
    (Present s a → ∃ t, exec (.sta a) s = .next t ∧ Written s t a s.regs.a ∧ MemKeptBut s t [a] ∧ t.flags = s.flags ∧
      t.pc = s.pc + 3 ∧ RegsKeptBut s t [] ∧ t.sp = s.sp ∧ RestKept s t) ∧
    (¬ Present s a → StopsAt (exec (.sta a) s) a .write) ∧
    (Present s (s.pairX p) → ∃ t, exec (.stax p) s = .next t ∧ Written s t (s.pairX p) s.regs.a ∧
      MemKeptBut s t [s.pairX p] ∧ t.flags = s.flags ∧ t.pc = s.pc + 1 ∧ RegsKeptBut s t [] ∧ t.sp = s.sp ∧
      RestKept s t) ∧
    (¬ Present s (s.pairX p) → StopsAt (exec (.stax p) s) (s.pairX p) .write)

/-- LHLD loads L from the address and H from the next one, modulo 65536 (R121). -/
def Obligations.LhldLoadsHl : Prop :=
  ∀ (a : Word) (s : State), Form (.lhld a) [0x2A, low8 a, high8 a] 5 16 ∧
    (Present s a → Present s (a + 1) →
      ∃ t, exec (.lhld a) s = .next t ∧ t.regs.l = s.byteAt a ∧ t.regs.h = s.byteAt (a + 1) ∧ t.flags = s.flags ∧
        t.pc = s.pc + 3 ∧ KeptBut s t [.h, .l]) ∧
    (¬ Present s a → StopsAt (exec (.lhld a) s) a .read) ∧
    (Present s a → ¬ Present s (a + 1) → StopsAt (exec (.lhld a) s) (a + 1) .read)

/-- SHLD stores L at the address and H at the next one, modulo 65536, and nowhere else (R122). -/
def Obligations.ShldStoresHl : Prop :=
  ∀ (a : Word) (s : State), Memory.wf s.mem = true → Form (.shld a) [0x22, low8 a, high8 a] 5 16 ∧
    (Present s a → Present s (a + 1) →
      ∃ t, exec (.shld a) s = .next t ∧ Written s t a s.regs.l ∧ Written s t (a + 1) s.regs.h ∧
        MemKeptBut s t [a, a + 1] ∧ t.flags = s.flags ∧ t.pc = s.pc + 3 ∧ RegsKeptBut s t [] ∧ t.sp = s.sp ∧
        RestKept s t) ∧
    (¬ Present s a → StopsAt (exec (.shld a) s) a .write) ∧
    (Present s a → ¬ Present s (a + 1) → StopsAt (exec (.shld a) s) (a + 1) .write)

/-- XCHG exchanges HL with DE (R123), PCHL copies HL to `pc` (R230), SPHL copies HL to `sp` (R243). -/
def Obligations.XchgPchlSphlMoveHl : Prop :=
  ∀ s : State,
    (Form .xchg [0xEB] 1 4 ∧
      ∃ t, exec .xchg s = .next t ∧ t.regs.h = s.regs.d ∧ t.regs.l = s.regs.e ∧ t.regs.d = s.regs.h ∧
        t.regs.e = s.regs.l ∧ t.flags = s.flags ∧ t.pc = s.pc + 1 ∧ KeptBut s t [.h, .l, .d, .e]) ∧
    (Form .pchl [0xE9] 1 6 ∧ ∃ t, exec .pchl s = .next t ∧ t.pc = word s.regs.h s.regs.l ∧ OnlyPc s t) ∧
    (Form .sphl [0xF9] 1 6 ∧
      ∃ t, exec .sphl s = .next t ∧ t.sp = word s.regs.h s.regs.l ∧ t.pc = s.pc + 1 ∧ t.flags = s.flags ∧
        RegsKeptBut s t [] ∧ MemKept s t ∧ RestKept s t)

/-! ## Arithmetic -/

/-- ADD, ADC, ADI, ACI with a register, M or data add to A by the addition law and set all flags (R141, R144 to R147; that
the carry in takes part in AC is the spec's inference). -/
def Obligations.AddFamilyAdds : Prop :=
  ∀ s : State,
    (∀ r, Adds (.addR r) 1 s (s.reg r) false ∧ Adds (.adcR r) 1 s (s.reg r) s.flags.cy) ∧
    (∀ v, Adds (.adi v) 2 s v false ∧ Adds (.aci v) 2 s v s.flags.cy) ∧
    (Present s s.hl → Adds .addM 1 s (s.byteAt s.hl) false ∧ Adds .adcM 1 s (s.byteAt s.hl) s.flags.cy) ∧
    (¬ Present s s.hl → StopsAt (exec .addM s) s.hl .read ∧ StopsAt (exec .adcM s) s.hl .read)

/-- SUB, SBB, SUI, SBI subtract from A by the subtraction law and set all flags, for either value of `AC_SUB_NIBBLE0`
(R142, R148 to R151, decision D3). -/
def Obligations.SubtractFamilySubtracts : Prop :=
  ∀ s : State,
    (∀ r, Subtracts (.subR r) 1 s (s.reg r) false ∧ Subtracts (.sbbR r) 1 s (s.reg r) s.flags.cy) ∧
    (∀ v, Subtracts (.sui v) 2 s v false ∧ Subtracts (.sbi v) 2 s v s.flags.cy) ∧
    (Present s s.hl → Subtracts .subM 1 s (s.byteAt s.hl) false ∧ Subtracts .sbbM 1 s (s.byteAt s.hl) s.flags.cy) ∧
    (¬ Present s s.hl → StopsAt (exec .subM s) s.hl .read ∧ StopsAt (exec .sbbM s) s.hl .read)

/-- CMP and CPI set the flags of the difference and keep A (R177, R178, decision D3). -/
def Obligations.CompareFamilySetsFlagsOnly : Prop :=
  ∀ s : State,
    (∀ r, Compares (.cmpR r) 1 s (s.reg r)) ∧ (∀ v, Compares (.cpi v) 2 s v) ∧
    (Present s s.hl → Compares .cmpM 1 s (s.byteAt s.hl)) ∧ (¬ Present s s.hl → StopsAt (exec .cmpM s) s.hl .read)

/-- INR and DCR of a register: the result modulo 256 in the same register, Z S P from it, AC the carry of the low nibble,
CY kept (R152, R153; AC is decision D29). -/
def Obligations.InrAndDcrOfARegister : Prop :=
  ∀ (r : Reg) (s : State),
    (∃ t, exec (.inrR r) s = .next t ∧ (t.reg r).toNat = ((s.reg r).toNat + 1) % 256 ∧
      StepFlags s.flags t.flags (t.reg r) ((s.reg r).toNat % 16 = 15) ∧ t.pc = s.pc + 1 ∧ KeptBut s t [r]) ∧
    (∃ t, exec (.dcrR r) s = .next t ∧ ((t.reg r).toNat + 1) % 256 = (s.reg r).toNat ∧
      StepFlags s.flags t.flags (t.reg r) ((s.reg r).toNat % 16 ≠ 0) ∧ t.pc = s.pc + 1 ∧ KeptBut s t [r])

/-- INR M and DCR M: the same at the byte at HL, which is read and written (R152, R153; AC is decision D29). -/
def Obligations.InrAndDcrOfMemory : Prop :=
  ∀ s : State, Memory.wf s.mem = true →
    (Present s s.hl →
      (∃ t res, exec .inrM s = .next t ∧ res.toNat = ((s.byteAt s.hl).toNat + 1) % 256 ∧ Written s t s.hl res ∧
        StepFlags s.flags t.flags res ((s.byteAt s.hl).toNat % 16 = 15) ∧ MemKeptBut s t [s.hl] ∧ t.pc = s.pc + 1 ∧
        RegsKeptBut s t [] ∧ t.sp = s.sp ∧ RestKept s t) ∧
      (∃ t res, exec .dcrM s = .next t ∧ (res.toNat + 1) % 256 = (s.byteAt s.hl).toNat ∧ Written s t s.hl res ∧
        StepFlags s.flags t.flags res ((s.byteAt s.hl).toNat % 16 ≠ 0) ∧ MemKeptBut s t [s.hl] ∧ t.pc = s.pc + 1 ∧
        RegsKeptBut s t [] ∧ t.sp = s.sp ∧ RestKept s t)) ∧
    (¬ Present s s.hl → StopsAt (exec .inrM s) s.hl .read ∧ StopsAt (exec .dcrM s) s.hl .read)

/-- INX and DCX: the pair one more or one less modulo 65536, no flag (R154, R155; the wrap is decision D6). -/
def Obligations.InxAndDcxCountAPair : Prop :=
  ∀ s : State,
    (∀ p, ∃ t u, exec (.inx p) s = .next t ∧ exec (.dcx p) s = .next u ∧
      (t.pairSP p).toNat = ((s.pairSP p).toNat + 1) % 65536 ∧ ((u.pairSP p).toNat + 1) % 65536 = (s.pairSP p).toNat ∧
      t.flags = s.flags ∧ u.flags = s.flags ∧ t.pc = s.pc + 1 ∧ u.pc = s.pc + 1 ∧
      MemKept s t ∧ MemKept s u ∧ RestKept s t ∧ RestKept s u ∧
      (p ≠ .sp → t.sp = s.sp ∧ u.sp = s.sp) ∧
      (let written := match p with | .bc => [Reg.b, .c] | .de => [.d, .e] | .hl => [.h, .l] | .sp => []
       RegsKeptBut s t written ∧ RegsKeptBut s u written))

/-- DAD adds the pair to HL modulo 65536 and writes CY in both directions, no other flag (R156, decision D5). -/
def Obligations.DadAddsToHl : Prop :=
  ∀ (p : PairSP) (s : State),
    ∃ t, exec (.dad p) s = .next t ∧ t.hl.toNat = (s.hl.toNat + (s.pairSP p).toNat) % 65536 ∧
      (t.flags.cy = true ↔ 65536 ≤ s.hl.toNat + (s.pairSP p).toNat) ∧ KeptButCy s.flags t.flags ∧ t.pc = s.pc + 1 ∧
      KeptBut s t [.h, .l]

/-- DAA in the single-addition form R157 gives beside its two steps, with the flags of both (decision D4). -/
def Obligations.DaaAddsTheAdjustment : Prop :=
  ∀ s : State,
    let a := s.regs.a.toNat
    let low := a % 16 > 9 ∨ s.flags.ac = true
    let high := a > 0x99 ∨ s.flags.cy = true
    ∃ t adj, exec .daa s = .next t ∧
      (low → high → adj = 0x66) ∧ (low → ¬ high → adj = 0x06) ∧ (¬ low → high → adj = 0x60) ∧ (¬ low → ¬ high → adj = 0) ∧
      t.regs.a.toNat = (a + adj) % 256 ∧ ReflectsZSP t.flags t.regs.a ∧ (t.flags.cy = true ↔ high) ∧
      (t.flags.ac = true ↔ 16 ≤ a % 16 + adj % 16) ∧ t.pc = s.pc + 1 ∧ KeptBut s t [.a]

/-- What DAA is for: two packed BCD bytes added by ADI or ACI and adjusted give the packed BCD of their sum, the carry
being the hundreds (R157). It rests on the two-step reading of DAA (decision D4, log entry 11) and, for ACI, on the spec's
inference that the carry in takes part in AC (R141, log entry 11). -/
def Obligations.DaaAfterAddingBcdGivesTheDecimalSum : Prop :=
  ∀ (s : State) (x y : Nat), x < 100 → y < 100 → s.regs.a = bcd x →
    (∃ t u, exec (.adi (bcd y)) s = .next t ∧ exec .daa t = .next u ∧ u.regs.a = bcd ((x + y) % 100) ∧
      (u.flags.cy = true ↔ 100 ≤ x + y)) ∧
    (∃ t u, exec (.aci (bcd y)) s = .next t ∧ exec .daa t = .next u ∧
      u.regs.a = bcd ((x + y + s.flags.cy.toNat) % 100) ∧ (u.flags.cy = true ↔ 100 ≤ x + y + s.flags.cy.toNat))

/-! ## Logic, rotates, carry -/

/-- ANA, ANI: bitwise AND, AC set; XRA, XRI, ORA, ORI: exclusive OR and OR, AC reset; CY reset by all (R171 to R176). -/
def Obligations.LogicFamilyCombinesBits : Prop :=
  ∀ s : State,
    (∀ r, (encode (.anaR r) = [0b10100#5 ++ regCode r] ∧ Combines (.anaR r) 1 s (s.reg r) and true) ∧
      (encode (.xraR r) = [0b10101#5 ++ regCode r] ∧ Combines (.xraR r) 1 s (s.reg r) xor false) ∧
      (encode (.oraR r) = [0b10110#5 ++ regCode r] ∧ Combines (.oraR r) 1 s (s.reg r) or false)) ∧
    (∀ v, (Form (.ani v) [0xE6, v] 2 7 ∧ Combines (.ani v) 2 s v and true) ∧
      (Form (.xri v) [0xEE, v] 2 7 ∧ Combines (.xri v) 2 s v xor false) ∧
      (Form (.ori v) [0xF6, v] 2 7 ∧ Combines (.ori v) 2 s v or false)) ∧
    (Form .anaM [0xA6] 2 7 ∧ Form .xraM [0xAE] 2 7 ∧ Form .oraM [0xB6] 2 7) ∧
    (∀ r, timing (.anaR r) s.flags = fixedTiming 1 1 4 ∧ timing (.xraR r) s.flags = fixedTiming 1 1 4 ∧
      timing (.oraR r) s.flags = fixedTiming 1 1 4) ∧
    (Present s s.hl → Combines .anaM 1 s (s.byteAt s.hl) and true ∧ Combines .xraM 1 s (s.byteAt s.hl) xor false ∧
      Combines .oraM 1 s (s.byteAt s.hl) or false) ∧
    (¬ Present s s.hl → StopsAt (exec .anaM s) s.hl .read ∧ StopsAt (exec .xraM s) s.hl .read ∧
      StopsAt (exec .oraM s) s.hl .read)

/-- RLC, RRC, RAL, RAR move every bit by one place and write CY only (R179 to R182). -/
def Obligations.RotatesMoveEveryBit : Prop :=
  ∀ s : State,
    let a := s.regs.a
    Rotates .rlc 0x07 s (fun k => a.getLsbD ((k + 7) % 8)) (a.getLsbD 7) ∧
    Rotates .rrc 0x0F s (fun k => a.getLsbD ((k + 1) % 8)) (a.getLsbD 0) ∧
    Rotates .ral 0x17 s (fun k => if k = 0 then s.flags.cy else a.getLsbD (k - 1)) (a.getLsbD 7) ∧
    Rotates .rar 0x1F s (fun k => if k = 7 then s.flags.cy else a.getLsbD (k + 1)) (a.getLsbD 0)

/-- CMA inverts every bit of A and writes no flag, CMC complements CY, STC sets it (R183 to R185). -/
def Obligations.CmaCmcStcComplementAndSet : Prop :=
  ∀ s : State,
    (Form .cma [0x2F] 1 4 ∧
      ∃ t, exec .cma s = .next t ∧ t.regs.a.toNat + s.regs.a.toNat = 0xFF ∧ t.flags = s.flags ∧ t.pc = s.pc + 1 ∧
        KeptBut s t [.a]) ∧
    (Form .cmc [0x3F] 1 4 ∧
      ∃ t, exec .cmc s = .next t ∧ t.flags.cy = !s.flags.cy ∧ KeptButCy s.flags t.flags ∧ t.pc = s.pc + 1 ∧
        KeptBut s t []) ∧
    (Form .stc [0x37] 1 4 ∧
      ∃ t, exec .stc s = .next t ∧ t.flags.cy = true ∧ KeptButCy s.flags t.flags ∧ t.pc = s.pc + 1 ∧ KeptBut s t [])

/-! ## Branches -/

/-- JMP and the eight conditional jumps go to their address when the condition holds, to `pc0` + 3 when it does not, and
change only `pc` (R202 to R210). -/
def Obligations.JumpsGoWhereTheConditionSays : Prop :=
  Jumps .jmp 0xC3 (fun _ => true) ∧ Jumps .jnz 0xC2 (fun f => !f.z) ∧ Jumps .jz 0xCA (fun f => f.z) ∧
    Jumps .jnc 0xD2 (fun f => !f.cy) ∧ Jumps .jc 0xDA (fun f => f.cy) ∧ Jumps .jpo 0xE2 (fun f => !f.p) ∧
    Jumps .jpe 0xEA (fun f => f.p) ∧ Jumps .jp 0xF2 (fun f => !f.s) ∧ Jumps .jm 0xFA (fun f => f.s)

/-- CALL and the eight conditional calls push the address after them and go to their address when the condition holds, and
change only `pc` when it does not (R211 to R219). -/
def Obligations.CallsPushTheNextAddress : Prop :=
  Calls .call 0xCD (fun _ => true) ∧ Calls .cnz 0xC4 (fun f => !f.z) ∧ Calls .cz 0xCC (fun f => f.z) ∧
    Calls .cnc 0xD4 (fun f => !f.cy) ∧ Calls .cc 0xDC (fun f => f.cy) ∧ Calls .cpo 0xE4 (fun f => !f.p) ∧
    Calls .cpe 0xEC (fun f => f.p) ∧ Calls .cp 0xF4 (fun f => !f.s) ∧ Calls .cm 0xFC (fun f => f.s)

/-- RET and the eight conditional returns pop `pc` when the condition holds, and change only `pc` when it does not
(R220 to R228). -/
def Obligations.ReturnsPopTheProgramCounter : Prop :=
  Returns .ret 0xC9 10 (fun _ => true) ∧ Returns .rnz 0xC0 12 (fun f => !f.z) ∧ Returns .rz 0xC8 12 (fun f => f.z) ∧
    Returns .rnc 0xD0 12 (fun f => !f.cy) ∧ Returns .rc 0xD8 12 (fun f => f.cy) ∧ Returns .rpo 0xE0 12 (fun f => !f.p) ∧
    Returns .rpe 0xE8 12 (fun f => f.p) ∧ Returns .rp 0xF0 12 (fun f => !f.s) ∧ Returns .rm 0xF8 12 (fun f => f.s)

/-- RST n is a one-byte call to 8n: it pushes `pc0` + 1 and touches no control bit (R229; the pushed value is decision
D33). -/
def Obligations.RstCallsItsRestartAddress : Prop :=
  ∀ (n : BitVec 3) (s : State), Form (.rst n) [0b11#2 ++ n ++ 0b111#3] 3 12 ∧
    (Memory.wf s.mem = true → Present s (s.sp - 1) → Present s (s.sp - 2) →
      ∃ t, exec (.rst n) s = .next t ∧ Called s t (s.pc + 1) (BitVec.ofNat 16 (8 * n.toNat))) ∧
    (¬ Present s (s.sp - 1) → StopsAt (exec (.rst n) s) (s.sp - 1) .write) ∧
    (Present s (s.sp - 1) → ¬ Present s (s.sp - 2) → StopsAt (exec (.rst n) s) (s.sp - 2) .write)

/-! ## Stack, I/O, machine control -/

/-- PUSH stores the high-order byte at `sp` - 1 and the low-order byte at `sp` - 2; for PSW that is A and the flag byte, in
which S Z AC P CY stand in bits 7 6 4 2 0 (decision D1) and the other three bits are free, or the platform's (decision D2);
only PUSH PSW without a platform's value counts a draw (R240; the count is the model's own, log entry 3). -/
def Obligations.PushStoresAPair : Prop :=
  ∀ (p : PairPSW) (s : State), Memory.wf s.mem = true →
    (Present s (s.sp - 1) → Present s (s.sp - 2) →
      ∃ t hi lo, exec (.push p) s = .next t ∧ t.sp = s.sp - 2 ∧ Written s t (s.sp - 1) hi ∧ Written s t (s.sp - 2) lo ∧
        MemKeptBut s t [s.sp - 1, s.sp - 2] ∧ RegsKeptBut s t [] ∧ t.flags = s.flags ∧ t.pc = s.pc + 1 ∧
        t.ctl = s.ctl ∧ t.params = s.params ∧ t.env.inputs = s.env.inputs ∧ t.env.script = s.env.script ∧
        t.env.out = s.env.out ∧
        t.env.draws = s.env.draws + (if p = .psw ∧ s.params.pswFill = none then 1 else 0) ∧
        (match p with
         | .bc => hi = s.regs.b ∧ lo = s.regs.c
         | .de => hi = s.regs.d ∧ lo = s.regs.e
         | .hl => hi = s.regs.h ∧ lo = s.regs.l
         | .psw => hi = s.regs.a ∧ lo.getLsbD 7 = s.flags.s ∧ lo.getLsbD 6 = s.flags.z ∧ lo.getLsbD 4 = s.flags.ac ∧
             lo.getLsbD 2 = s.flags.p ∧ lo.getLsbD 0 = s.flags.cy ∧
             ∀ f, s.params.pswFill = some f →
               lo.getLsbD 5 = f.getLsbD 2 ∧ lo.getLsbD 3 = f.getLsbD 1 ∧ lo.getLsbD 1 = f.getLsbD 0)) ∧
    (¬ Present s (s.sp - 1) → StopsAt (exec (.push p) s) (s.sp - 1) .write) ∧
    (Present s (s.sp - 1) → ¬ Present s (s.sp - 2) → StopsAt (exec (.push p) s) (s.sp - 2) .write)

/-- POP loads the pair from `sp` (low-order) and `sp` + 1 (high-order); POP PSW loads A and the five flags, bit for bit
(R241, decisions D1, D2). -/
def Obligations.PopLoadsAPair : Prop :=
  ∀ (p : PairPSW) (s : State),
    (Present s s.sp → Present s (s.sp + 1) →
      ∃ t, exec (.pop p) s = .next t ∧ t.sp = s.sp + 2 ∧ MemKept s t ∧ RegsKeptBut s t (pairRegs p) ∧ t.pc = s.pc + 1 ∧
        RestKept s t ∧ (p ≠ .psw → t.flags = s.flags) ∧
        (let lo := s.byteAt s.sp
         let hi := s.byteAt (s.sp + 1)
         match p with
         | .bc => t.regs.b = hi ∧ t.regs.c = lo
         | .de => t.regs.d = hi ∧ t.regs.e = lo
         | .hl => t.regs.h = hi ∧ t.regs.l = lo
         | .psw => t.regs.a = hi ∧ t.flags.s = lo.getLsbD 7 ∧ t.flags.z = lo.getLsbD 6 ∧ t.flags.ac = lo.getLsbD 4 ∧
             t.flags.p = lo.getLsbD 2 ∧ t.flags.cy = lo.getLsbD 0)) ∧
    (¬ Present s s.sp → StopsAt (exec (.pop p) s) s.sp .read) ∧
    (Present s s.sp → ¬ Present s (s.sp + 1) → StopsAt (exec (.pop p) s) (s.sp + 1) .read)

/-- PUSH and then POP of the same pair, with the stack in RAM, restore the registers, the flags and `sp`, whatever
`PSW_FILL` is (R241). -/
def Obligations.PopUndoesPush : Prop :=
  ∀ (p : PairPSW) (s : State), Memory.wf s.mem = true → s.kindAt (s.sp - 1) = .ram → s.kindAt (s.sp - 2) = .ram →
    ∃ t u, exec (.push p) s = .next t ∧ exec (.pop p) t = .next u ∧ u.regs = s.regs ∧ u.flags = s.flags ∧ u.sp = s.sp

/-- XTHL exchanges L with the byte at `sp` and H with the byte at `sp` + 1 (R242; the order of its accesses is decision
D32). -/
def Obligations.XthlExchangesHlWithTheStack : Prop :=
  ∀ s : State, Memory.wf s.mem = true → Form .xthl [0xE3] 5 16 ∧
    (Present s s.sp → Present s (s.sp + 1) →
      ∃ t, exec .xthl s = .next t ∧ t.regs.l = s.byteAt s.sp ∧ t.regs.h = s.byteAt (s.sp + 1) ∧
        Written s t s.sp s.regs.l ∧ Written s t (s.sp + 1) s.regs.h ∧ MemKeptBut s t [s.sp, s.sp + 1] ∧ t.sp = s.sp ∧
        t.flags = s.flags ∧ t.pc = s.pc + 1 ∧ RegsKeptBut s t [.h, .l] ∧ RestKept s t) ∧
    (¬ Present s s.sp → StopsAt (exec .xthl s) s.sp .read) ∧
    (Present s s.sp → ¬ Present s (s.sp + 1) → StopsAt (exec .xthl s) (s.sp + 1) .read)

/-- IN loads A with what the environment presents, or with a fresh draw, which nothing constrains, and writes no memory and
no flag (R244, decision D10; the form of the draw is log entry 4). -/
def Obligations.InLoadsFromTheEnvironment : Prop :=
  ∀ (p : Byte) (s : State), Form (.inp p) [0xDB, p] 3 10 ∧
    ∃ t, exec (.inp p) s = .next t ∧ (∀ v, s.env.inputs.portIn = some v → t.regs.a = v ∧ t.env = s.env) ∧
      (s.env.inputs.portIn = none →
        t.regs.a = Config.portByte (p ++ p) s.env.draws ∧ t.env = { s.env with draws := s.env.draws + 1 }) ∧
      t.flags = s.flags ∧ t.pc = s.pc + 2 ∧ RegsKeptBut s t [.a] ∧ t.sp = s.sp ∧ MemKept s t ∧ t.ctl = s.ctl ∧
      t.params = s.params

/-- OUT adds the event (port, A) to the output trace and changes nothing else but `pc` (R245, decision D10). -/
def Obligations.OutDeliversA : Prop :=
  ∀ (p : Byte) (s : State), Form (.out p) [0xD3, p] 3 10 ∧
    ∃ t, exec (.out p) s = .next t ∧ t.env = { s.env with out := s.env.out ++ [.port p s.regs.a] } ∧
      t.flags = s.flags ∧ t.pc = s.pc + 2 ∧ RegsKeptBut s t [] ∧ t.sp = s.sp ∧ MemKept s t ∧ t.ctl = s.ctl ∧
      t.params = s.params

/-- NOP moves `pc` on; DI resets `IE`; EI sets it, and `ei_shadow` where `EI_DELAY` = 1 (decision D14); HLT sets `halted`
with `pc` after it (decision D23); each touches nothing else (R250 to R253). -/
def Obligations.NopDiEiHltControlTheMachine : Prop :=
  ∀ s : State,
    (Form .nop [0x00] 1 4 ∧ ∃ t, exec .nop s = .next t ∧ t.pc = s.pc + 1 ∧ OnlyPc s t) ∧
    (Form .di [0xF3] 1 4 ∧
      ∃ t, exec .di s = .next t ∧ t = { s with pc := s.pc + 1, ctl := { s.ctl with ie := false } }) ∧
    (Form .ei [0xFB] 1 4 ∧
      ∃ t, exec .ei s = .next t ∧ t = { s with
        pc := s.pc + 1
        ctl := { s.ctl with ie := true, eiShadow := if s.params.eiDelay then true else s.ctl.eiShadow } }) ∧
    (encode .hlt = [0x76] ∧
      ∃ t, exec .hlt s = .next t ∧ t = { s with pc := s.pc + 1, ctl := { s.ctl with halted := true } })

/-- RIM loads A with SID, R75, the lines of RST 6.5 and 5.5, IE and the masks, from bit D7 down, and changes nothing else
but `pc` and, where the inputs name no serial bit, the count of draws (R257, decisions D16, D28; the count is log entry 4). That the two lines are at
the level the step sampled is the model's choice (log entry 16, DESIGN CHOICE). -/
def Obligations.RimReadsTheInterruptState : Prop :=
  ∀ s : State, Form .rim [0x20] 1 4 ∧
    ∃ t, exec .rim s = .next t ∧ (∀ b, s.env.inputs.sid = some b → t.regs.a.getLsbD 7 = b ∧ t.env = s.env) ∧
      (s.env.inputs.sid = none → t.env = { s.env with draws := s.env.draws + 1 }) ∧
      t.regs.a.getLsbD 6 = s.ctl.r75 ∧ t.regs.a.getLsbD 5 = s.env.inputs.line65 ∧
      t.regs.a.getLsbD 4 = s.env.inputs.line55 ∧ t.regs.a.getLsbD 3 = s.ctl.ie ∧ t.regs.a.getLsbD 2 = s.ctl.m75 ∧
      t.regs.a.getLsbD 1 = s.ctl.m65 ∧ t.regs.a.getLsbD 0 = s.ctl.m55 ∧ t.flags = s.flags ∧ t.pc = s.pc + 1 ∧
      RegsKeptBut s t [.a] ∧ t.sp = s.sp ∧ MemKept s t ∧ t.ctl = s.ctl ∧ t.params = s.params

/-- SIM: the masks from D2 D1 D0 where D3 is 1, `R75` reset where D4 is 1, `SOD` from D7 where D6 is 1, each group kept
where its bit is 0 (decision D27); D5, TRAP and `IE` play no part (R258). The trace gets one event exactly where `SOD` changes
(decision D36; that a write of the same value is no event is log entry 14, DEDUCED). -/
def Obligations.SimWritesMasksR75AndSod : Prop :=
  ∀ s : State, Form .sim [0x30] 1 4 ∧
    let a := s.regs.a
    ∃ t, exec .sim s = .next t ∧
      (a.getLsbD 3 = true → t.ctl.m75 = a.getLsbD 2 ∧ t.ctl.m65 = a.getLsbD 1 ∧ t.ctl.m55 = a.getLsbD 0) ∧
      (a.getLsbD 3 = false → t.ctl.m75 = s.ctl.m75 ∧ t.ctl.m65 = s.ctl.m65 ∧ t.ctl.m55 = s.ctl.m55) ∧
      (t.ctl.r75 = if a.getLsbD 4 then false else s.ctl.r75) ∧
      (t.ctl.sod = if a.getLsbD 6 then a.getLsbD 7 else s.ctl.sod) ∧
      (t.env.out = s.env.out ++ if t.ctl.sod = s.ctl.sod then [] else [.sod t.ctl.sod]) ∧
      t.env.inputs = s.env.inputs ∧ t.env.script = s.env.script ∧ t.env.draws = s.env.draws ∧
      t.ctl.ie = s.ctl.ie ∧ t.ctl.halted = s.ctl.halted ∧ t.ctl.eiShadow = s.ctl.eiShadow ∧
      t.ctl.trapReq = s.ctl.trapReq ∧ t.flags = s.flags ∧ t.pc = s.pc + 1 ∧ RegsKeptBut s t [] ∧ t.sp = s.sp ∧
      MemKept s t ∧ t.params = s.params
end

