-- ==== Sys2Proof/Laws/Decode.lean ====
section
/-! SUPPORT. Small facts about bytes and words, register codes, opcode lengths and the decoder's answers. -/

namespace Sys2Proof

/-- A word is its high-order byte and its low-order byte. -/
theorem word_of_bytes (v : Word) : v.extractLsb' 8 8 ++ v.extractLsb' 0 8 = v := by
  have := v.isLt
  apply BitVec.eq_of_toNat_eq
  rw [BitVec.toNat_append, ← Nat.shiftLeft_add_eq_or_of_lt (BitVec.isLt _)]
  simp only [BitVec.extractLsb'_toNat, Nat.shiftLeft_eq, Nat.shiftRight_eq_div_pow]
  omega

theorem lowByte_append (hi lo : Byte) : (hi ++ lo : Word).extractLsb' 0 8 = lo := by
  have := lo.isLt
  apply BitVec.eq_of_toNat_eq
  simp only [BitVec.toNat_append, BitVec.extractLsb'_toNat]
  rw [← Nat.shiftLeft_add_eq_or_of_lt lo.isLt, Nat.shiftLeft_eq, Nat.shiftRight_eq_div_pow]
  omega

theorem highByte_append (hi lo : Byte) : (hi ++ lo : Word).extractLsb' 8 8 = hi := by
  have := lo.isLt
  have := hi.isLt
  apply BitVec.eq_of_toNat_eq
  simp only [BitVec.toNat_append, BitVec.extractLsb'_toNat]
  rw [← Nat.shiftLeft_add_eq_or_of_lt lo.isLt, Nat.shiftLeft_eq, Nat.shiftRight_eq_div_pow]
  omega

/-- The unsigned value of a word in terms of its bytes. -/
theorem append_toNat (hi lo : Byte) : (hi ++ lo : Word).toNat = hi.toNat * 256 + lo.toNat := by
  rw [BitVec.toNat_append, ← Nat.shiftLeft_add_eq_or_of_lt lo.isLt, Nat.shiftLeft_eq]

theorem regOfCode_regCode (r : Reg) : regOfCode (regCode r) = some r := by cases r <;> rfl

/-- A 3-bit field has eight values. -/
theorem field3_cases (n : BitVec 3) : n = 0 ∨ n = 1 ∨ n = 2 ∨ n = 3 ∨ n = 4 ∨ n = 5 ∨ n = 6 ∨ n = 7 := by
  have := n.isLt
  bv_omega

/-- A length is 1, 2 or 3 (R84). -/
theorem opcodeLength_cases (op : Byte) : opcodeLength op = 1 ∨ opcodeLength op = 2 ∨ opcodeLength op = 3 := by
  unfold opcodeLength
  split <;> (try split) <;> (try split) <;> simp

end Sys2Proof
end

