-- ==== Sys2Proof/Laws/State.lean ====
section
/-! SUPPORT. One lemma per field per update of State, each true by rfl, so that no proof unfolds a record update. -/

namespace Sys2Proof.Machine

variable (s : State)

@[simp] theorem State.setRegs_regs (x : Regs) : (s.setRegs x).regs = x := rfl
@[simp] theorem State.setRegs_flags (x : Regs) : (s.setRegs x).flags = s.flags := rfl
@[simp] theorem State.setRegs_pc (x : Regs) : (s.setRegs x).pc = s.pc := rfl
@[simp] theorem State.setRegs_sp (x : Regs) : (s.setRegs x).sp = s.sp := rfl
@[simp] theorem State.setRegs_ctl (x : Regs) : (s.setRegs x).ctl = s.ctl := rfl
@[simp] theorem State.setRegs_mem (x : Regs) : (s.setRegs x).mem = s.mem := rfl
@[simp] theorem State.setRegs_env (x : Regs) : (s.setRegs x).env = s.env := rfl
@[simp] theorem State.setRegs_params (x : Regs) : (s.setRegs x).params = s.params := rfl

@[simp] theorem State.setFlags_regs (x : Flags) : (s.setFlags x).regs = s.regs := rfl
@[simp] theorem State.setFlags_flags (x : Flags) : (s.setFlags x).flags = x := rfl
@[simp] theorem State.setFlags_pc (x : Flags) : (s.setFlags x).pc = s.pc := rfl
@[simp] theorem State.setFlags_sp (x : Flags) : (s.setFlags x).sp = s.sp := rfl
@[simp] theorem State.setFlags_ctl (x : Flags) : (s.setFlags x).ctl = s.ctl := rfl
@[simp] theorem State.setFlags_mem (x : Flags) : (s.setFlags x).mem = s.mem := rfl
@[simp] theorem State.setFlags_env (x : Flags) : (s.setFlags x).env = s.env := rfl
@[simp] theorem State.setFlags_params (x : Flags) : (s.setFlags x).params = s.params := rfl

@[simp] theorem State.setPc_regs (x : Word) : (s.setPc x).regs = s.regs := rfl
@[simp] theorem State.setPc_flags (x : Word) : (s.setPc x).flags = s.flags := rfl
@[simp] theorem State.setPc_pc (x : Word) : (s.setPc x).pc = x := rfl
@[simp] theorem State.setPc_sp (x : Word) : (s.setPc x).sp = s.sp := rfl
@[simp] theorem State.setPc_ctl (x : Word) : (s.setPc x).ctl = s.ctl := rfl
@[simp] theorem State.setPc_mem (x : Word) : (s.setPc x).mem = s.mem := rfl
@[simp] theorem State.setPc_env (x : Word) : (s.setPc x).env = s.env := rfl
@[simp] theorem State.setPc_params (x : Word) : (s.setPc x).params = s.params := rfl

@[simp] theorem State.setSp_regs (x : Word) : (s.setSp x).regs = s.regs := rfl
@[simp] theorem State.setSp_flags (x : Word) : (s.setSp x).flags = s.flags := rfl
@[simp] theorem State.setSp_pc (x : Word) : (s.setSp x).pc = s.pc := rfl
@[simp] theorem State.setSp_sp (x : Word) : (s.setSp x).sp = x := rfl
@[simp] theorem State.setSp_ctl (x : Word) : (s.setSp x).ctl = s.ctl := rfl
@[simp] theorem State.setSp_mem (x : Word) : (s.setSp x).mem = s.mem := rfl
@[simp] theorem State.setSp_env (x : Word) : (s.setSp x).env = s.env := rfl
@[simp] theorem State.setSp_params (x : Word) : (s.setSp x).params = s.params := rfl

@[simp] theorem State.setCtl_regs (x : Control) : (s.setCtl x).regs = s.regs := rfl
@[simp] theorem State.setCtl_flags (x : Control) : (s.setCtl x).flags = s.flags := rfl
@[simp] theorem State.setCtl_pc (x : Control) : (s.setCtl x).pc = s.pc := rfl
@[simp] theorem State.setCtl_sp (x : Control) : (s.setCtl x).sp = s.sp := rfl
@[simp] theorem State.setCtl_ctl (x : Control) : (s.setCtl x).ctl = x := rfl
@[simp] theorem State.setCtl_mem (x : Control) : (s.setCtl x).mem = s.mem := rfl
@[simp] theorem State.setCtl_env (x : Control) : (s.setCtl x).env = s.env := rfl
@[simp] theorem State.setCtl_params (x : Control) : (s.setCtl x).params = s.params := rfl

@[simp] theorem State.setMem_regs (x : Memory) : (s.setMem x).regs = s.regs := rfl
@[simp] theorem State.setMem_flags (x : Memory) : (s.setMem x).flags = s.flags := rfl
@[simp] theorem State.setMem_pc (x : Memory) : (s.setMem x).pc = s.pc := rfl
@[simp] theorem State.setMem_sp (x : Memory) : (s.setMem x).sp = s.sp := rfl
@[simp] theorem State.setMem_ctl (x : Memory) : (s.setMem x).ctl = s.ctl := rfl
@[simp] theorem State.setMem_mem (x : Memory) : (s.setMem x).mem = x := rfl
@[simp] theorem State.setMem_env (x : Memory) : (s.setMem x).env = s.env := rfl
@[simp] theorem State.setMem_params (x : Memory) : (s.setMem x).params = s.params := rfl

@[simp] theorem State.setEnv_regs (x : Env) : (s.setEnv x).regs = s.regs := rfl
@[simp] theorem State.setEnv_flags (x : Env) : (s.setEnv x).flags = s.flags := rfl
@[simp] theorem State.setEnv_pc (x : Env) : (s.setEnv x).pc = s.pc := rfl
@[simp] theorem State.setEnv_sp (x : Env) : (s.setEnv x).sp = s.sp := rfl
@[simp] theorem State.setEnv_ctl (x : Env) : (s.setEnv x).ctl = s.ctl := rfl
@[simp] theorem State.setEnv_mem (x : Env) : (s.setEnv x).mem = s.mem := rfl
@[simp] theorem State.setEnv_env (x : Env) : (s.setEnv x).env = x := rfl
@[simp] theorem State.setEnv_params (x : Env) : (s.setEnv x).params = s.params := rfl

/-! `pc <- next`. -/

@[simp] theorem State.advance_regs (n : Nat) : (s.advance n).regs = s.regs := rfl
@[simp] theorem State.advance_flags (n : Nat) : (s.advance n).flags = s.flags := rfl
@[simp] theorem State.advance_pc (n : Nat) : (s.advance n).pc = s.nextPc n := rfl
@[simp] theorem State.advance_sp (n : Nat) : (s.advance n).sp = s.sp := rfl
@[simp] theorem State.advance_ctl (n : Nat) : (s.advance n).ctl = s.ctl := rfl
@[simp] theorem State.advance_mem (n : Nat) : (s.advance n).mem = s.mem := rfl
@[simp] theorem State.advance_env (n : Nat) : (s.advance n).env = s.env := rfl
@[simp] theorem State.advance_params (n : Nat) : (s.advance n).params = s.params := rfl

/-! A register write. -/

@[simp] theorem State.setReg_regs (r : Reg) (v : Byte) : (s.setReg r v).regs = s.regs.set r v := rfl
@[simp] theorem State.setReg_flags (r : Reg) (v : Byte) : (s.setReg r v).flags = s.flags := rfl
@[simp] theorem State.setReg_pc (r : Reg) (v : Byte) : (s.setReg r v).pc = s.pc := rfl
@[simp] theorem State.setReg_sp (r : Reg) (v : Byte) : (s.setReg r v).sp = s.sp := rfl
@[simp] theorem State.setReg_ctl (r : Reg) (v : Byte) : (s.setReg r v).ctl = s.ctl := rfl
@[simp] theorem State.setReg_mem (r : Reg) (v : Byte) : (s.setReg r v).mem = s.mem := rfl
@[simp] theorem State.setReg_env (r : Reg) (v : Byte) : (s.setReg r v).env = s.env := rfl
@[simp] theorem State.setReg_params (r : Reg) (v : Byte) : (s.setReg r v).params = s.params := rfl

/-! One more draw, and one more event. -/

@[simp] theorem State.drawn_regs : s.drawn.regs = s.regs := rfl
@[simp] theorem State.drawn_flags : s.drawn.flags = s.flags := rfl
@[simp] theorem State.drawn_pc : s.drawn.pc = s.pc := rfl
@[simp] theorem State.drawn_sp : s.drawn.sp = s.sp := rfl
@[simp] theorem State.drawn_ctl : s.drawn.ctl = s.ctl := rfl
@[simp] theorem State.drawn_mem : s.drawn.mem = s.mem := rfl
@[simp] theorem State.drawn_env : s.drawn.env = { s.env with draws := s.env.draws + 1 } := rfl
@[simp] theorem State.drawn_params : s.drawn.params = s.params := rfl
@[simp] theorem State.emit_regs (e : OutEvent) : (s.emit e).regs = s.regs := rfl
@[simp] theorem State.emit_flags (e : OutEvent) : (s.emit e).flags = s.flags := rfl
@[simp] theorem State.emit_pc (e : OutEvent) : (s.emit e).pc = s.pc := rfl
@[simp] theorem State.emit_sp (e : OutEvent) : (s.emit e).sp = s.sp := rfl
@[simp] theorem State.emit_ctl (e : OutEvent) : (s.emit e).ctl = s.ctl := rfl
@[simp] theorem State.emit_mem (e : OutEvent) : (s.emit e).mem = s.mem := rfl
@[simp] theorem State.emit_env (e : OutEvent) : (s.emit e).env = { s.env with out := s.env.out ++ [e] } := rfl
@[simp] theorem State.emit_params (e : OutEvent) : (s.emit e).params = s.params := rfl

/-! The end of a step. -/

@[simp] theorem State.tick_regs : s.tick.regs = s.regs := rfl
@[simp] theorem State.tick_flags : s.tick.flags = s.flags := rfl
@[simp] theorem State.tick_pc : s.tick.pc = s.pc := rfl
@[simp] theorem State.tick_sp : s.tick.sp = s.sp := rfl
@[simp] theorem State.tick_ctl : s.tick.ctl = s.ctl := rfl
@[simp] theorem State.tick_mem : s.tick.mem = s.mem := rfl
@[simp] theorem State.tick_env : s.tick.env = s.env.tick := rfl
@[simp] theorem State.tick_params : s.tick.params = s.params := rfl

/-! What reads one field only. -/

@[simp] theorem State.reg_eq (r : Reg) : s.reg r = s.regs.get r := rfl
@[simp] theorem State.setRegs_byteAt (x : Regs) (a : Word) : (s.setRegs x).byteAt a = s.byteAt a := rfl
@[simp] theorem State.setFlags_byteAt (x : Flags) (a : Word) : (s.setFlags x).byteAt a = s.byteAt a := rfl
@[simp] theorem State.setPc_byteAt (x : Word) (a : Word) : (s.setPc x).byteAt a = s.byteAt a := rfl
@[simp] theorem State.setSp_byteAt (x : Word) (a : Word) : (s.setSp x).byteAt a = s.byteAt a := rfl
@[simp] theorem State.setCtl_byteAt (x : Control) (a : Word) : (s.setCtl x).byteAt a = s.byteAt a := rfl
@[simp] theorem State.setEnv_byteAt (x : Env) (a : Word) : (s.setEnv x).byteAt a = s.byteAt a := rfl
@[simp] theorem State.setRegs_kindAt (x : Regs) (a : Word) : (s.setRegs x).kindAt a = s.kindAt a := rfl
@[simp] theorem State.setFlags_kindAt (x : Flags) (a : Word) : (s.setFlags x).kindAt a = s.kindAt a := rfl
@[simp] theorem State.setPc_kindAt (x : Word) (a : Word) : (s.setPc x).kindAt a = s.kindAt a := rfl
@[simp] theorem State.setSp_kindAt (x : Word) (a : Word) : (s.setSp x).kindAt a = s.kindAt a := rfl
@[simp] theorem State.setCtl_kindAt (x : Control) (a : Word) : (s.setCtl x).kindAt a = s.kindAt a := rfl
@[simp] theorem State.setMem_kindAt (x : Memory) (a : Word) : (s.setMem x).kindAt a = s.kindAt a := rfl
@[simp] theorem State.setEnv_kindAt (x : Env) (a : Word) : (s.setEnv x).kindAt a = s.kindAt a := rfl

/-! Sampling changes two latches. -/

@[simp] theorem sampleInterrupts_regs : (sampleInterrupts s).regs = s.regs := rfl
@[simp] theorem sampleInterrupts_flags : (sampleInterrupts s).flags = s.flags := rfl
@[simp] theorem sampleInterrupts_pc : (sampleInterrupts s).pc = s.pc := rfl
@[simp] theorem sampleInterrupts_sp : (sampleInterrupts s).sp = s.sp := rfl
@[simp] theorem sampleInterrupts_mem : (sampleInterrupts s).mem = s.mem := rfl
@[simp] theorem sampleInterrupts_env : (sampleInterrupts s).env = s.env := rfl
@[simp] theorem sampleInterrupts_kindAt (a : Word) : (sampleInterrupts s).kindAt a = s.kindAt a := rfl
@[simp] theorem sampleInterrupts_byteAt (a : Word) : (sampleInterrupts s).byteAt a = s.byteAt a := rfl
@[simp] theorem sampleInterrupts_params : (sampleInterrupts s).params = s.params := rfl
@[simp] theorem sampleInterrupts_ctl_ie : (sampleInterrupts s).ctl.ie = s.ctl.ie := rfl
@[simp] theorem sampleInterrupts_ctl_m75 : (sampleInterrupts s).ctl.m75 = s.ctl.m75 := rfl
@[simp] theorem sampleInterrupts_ctl_m65 : (sampleInterrupts s).ctl.m65 = s.ctl.m65 := rfl
@[simp] theorem sampleInterrupts_ctl_m55 : (sampleInterrupts s).ctl.m55 = s.ctl.m55 := rfl
@[simp] theorem sampleInterrupts_ctl_sod : (sampleInterrupts s).ctl.sod = s.ctl.sod := rfl
@[simp] theorem sampleInterrupts_ctl_halted : (sampleInterrupts s).ctl.halted = s.ctl.halted := rfl
@[simp] theorem sampleInterrupts_ctl_eiShadow : (sampleInterrupts s).ctl.eiShadow = s.ctl.eiShadow := rfl
@[simp] theorem sampleInterrupts_ctl_r75 :
    (sampleInterrupts s).ctl.r75 = (s.ctl.r75 || s.env.inputs.rst75Request) := rfl
@[simp] theorem sampleInterrupts_ctl_trapReq :
    (sampleInterrupts s).ctl.trapReq = (s.ctl.trapReq || s.env.inputs.trapRequest) := rfl

/-! Registers. -/

theorem Regs.get_set_self (g : Regs) (r : Reg) (v : Byte) : (g.set r v).get r = v := by
  cases r <;> rfl

theorem Regs.get_set_other (g : Regs) (r q : Reg) (v : Byte) (h : q ≠ r) : (g.set r v).get q = g.get q := by
  cases r <;> cases q <;> first | rfl | exact absurd rfl h

/-- The environment's clock writes neither the trace nor the draws. -/
@[simp] theorem Env.tick_out (e : Env) : e.tick.out = e.out := by
  unfold Env.tick; split <;> rfl

@[simp] theorem Env.tick_draws (e : Env) : e.tick.draws = e.draws := by
  unfold Env.tick; split <;> rfl

end Sys2Proof.Machine
end

