-- ==== Sys2Proof/Laws/Memory.lean ====
section
/-! SUPPORT. The laws of memory: what a read after a write gives, and that a write keeps the canonical form. -/

namespace Sys2Proof.Machine

theorem Memory.wfFrom_cons (lo k : Nat) (v : Byte) (m : Memory) :
    Memory.wfFrom lo ((k, v) :: m) = true ↔
      lo ≤ k ∧ k < 65536 ∧ v ≠ memUnlisted ∧ Memory.wfFrom (k + 1) m = true := by
  simp [Memory.wfFrom, and_assoc]

theorem Memory.wfFrom_mono {lo lo' : Nat} {m : Memory} (h : lo' ≤ lo) (hm : Memory.wfFrom lo m = true) :
    Memory.wfFrom lo' m = true := by
  cases m with
  | nil => rfl
  | cons c m =>
    rw [Memory.wfFrom_cons] at hm ⊢
    exact ⟨by omega, hm.2⟩

/-- Below every listed address a memory holds what an unlisted address holds. -/
theorem Memory.lookup_below {lo a : Nat} {m : Memory} (hm : Memory.wfFrom lo m = true) (h : a < lo) :
    Memory.lookup m a = memUnlisted := by
  induction m generalizing lo with
  | nil => rfl
  | cons c m ih =>
    obtain ⟨k, v⟩ := c
    rw [Memory.wfFrom_cons] at hm
    rw [Memory.lookup, if_neg (by omega)]
    exact ih hm.2.2.2 (by omega)

/-- A write leaves every other address alone. -/
theorem Memory.lookup_store_other {m : Memory} {a x : Nat} (b : Byte) (h : x ≠ a) :
    Memory.lookup (Memory.store m a b) x = Memory.lookup m x := by
  induction m with
  | nil =>
    unfold Memory.store
    split
    · rfl
    · show (if a = x then b else Memory.lookup [] x) = _
      rw [if_neg (Ne.symm h)]
  | cons c m ih =>
    obtain ⟨k, v⟩ := c
    unfold Memory.store
    split
    · split
      · rfl
      · rw [Memory.lookup, if_neg (Ne.symm h)]
    · split
      · rename_i hk
        have hx : k ≠ x := fun e => h (by omega)
        split
        · rw [Memory.lookup, if_neg hx]
        · rw [Memory.lookup, if_neg (Ne.symm h), Memory.lookup, if_neg hx]
      · rw [Memory.lookup, Memory.lookup, ih]

/-- A read after a write to the same address gives the byte written. -/
theorem Memory.lookup_store_self {lo a : Nat} {m : Memory} (b : Byte) (hm : Memory.wfFrom lo m = true) :
    Memory.lookup (Memory.store m a b) a = b := by
  induction m generalizing lo with
  | nil =>
    unfold Memory.store
    split
    · next h => exact h.symm
    · simp [Memory.lookup]
  | cons c m ih =>
    obtain ⟨k, v⟩ := c
    rw [Memory.wfFrom_cons] at hm
    unfold Memory.store
    split
    · next hak =>
      split
      · next hb =>
        rw [Memory.lookup, if_neg (by omega), hb]
        exact Memory.lookup_below hm.2.2.2 (by omega)
      · simp [Memory.lookup]
    · split
      · next hak =>
        split
        · next hb =>
          rw [hb]
          exact Memory.lookup_below hm.2.2.2 (by omega)
        · simp [Memory.lookup]
      · rw [Memory.lookup, if_neg (by omega)]
        exact ih hm.2.2.2

theorem Memory.wfFrom_store {lo a : Nat} {m : Memory} (b : Byte) (hm : Memory.wfFrom lo m = true) (hl : lo ≤ a)
    (ha : a < 65536) : Memory.wfFrom lo (Memory.store m a b) = true := by
  induction m generalizing lo with
  | nil =>
    unfold Memory.store
    split
    · rfl
    · next hb => exact (Memory.wfFrom_cons _ _ _ _).2 ⟨hl, ha, hb, rfl⟩
  | cons c m ih =>
    obtain ⟨k, v⟩ := c
    have hc := (Memory.wfFrom_cons _ _ _ _).1 hm
    unfold Memory.store
    split
    · next hak =>
      split
      · exact hm
      · next hb =>
        exact (Memory.wfFrom_cons _ _ _ _).2
          ⟨hl, ha, hb, (Memory.wfFrom_cons _ _ _ _).2 ⟨by omega, hc.2⟩⟩
    · split
      · next hak =>
        split
        · exact Memory.wfFrom_mono (by omega) hc.2.2.2
        · next hb => exact (Memory.wfFrom_cons _ _ _ _).2 ⟨hl, ha, hb, Memory.wfFrom_mono (by omega) hc.2.2.2⟩
      · exact (Memory.wfFrom_cons _ _ _ _).2 ⟨hc.1, hc.2.1, hc.2.2.1, ih hc.2.2.2 (by omega)⟩

/-- The one write of memory keeps the canonical form. -/
theorem Memory.wf_store {m : Memory} (a : Word) (b : Byte) (hm : Memory.wf m = true) :
    Memory.wf (Memory.store m a.toNat b) = true :=
  Memory.wfFrom_store b hm (Nat.zero_le _) a.isLt

theorem Memory.lookup_store_word_self {m : Memory} (a : Word) (b : Byte) (hm : Memory.wf m = true) :
    Memory.lookup (Memory.store m a.toNat b) a.toNat = b :=
  Memory.lookup_store_self b hm

theorem Memory.lookup_store_word_other {m : Memory} (a x : Word) (b : Byte) (h : x ≠ a) :
    Memory.lookup (Memory.store m a.toNat b) x.toNat = Memory.lookup m x.toNat :=
  Memory.lookup_store_other b fun e => h (BitVec.eq_of_toNat_eq e)

/-- The memory after reset has the canonical form. -/
theorem reset_mem_wf : Memory.wf State.reset.mem = true := rfl

end Sys2Proof.Machine
end

