-- ==== Sys2Proof/Laws/Ops.lean ====
section
/-! SUPPORT. For each shared operation, once, all that it can do: what holds if it answers a next state, and when it
answers one. The proofs cite these instead of unfolding the operation. -/

namespace Sys2Proof.Machine

/-! ## andThen -/

@[simp] theorem andThen_next {α β : Type} (v : α) (f : α → Result β) : andThen (.next v) f = f v := rfl
@[simp] theorem andThen_fault {α β : Type} (r : Fault) (f : α → Result β) : andThen (.fault r) f = .fault r := rfl
@[simp] theorem andThen_refused {α β : Type} (r : Refusal) (f : α → Result β) :
    andThen (.refused r) f = .refused r := rfl

/-- A sequence answers a next value only if its first part does. -/
theorem andThen_eq_next {α β : Type} {x : Result α} {f : α → Result β} {w : β} (h : andThen x f = .next w) :
    ∃ v, x = .next v ∧ f v = .next w := by
  cases x with
  | next v => exact ⟨v, rfl, h⟩
  | fault r => cases h
  | refused r => cases h

/-! ## Memory accesses -/

theorem loadByte_present {acc : Access} {s : State} {a : Word} (h : s.kindAt a ≠ .absent) :
    loadByte acc s a = .next (s.byteAt a) := by
  unfold loadByte; split <;> simp_all

theorem loadByte_absent {acc : Access} {s : State} {a : Word} (h : s.kindAt a = .absent) :
    loadByte acc s a = .fault (.unmappedAccess a acc) := by
  unfold loadByte; rw [h]

theorem loadByte_eq_next {acc : Access} {s : State} {a : Word} {v : Byte} (h : loadByte acc s a = .next v) :
    s.kindAt a ≠ .absent ∧ v = s.byteAt a := by
  by_cases hk : s.kindAt a = .absent
  · rw [loadByte_absent hk] at h; cases h
  · rw [loadByte_present hk] at h; cases h; exact ⟨hk, rfl⟩

theorem memRead_present {s : State} {a : Word} (h : s.kindAt a ≠ .absent) : memRead s a = .next (s.byteAt a) :=
  loadByte_present h

theorem memRead_absent {s : State} {a : Word} (h : s.kindAt a = .absent) :
    memRead s a = .fault (.unmappedAccess a .read) :=
  loadByte_absent h

theorem memRead_eq_next {s : State} {a : Word} {v : Byte} (h : memRead s a = .next v) :
    s.kindAt a ≠ .absent ∧ v = s.byteAt a :=
  loadByte_eq_next h

theorem fetchByte_present {s : State} {a : Word} (h : s.kindAt a ≠ .absent) : fetchByte s a = .next (s.byteAt a) :=
  loadByte_present h

theorem fetchByte_absent {s : State} {a : Word} (h : s.kindAt a = .absent) :
    fetchByte s a = .fault (.unmappedAccess a .fetch) :=
  loadByte_absent h

/-- The state a write leaves where the address is not absent (R54). -/
def stored (s : State) (a : Word) (v : Byte) : State :=
  if s.kindAt a = .rom then s else s.setMem (Memory.store s.mem a.toNat v)

theorem memWrite_present {s : State} {a : Word} (v : Byte) (h : s.kindAt a ≠ .absent) :
    memWrite s a v = .next (stored s a v) := by
  unfold memWrite stored; split <;> simp_all

theorem memWrite_absent {s : State} {a : Word} (v : Byte) (h : s.kindAt a = .absent) :
    memWrite s a v = .fault (.unmappedAccess a .write) := by
  unfold memWrite; rw [h]

theorem memWrite_eq_next {s t : State} {a : Word} {v : Byte} (h : memWrite s a v = .next t) :
    s.kindAt a ≠ .absent ∧ t = stored s a v := by
  by_cases hk : s.kindAt a = .absent
  · rw [memWrite_absent v hk] at h; cases h
  · rw [memWrite_present v hk] at h; cases h; exact ⟨hk, rfl⟩

@[simp] theorem stored_regs (s : State) (a : Word) (v : Byte) : (stored s a v).regs = s.regs := by
  unfold stored; split <;> rfl
@[simp] theorem stored_flags (s : State) (a : Word) (v : Byte) : (stored s a v).flags = s.flags := by
  unfold stored; split <;> rfl
@[simp] theorem stored_pc (s : State) (a : Word) (v : Byte) : (stored s a v).pc = s.pc := by
  unfold stored; split <;> rfl
@[simp] theorem stored_sp (s : State) (a : Word) (v : Byte) : (stored s a v).sp = s.sp := by
  unfold stored; split <;> rfl
@[simp] theorem stored_ctl (s : State) (a : Word) (v : Byte) : (stored s a v).ctl = s.ctl := by
  unfold stored; split <;> rfl
@[simp] theorem stored_env (s : State) (a : Word) (v : Byte) : (stored s a v).env = s.env := by
  unfold stored; split <;> rfl
@[simp] theorem stored_params (s : State) (a : Word) (v : Byte) : (stored s a v).params = s.params := by
  unfold stored; split <;> rfl
@[simp] theorem stored_kindAt (s : State) (a x : Word) (v : Byte) : (stored s a v).kindAt x = s.kindAt x := by
  unfold State.kindAt; rw [stored_params]

/-- A write leaves every other address alone. -/
theorem stored_byteAt_other {s : State} {a x : Word} (v : Byte) (h : x ≠ a) : (stored s a v).byteAt x = s.byteAt x := by
  unfold stored; split
  · rfl
  · exact Memory.lookup_store_word_other a x v h

/-- What the address written to holds after the write: the byte in RAM, what was there in ROM. -/
theorem stored_byteAt_self {s : State} (a : Word) (v : Byte) (hm : Memory.wf s.mem = true) :
    (stored s a v).byteAt a = if s.kindAt a = .rom then s.byteAt a else v := by
  unfold stored; split
  · rfl
  · exact Memory.lookup_store_word_self a v hm

theorem stored_wf {s : State} (a : Word) (v : Byte) (hm : Memory.wf s.mem = true) : Memory.wf (stored s a v).mem = true := by
  unfold stored; split
  · exact hm
  · exact Memory.wf_store a v hm

/-! ## The stack -/

/-- The state a push leaves: two bytes stored below `sp`, `sp` two lower (R201). -/
def pushed (s : State) (hi lo : Byte) : State :=
  stored ((stored (s.setSp (s.sp - 1)) (s.sp - 1) hi).setSp (s.sp - 1 - 1)) (s.sp - 1 - 1) lo

theorem pushBytes_present {s : State} (hi lo : Byte) (h1 : s.kindAt (s.sp - 1) ≠ .absent)
    (h2 : s.kindAt (s.sp - 1 - 1) ≠ .absent) : pushBytes s hi lo = .next (pushed s hi lo) := by
  unfold pushBytes
  rw [memWrite_present (s := s.setSp (s.sp - 1)) hi h1, andThen_next]
  simp only [stored_sp, State.setSp_sp]
  rw [memWrite_present lo (by simpa using h2)]
  rfl

/-- A push whose first byte is absent stops there. -/
theorem pushBytes_absent_first {s : State} (hi lo : Byte) (h : s.kindAt (s.sp - 1) = .absent) :
    pushBytes s hi lo = .fault (.unmappedAccess (s.sp - 1) .write) := by
  unfold pushBytes
  rw [memWrite_absent (s := s.setSp (s.sp - 1)) hi h, andThen_fault]

/-- A push of which only the second byte is absent stops there. -/
theorem pushBytes_absent_second {s : State} (hi lo : Byte) (h1 : s.kindAt (s.sp - 1) ≠ .absent)
    (h2 : s.kindAt (s.sp - 1 - 1) = .absent) : pushBytes s hi lo = .fault (.unmappedAccess (s.sp - 1 - 1) .write) := by
  unfold pushBytes
  rw [memWrite_present (s := s.setSp (s.sp - 1)) hi h1, andThen_next]
  simp only [stored_sp, State.setSp_sp]
  rw [memWrite_absent lo (by simpa using h2)]

theorem pushBytes_eq_next {s t : State} {hi lo : Byte} (h : pushBytes s hi lo = .next t) :
    s.kindAt (s.sp - 1) ≠ .absent ∧ s.kindAt (s.sp - 1 - 1) ≠ .absent ∧ t = pushed s hi lo := by
  obtain ⟨s1, h1, h2⟩ := andThen_eq_next h
  obtain ⟨k1, rfl⟩ := memWrite_eq_next h1
  obtain ⟨k2, rfl⟩ := memWrite_eq_next h2
  simp only [stored_sp, State.setSp_sp, State.setSp_kindAt, stored_kindAt] at k1 k2 ⊢
  exact ⟨k1, k2, rfl⟩

@[simp] theorem pushed_regs (s : State) (hi lo : Byte) : (pushed s hi lo).regs = s.regs := by simp [pushed]
@[simp] theorem pushed_flags (s : State) (hi lo : Byte) : (pushed s hi lo).flags = s.flags := by simp [pushed]
@[simp] theorem pushed_pc (s : State) (hi lo : Byte) : (pushed s hi lo).pc = s.pc := by simp [pushed]
@[simp] theorem pushed_sp (s : State) (hi lo : Byte) : (pushed s hi lo).sp = s.sp - 1 - 1 := by simp [pushed]
@[simp] theorem pushed_ctl (s : State) (hi lo : Byte) : (pushed s hi lo).ctl = s.ctl := by simp [pushed]
@[simp] theorem pushed_env (s : State) (hi lo : Byte) : (pushed s hi lo).env = s.env := by simp [pushed]
@[simp] theorem pushed_params (s : State) (hi lo : Byte) : (pushed s hi lo).params = s.params := by simp [pushed]

theorem pushed_wf {s : State} (hi lo : Byte) (hm : Memory.wf s.mem = true) : Memory.wf (pushed s hi lo).mem = true :=
  stored_wf _ _ (stored_wf (s := s.setSp (s.sp - 1)) _ _ hm)

/-- A push leaves every byte but the two below `sp` alone. -/
theorem pushed_byteAt_other {s : State} (hi lo : Byte) {x : Word} (h1 : x ≠ s.sp - 1) (h2 : x ≠ s.sp - 1 - 1) :
    (pushed s hi lo).byteAt x = s.byteAt x := by
  unfold pushed
  rw [stored_byteAt_other _ h2, State.setSp_byteAt, stored_byteAt_other _ h1, State.setSp_byteAt]

theorem popBytes_present {s : State} (h1 : s.kindAt s.sp ≠ .absent) (h2 : s.kindAt (s.sp + 1) ≠ .absent) :
    popBytes s = .next (s.byteAt (s.sp + 1), s.byteAt s.sp, s.setSp (s.sp + 1 + 1)) := by
  unfold popBytes
  rw [memRead_present h1, andThen_next, memRead_present (s := s.setSp (s.sp + 1)) h2]
  rfl

theorem popBytes_eq_next {s t : State} {hi lo : Byte} (h : popBytes s = .next (hi, lo, t)) :
    s.kindAt s.sp ≠ .absent ∧ s.kindAt (s.sp + 1) ≠ .absent ∧
      hi = s.byteAt (s.sp + 1) ∧ lo = s.byteAt s.sp ∧ t = s.setSp (s.sp + 1 + 1) := by
  obtain ⟨v, h1, h2⟩ := andThen_eq_next h
  obtain ⟨w, h3, h4⟩ := andThen_eq_next h2
  obtain ⟨k1, rfl⟩ := memRead_eq_next h1
  obtain ⟨k2, rfl⟩ := memRead_eq_next h3
  cases h4
  exact ⟨k1, k2, rfl, rfl, rfl⟩

/-- A return: `pc` from the two bytes at `sp` and `sp` + 1, `sp` two higher (R201). -/
theorem returnToCaller_present {s : State} (h1 : s.kindAt s.sp ≠ .absent) (h2 : s.kindAt (s.sp + 1) ≠ .absent) :
    returnToCaller s = .next ((s.setSp (s.sp + 1 + 1)).setPc (s.byteAt (s.sp + 1) ++ s.byteAt s.sp)) := by
  unfold returnToCaller; rw [popBytes_present h1 h2]; rfl

theorem returnToCaller_eq_next {s t : State} (h : returnToCaller s = .next t) :
    s.kindAt s.sp ≠ .absent ∧ s.kindAt (s.sp + 1) ≠ .absent ∧
      t = (s.setSp (s.sp + 1 + 1)).setPc (s.byteAt (s.sp + 1) ++ s.byteAt s.sp) := by
  obtain ⟨r, h1, h2⟩ := andThen_eq_next h
  obtain ⟨hi, lo, u⟩ := r
  obtain ⟨k1, k2, rfl, rfl, rfl⟩ := popBytes_eq_next h1
  cases h2
  exact ⟨k1, k2, rfl⟩

/-- A call: the return address pushed, `pc` at the target (R211). -/
theorem callTo_present {s : State} (ret target : Word) (h1 : s.kindAt (s.sp - 1) ≠ .absent)
    (h2 : s.kindAt (s.sp - 1 - 1) ≠ .absent) :
    callTo s ret target = .next ((pushed s (hiByte ret) (loByte ret)).setPc target) := by
  unfold callTo pushPc; rw [pushBytes_present _ _ h1 h2]; rfl

/-- A call stops where its push does. -/
theorem callTo_absent_first {s : State} (ret target : Word) (h : s.kindAt (s.sp - 1) = .absent) :
    callTo s ret target = .fault (.unmappedAccess (s.sp - 1) .write) := by
  unfold callTo pushPc; rw [pushBytes_absent_first _ _ h]; rfl

theorem callTo_absent_second {s : State} (ret target : Word) (h1 : s.kindAt (s.sp - 1) ≠ .absent)
    (h2 : s.kindAt (s.sp - 1 - 1) = .absent) : callTo s ret target = .fault (.unmappedAccess (s.sp - 1 - 1) .write) := by
  unfold callTo pushPc; rw [pushBytes_absent_second _ _ h1 h2]; rfl

theorem callTo_eq_next {s t : State} {ret target : Word} (h : callTo s ret target = .next t) :
    s.kindAt (s.sp - 1) ≠ .absent ∧ s.kindAt (s.sp - 1 - 1) ≠ .absent ∧
      t = (pushed s (hiByte ret) (loByte ret)).setPc target := by
  obtain ⟨u, h1, h2⟩ := andThen_eq_next h
  obtain ⟨k1, k2, rfl⟩ := pushBytes_eq_next h1
  cases h2
  exact ⟨k1, k2, rfl⟩

/-! ## Interrupts -/

/-- What is pending is recognisable, and TRAP is pending whenever its latch is set (R278). -/
theorem pendingInterrupt_recognisable {s : State} {src : IntSource} (h : s.pendingInterrupt = some src) :
    s.recognisable src = true := by
  unfold State.pendingInterrupt at h
  repeat' split at h
  all_goals first | cases h; assumption | cases h

theorem pendingInterrupt_trap {s : State} (h : s.ctl.trapReq = true) : s.pendingInterrupt = some .trap := by
  unfold State.pendingInterrupt; rw [if_pos (show s.recognisable .trap = true from h)]

/-- The admitted bytes in arithmetic: in the set, upper two bits 3, lower three bits 7. -/
theorem admitsInta_iff (p : Params) (b : Byte) :
    admitsInta p b = true ↔ b ∈ p.intaOpcodes ∧ b.toNat / 64 = 3 ∧ b.toNat % 8 = 7 := by
  have hb := b.isLt
  have hg : groupField b = 0b11#2 ↔ b.toNat / 64 = 3 := by
    rw [← BitVec.toNat_inj]
    simp only [groupField, BitVec.extractLsb'_toNat, BitVec.toNat_ofNat, Nat.shiftRight_eq_div_pow]
    omega
  have hl : lowField b = 0b111#3 ↔ b.toNat % 8 = 7 := by
    rw [← BitVec.toNat_inj]
    simp only [lowField, BitVec.extractLsb'_toNat, BitVec.toNat_ofNat, Nat.shiftRight_eq_div_pow]
    omega
  simp only [admitsInta, Bool.and_eq_true, List.contains_iff_mem, decide_eq_true_eq, hg, hl, and_assoc]

/-- Every interrupt taken is the one entry, for an admitted byte where the source is INTR (R280, R281). -/
theorem takeInterrupt_eq_next {s t : State} {src : IntSource} (h : takeInterrupt s src = .next t) :
    interruptEntry s src = .next t ∧ ∀ b, src = .intr b → admitsInta s.params b = true := by
  cases src with
  | intr b =>
    unfold takeInterrupt at h
    dsimp only at h
    split at h
    · next hb => exact ⟨h, fun c e => by cases e; exact hb⟩
    · cases h
  | trap => exact ⟨h, fun c e => by cases e⟩
  | rst75 => exact ⟨h, fun c e => by cases e⟩
  | rst65 => exact ⟨h, fun c e => by cases e⟩
  | rst55 => exact ⟨h, fun c e => by cases e⟩

theorem interruptEntry_eq_next {s t : State} {src : IntSource} (h : interruptEntry s src = .next t) :
    s.kindAt (s.sp - 1) ≠ .absent ∧ s.kindAt (s.sp - 1 - 1) ≠ .absent ∧
      t = (pushed (s.setCtl (s.ctl.afterEntry src)) (hiByte s.pc) (loByte s.pc)).setPc src.restartAddress :=
  callTo_eq_next h

/-! ## Ports, serial lines, the latch of SOD -/

@[simp] theorem ioRead_regs (s : State) (p : Byte) : (ioRead s p).2.regs = s.regs := by unfold ioRead; split <;> rfl
@[simp] theorem ioRead_flags (s : State) (p : Byte) : (ioRead s p).2.flags = s.flags := by unfold ioRead; split <;> rfl
@[simp] theorem ioRead_pc (s : State) (p : Byte) : (ioRead s p).2.pc = s.pc := by unfold ioRead; split <;> rfl
@[simp] theorem ioRead_sp (s : State) (p : Byte) : (ioRead s p).2.sp = s.sp := by unfold ioRead; split <;> rfl
@[simp] theorem ioRead_ctl (s : State) (p : Byte) : (ioRead s p).2.ctl = s.ctl := by unfold ioRead; split <;> rfl
@[simp] theorem ioRead_mem (s : State) (p : Byte) : (ioRead s p).2.mem = s.mem := by unfold ioRead; split <;> rfl
@[simp] theorem ioRead_params (s : State) (p : Byte) : (ioRead s p).2.params = s.params := by unfold ioRead; split <;> rfl

@[simp] theorem sidRead_regs (s : State) : (sidRead s).2.regs = s.regs := by unfold sidRead; split <;> rfl
@[simp] theorem sidRead_flags (s : State) : (sidRead s).2.flags = s.flags := by unfold sidRead; split <;> rfl
@[simp] theorem sidRead_pc (s : State) : (sidRead s).2.pc = s.pc := by unfold sidRead; split <;> rfl
@[simp] theorem sidRead_sp (s : State) : (sidRead s).2.sp = s.sp := by unfold sidRead; split <;> rfl
@[simp] theorem sidRead_ctl (s : State) : (sidRead s).2.ctl = s.ctl := by unfold sidRead; split <;> rfl
@[simp] theorem sidRead_mem (s : State) : (sidRead s).2.mem = s.mem := by unfold sidRead; split <;> rfl
@[simp] theorem sidRead_params (s : State) : (sidRead s).2.params = s.params := by unfold sidRead; split <;> rfl

@[simp] theorem latchSod_regs (s : State) (b : Bool) : (latchSod s b).regs = s.regs := by unfold latchSod; split <;> rfl
@[simp] theorem latchSod_flags (s : State) (b : Bool) : (latchSod s b).flags = s.flags := by unfold latchSod; split <;> rfl
@[simp] theorem latchSod_pc (s : State) (b : Bool) : (latchSod s b).pc = s.pc := by unfold latchSod; split <;> rfl
@[simp] theorem latchSod_sp (s : State) (b : Bool) : (latchSod s b).sp = s.sp := by unfold latchSod; split <;> rfl
@[simp] theorem latchSod_mem (s : State) (b : Bool) : (latchSod s b).mem = s.mem := by unfold latchSod; split <;> rfl
@[simp] theorem latchSod_params (s : State) (b : Bool) : (latchSod s b).params = s.params := by
  unfold latchSod; split <;> rfl

theorem latchSod_ctl (s : State) (b : Bool) : (latchSod s b).ctl = { s.ctl with sod := b } := by
  unfold latchSod; split
  · next h => rw [← h]
  · rfl

/-- The latch adds at most the one event of its change to the trace. -/
theorem latchSod_env (s : State) (b : Bool) :
    (latchSod s b).env = { s.env with out := s.env.out ++ if s.ctl.sod = b then [] else [.sod b] } := by
  unfold latchSod; split <;> simp

end Sys2Proof.Machine
end

