-- ==== Sys2Proof/Laws/PerInstr.lean ====
section
/-! SUPPORT. Statements made per instruction: one lemma for each constructor of Instr. -/

namespace Sys2Proof.Laws.EncodedLength

/-- The encoding starts with an opcode whose length by R84 is the number of bytes of the encoding. -/
def Statement (i : Instr) : Prop := ∃ op rest, encode i = op :: rest ∧ (encode i).length = opcodeLength op

theorem nop : Statement .nop := ⟨_, _, rfl, rfl⟩
theorem lxi (p : PairSP) (v : Word) : Statement (.lxi p v) := by cases p <;> exact ⟨_, _, rfl, rfl⟩
theorem stax (p : PairX) : Statement (.stax p) := by cases p <;> exact ⟨_, _, rfl, rfl⟩
theorem ldax (p : PairX) : Statement (.ldax p) := by cases p <;> exact ⟨_, _, rfl, rfl⟩
theorem shld (a : Word) : Statement (.shld a) := ⟨_, _, rfl, rfl⟩
theorem lhld (a : Word) : Statement (.lhld a) := ⟨_, _, rfl, rfl⟩
theorem sta (a : Word) : Statement (.sta a) := ⟨_, _, rfl, rfl⟩
theorem lda (a : Word) : Statement (.lda a) := ⟨_, _, rfl, rfl⟩
theorem inx (p : PairSP) : Statement (.inx p) := by cases p <;> exact ⟨_, _, rfl, rfl⟩
theorem dcx (p : PairSP) : Statement (.dcx p) := by cases p <;> exact ⟨_, _, rfl, rfl⟩
theorem dad (p : PairSP) : Statement (.dad p) := by cases p <;> exact ⟨_, _, rfl, rfl⟩
theorem inrR (r : Reg) : Statement (.inrR r) := by cases r <;> exact ⟨_, _, rfl, rfl⟩
theorem inrM : Statement .inrM := ⟨_, _, rfl, rfl⟩
theorem dcrR (r : Reg) : Statement (.dcrR r) := by cases r <;> exact ⟨_, _, rfl, rfl⟩
theorem dcrM : Statement .dcrM := ⟨_, _, rfl, rfl⟩
theorem mviR (r : Reg) (v : Byte) : Statement (.mviR r v) := by cases r <;> exact ⟨_, _, rfl, rfl⟩
theorem mviM (v : Byte) : Statement (.mviM v) := ⟨_, _, rfl, rfl⟩
theorem rlc : Statement .rlc := ⟨_, _, rfl, rfl⟩
theorem rrc : Statement .rrc := ⟨_, _, rfl, rfl⟩
theorem ral : Statement .ral := ⟨_, _, rfl, rfl⟩
theorem rar : Statement .rar := ⟨_, _, rfl, rfl⟩
theorem daa : Statement .daa := ⟨_, _, rfl, rfl⟩
theorem cma : Statement .cma := ⟨_, _, rfl, rfl⟩
theorem stc : Statement .stc := ⟨_, _, rfl, rfl⟩
theorem cmc : Statement .cmc := ⟨_, _, rfl, rfl⟩
theorem rim : Statement .rim := ⟨_, _, rfl, rfl⟩
theorem sim : Statement .sim := ⟨_, _, rfl, rfl⟩
theorem movRR (dst : Reg) (r : Reg) : Statement (.movRR dst r) := by cases dst <;> cases r <;> exact ⟨_, _, rfl, rfl⟩
theorem movRM (dst : Reg) : Statement (.movRM dst) := by cases dst <;> exact ⟨_, _, rfl, rfl⟩
theorem movMR (r : Reg) : Statement (.movMR r) := by cases r <;> exact ⟨_, _, rfl, rfl⟩
theorem hlt : Statement .hlt := ⟨_, _, rfl, rfl⟩
theorem addR (r : Reg) : Statement (.addR r) := by cases r <;> exact ⟨_, _, rfl, rfl⟩
theorem addM : Statement .addM := ⟨_, _, rfl, rfl⟩
theorem adcR (r : Reg) : Statement (.adcR r) := by cases r <;> exact ⟨_, _, rfl, rfl⟩
theorem adcM : Statement .adcM := ⟨_, _, rfl, rfl⟩
theorem subR (r : Reg) : Statement (.subR r) := by cases r <;> exact ⟨_, _, rfl, rfl⟩
theorem subM : Statement .subM := ⟨_, _, rfl, rfl⟩
theorem sbbR (r : Reg) : Statement (.sbbR r) := by cases r <;> exact ⟨_, _, rfl, rfl⟩
theorem sbbM : Statement .sbbM := ⟨_, _, rfl, rfl⟩
theorem anaR (r : Reg) : Statement (.anaR r) := by cases r <;> exact ⟨_, _, rfl, rfl⟩
theorem anaM : Statement .anaM := ⟨_, _, rfl, rfl⟩
theorem xraR (r : Reg) : Statement (.xraR r) := by cases r <;> exact ⟨_, _, rfl, rfl⟩
theorem xraM : Statement .xraM := ⟨_, _, rfl, rfl⟩
theorem oraR (r : Reg) : Statement (.oraR r) := by cases r <;> exact ⟨_, _, rfl, rfl⟩
theorem oraM : Statement .oraM := ⟨_, _, rfl, rfl⟩
theorem cmpR (r : Reg) : Statement (.cmpR r) := by cases r <;> exact ⟨_, _, rfl, rfl⟩
theorem cmpM : Statement .cmpM := ⟨_, _, rfl, rfl⟩
theorem rnz : Statement .rnz := ⟨_, _, rfl, rfl⟩
theorem rz : Statement .rz := ⟨_, _, rfl, rfl⟩
theorem rnc : Statement .rnc := ⟨_, _, rfl, rfl⟩
theorem rc : Statement .rc := ⟨_, _, rfl, rfl⟩
theorem rpo : Statement .rpo := ⟨_, _, rfl, rfl⟩
theorem rpe : Statement .rpe := ⟨_, _, rfl, rfl⟩
theorem rp : Statement .rp := ⟨_, _, rfl, rfl⟩
theorem rm : Statement .rm := ⟨_, _, rfl, rfl⟩
theorem pop (p : PairPSW) : Statement (.pop p) := by cases p <;> exact ⟨_, _, rfl, rfl⟩
theorem ret : Statement .ret := ⟨_, _, rfl, rfl⟩
theorem pchl : Statement .pchl := ⟨_, _, rfl, rfl⟩
theorem sphl : Statement .sphl := ⟨_, _, rfl, rfl⟩
theorem jnz (a : Word) : Statement (.jnz a) := ⟨_, _, rfl, rfl⟩
theorem jz (a : Word) : Statement (.jz a) := ⟨_, _, rfl, rfl⟩
theorem jnc (a : Word) : Statement (.jnc a) := ⟨_, _, rfl, rfl⟩
theorem jc (a : Word) : Statement (.jc a) := ⟨_, _, rfl, rfl⟩
theorem jpo (a : Word) : Statement (.jpo a) := ⟨_, _, rfl, rfl⟩
theorem jpe (a : Word) : Statement (.jpe a) := ⟨_, _, rfl, rfl⟩
theorem jp (a : Word) : Statement (.jp a) := ⟨_, _, rfl, rfl⟩
theorem jm (a : Word) : Statement (.jm a) := ⟨_, _, rfl, rfl⟩
theorem jmp (a : Word) : Statement (.jmp a) := ⟨_, _, rfl, rfl⟩
theorem out (p : Byte) : Statement (.out p) := ⟨_, _, rfl, rfl⟩
theorem inp (p : Byte) : Statement (.inp p) := ⟨_, _, rfl, rfl⟩
theorem xthl : Statement .xthl := ⟨_, _, rfl, rfl⟩
theorem xchg : Statement .xchg := ⟨_, _, rfl, rfl⟩
theorem di : Statement .di := ⟨_, _, rfl, rfl⟩
theorem ei : Statement .ei := ⟨_, _, rfl, rfl⟩
theorem cnz (a : Word) : Statement (.cnz a) := ⟨_, _, rfl, rfl⟩
theorem cz (a : Word) : Statement (.cz a) := ⟨_, _, rfl, rfl⟩
theorem cnc (a : Word) : Statement (.cnc a) := ⟨_, _, rfl, rfl⟩
theorem cc (a : Word) : Statement (.cc a) := ⟨_, _, rfl, rfl⟩
theorem cpo (a : Word) : Statement (.cpo a) := ⟨_, _, rfl, rfl⟩
theorem cpe (a : Word) : Statement (.cpe a) := ⟨_, _, rfl, rfl⟩
theorem cp (a : Word) : Statement (.cp a) := ⟨_, _, rfl, rfl⟩
theorem cm (a : Word) : Statement (.cm a) := ⟨_, _, rfl, rfl⟩
theorem push (p : PairPSW) : Statement (.push p) := by cases p <;> exact ⟨_, _, rfl, rfl⟩
theorem call (a : Word) : Statement (.call a) := ⟨_, _, rfl, rfl⟩
theorem adi (v : Byte) : Statement (.adi v) := ⟨_, _, rfl, rfl⟩
theorem aci (v : Byte) : Statement (.aci v) := ⟨_, _, rfl, rfl⟩
theorem sui (v : Byte) : Statement (.sui v) := ⟨_, _, rfl, rfl⟩
theorem sbi (v : Byte) : Statement (.sbi v) := ⟨_, _, rfl, rfl⟩
theorem ani (v : Byte) : Statement (.ani v) := ⟨_, _, rfl, rfl⟩
theorem xri (v : Byte) : Statement (.xri v) := ⟨_, _, rfl, rfl⟩
theorem ori (v : Byte) : Statement (.ori v) := ⟨_, _, rfl, rfl⟩
theorem cpi (v : Byte) : Statement (.cpi v) := ⟨_, _, rfl, rfl⟩
theorem rst (n : BitVec 3) : Statement (.rst n) := by
  rcases field3_cases n with h | h | h | h | h | h | h | h <;> subst h <;> exact ⟨_, _, rfl, rfl⟩
theorem unassigned08 : Statement .unassigned08 := ⟨_, _, rfl, rfl⟩
theorem unassigned10 : Statement .unassigned10 := ⟨_, _, rfl, rfl⟩
theorem unassigned18 : Statement .unassigned18 := ⟨_, _, rfl, rfl⟩
theorem unassigned28 : Statement .unassigned28 := ⟨_, _, rfl, rfl⟩
theorem unassigned38 : Statement .unassigned38 := ⟨_, _, rfl, rfl⟩
theorem unassignedCB : Statement .unassignedCB := ⟨_, _, rfl, rfl⟩
theorem unassignedD9 : Statement .unassignedD9 := ⟨_, _, rfl, rfl⟩
theorem unassignedDD : Statement .unassignedDD := ⟨_, _, rfl, rfl⟩
theorem unassignedED : Statement .unassignedED := ⟨_, _, rfl, rfl⟩
theorem unassignedFD : Statement .unassignedFD := ⟨_, _, rfl, rfl⟩

end Sys2Proof.Laws.EncodedLength
end

