-- ==== Sys2Proof/Laws/Step.lean ====
section
/-! SUPPORT. What one instruction and one step can do, once for each part of the state: the proofs about steps cite these
and case on the instruction nowhere else. -/

namespace Sys2Proof.Machine

/-- Memory after at most two stores. -/
inductive Stores (s : State) : Memory → Prop where
  | none : Stores s s.mem
  | one (a : Word) (v : Byte) : Stores s (stored s a v).mem
  | two (a b : Word) (v w : Byte) : Stores s (stored (stored s a v) b w).mem

theorem stored_congr_mem {s s' : State} (a : Word) (v : Byte) (hm : s'.mem = s.mem) (hp : s'.params = s.params) :
    (stored s' a v).mem = (stored s a v).mem := by
  unfold stored State.kindAt
  rw [hp]
  split
  · exact hm
  · simp [hm]

theorem pushed_mem (s : State) (hi lo : Byte) :
    (pushed s hi lo).mem = (stored (stored s (s.sp - 1) hi) (s.sp - 1 - 1) lo).mem := by
  unfold pushed
  refine stored_congr_mem _ _ ?_ ?_
  · simp only [State.setSp_mem]; exact stored_congr_mem _ _ rfl rfl
  · simp


theorem Stores.wf {s : State} {m : Memory} (h : Stores s m) (hm : Memory.wf s.mem = true) : Memory.wf m = true := by
  cases h with
  | none => exact hm
  | one a v => exact stored_wf _ _ hm
  | two a b v w => exact stored_wf _ _ (stored_wf _ _ hm)

/-- A write leaves every ROM byte alone (R54). -/
theorem stored_byteAt_rom {s : State} (a x : Word) (v : Byte) (h : s.kindAt x = .rom) :
    (stored s a v).byteAt x = s.byteAt x := by
  by_cases e : x = a
  · subst e; unfold stored; rw [if_pos h]
  · exact stored_byteAt_other _ e

theorem Stores.lookup_rom {s : State} {m : Memory} (h : Stores s m) (x : Word) (hx : s.kindAt x = .rom) :
    Memory.lookup m x.toNat = s.byteAt x := by
  cases h with
  | none => rfl
  | one a v => exact stored_byteAt_rom _ _ _ hx
  | two a b v w => exact (stored_byteAt_rom _ _ _ (by simpa using hx)).trans (stored_byteAt_rom _ _ _ hx)

/-! ## Step 6, reset, entry -/

@[simp] theorem updateShadow_regs (i : Instr) (s : State) : (updateShadow i s).regs = s.regs := by
  unfold updateShadow; split <;> rfl
@[simp] theorem updateShadow_flags (i : Instr) (s : State) : (updateShadow i s).flags = s.flags := by
  unfold updateShadow; split <;> rfl
@[simp] theorem updateShadow_pc (i : Instr) (s : State) : (updateShadow i s).pc = s.pc := by
  unfold updateShadow; split <;> rfl
@[simp] theorem updateShadow_sp (i : Instr) (s : State) : (updateShadow i s).sp = s.sp := by
  unfold updateShadow; split <;> rfl
@[simp] theorem updateShadow_mem (i : Instr) (s : State) : (updateShadow i s).mem = s.mem := by
  unfold updateShadow; split <;> rfl
@[simp] theorem updateShadow_env (i : Instr) (s : State) : (updateShadow i s).env = s.env := by
  unfold updateShadow; split <;> rfl
@[simp] theorem updateShadow_params (i : Instr) (s : State) : (updateShadow i s).params = s.params := by
  unfold updateShadow; split <;> rfl

/-- Step 6 writes `ei_shadow` only. -/
theorem updateShadow_ctl (i : Instr) (s : State) :
    (updateShadow i s).ctl = { s.ctl with eiShadow := if s.params.eiDelay then isEi i else s.ctl.eiShadow } := by
  unfold updateShadow; split <;> simp

@[simp] theorem performReset_params (s : State) : (performReset s).params = s.params := by simp [performReset]
@[simp] theorem performReset_mem (s : State) : (performReset s).mem = s.mem := by simp [performReset]
@[simp] theorem performReset_pc (s : State) : (performReset s).pc = s.params.resetPc := rfl
@[simp] theorem performReset_ctl (s : State) : (performReset s).ctl = Control.afterReset := rfl

/-- The state an interrupt taken leaves (R280, R281). -/
theorem takeInterrupt_state {s t : State} {src : IntSource} (h : takeInterrupt s src = .next t) :
    t = (pushed (s.setCtl (s.ctl.afterEntry src)) (hiByte s.pc) (loByte s.pc)).setPc src.restartAddress :=
  (interruptEntry_eq_next (takeInterrupt_eq_next h).1).2.2

/-! ## The shared operations of the families -/

theorem withM_eq_next {s t : State} {f : Byte → Result State} (h : withM s f = .next t) :
    s.kindAt s.hl ≠ .absent ∧ f (s.byteAt s.hl) = .next t := by
  obtain ⟨v, h1, h2⟩ := andThen_eq_next h
  obtain ⟨k, rfl⟩ := memRead_eq_next h1
  exact ⟨k, h2⟩

theorem withM_present {s : State} (f : Byte → Result State) (h : s.kindAt s.hl ≠ .absent) :
    withM s f = f (s.byteAt s.hl) := by
  unfold withM; rw [memRead_present h, andThen_next]

theorem withM_absent {s : State} (f : Byte → Result State) (h : s.kindAt s.hl = .absent) :
    withM s f = .fault (.unmappedAccess s.hl .read) := by
  unfold withM; rw [memRead_absent h, andThen_fault]

theorem jumpIf_eq_next {s t : State} {cc : Cond} {a : Word} (h : jumpIf s cc a = .next t) :
    t = s.setPc a ∨ t = s.advance 3 := by
  unfold jumpIf at h
  split at h <;> cases h
  · exact .inl rfl
  · exact .inr rfl

theorem callIf_eq_next {s t : State} {cc : Cond} {a : Word} (h : callIf s cc a = .next t) :
    t = (pushed s (hiByte (s.nextPc 3)) (loByte (s.nextPc 3))).setPc a ∨ t = s.advance 3 := by
  unfold callIf at h
  split at h
  · exact .inl (callTo_eq_next h).2.2
  · cases h; exact .inr rfl

theorem returnIf_eq_next {s t : State} {cc : Cond} (h : returnIf s cc = .next t) :
    t = (s.setSp (s.sp + 1 + 1)).setPc (s.byteAt (s.sp + 1) ++ s.byteAt s.sp) ∨ t = s.advance 1 := by
  unfold returnIf at h
  split at h
  · exact .inl (returnToCaller_eq_next h).2.2
  · cases h; exact .inr rfl

@[simp] theorem setPairSP_params (s : State) (p : PairSP) (v : Word) : (s.setPairSP p v).params = s.params := by
  cases p <;> rfl
@[simp] theorem setPairSP_mem (s : State) (p : PairSP) (v : Word) : (s.setPairSP p v).mem = s.mem := by cases p <;> rfl
@[simp] theorem setPairSP_env (s : State) (p : PairSP) (v : Word) : (s.setPairSP p v).env = s.env := by cases p <;> rfl
@[simp] theorem setPairSP_ctl (s : State) (p : PairSP) (v : Word) : (s.setPairSP p v).ctl = s.ctl := by cases p <;> rfl

@[simp] theorem popPair_params (s : State) (p : PairPSW) (x y : Byte) : (s.popPair p x y).params = s.params := by
  cases p <;> rfl
@[simp] theorem popPair_mem (s : State) (p : PairPSW) (x y : Byte) : (s.popPair p x y).mem = s.mem := by cases p <;> rfl
@[simp] theorem popPair_env (s : State) (p : PairPSW) (x y : Byte) : (s.popPair p x y).env = s.env := by cases p <;> rfl
@[simp] theorem popPair_ctl (s : State) (p : PairPSW) (x y : Byte) : (s.popPair p x y).ctl = s.ctl := by cases p <;> rfl

/-! ## What an instruction can do -/

/-- What every completed instruction does to the parameters, memory, environment and control state. -/
structure Effect (i : Instr) (s t : State) : Prop where
  params : t.params = s.params
  mem : Stores s t.mem
  inputs : t.env.inputs = s.env.inputs
  script : t.env.script = s.env.script
  ctl : i ≠ .ei → i ≠ .di → i ≠ .hlt → i ≠ .sim → t.ctl = s.ctl
  out : i ≠ .sim → (∀ p, i ≠ .out p) → t.env.out = s.env.out

/-- An effect on nothing but registers, flags, `pc` and `sp`. -/
theorem Effect.ofKept {i : Instr} {s t : State} (hm : t.mem = s.mem) (he : t.env = s.env) (hc : t.ctl = s.ctl)
    (hp : t.params = s.params) : Effect i s t :=
  ⟨hp, hm ▸ .none, congrArg Env.inputs he, congrArg Env.script he, fun _ _ _ _ => hc,
    fun _ _ => congrArg Env.out he⟩

/-- An effect that stores and changes no environment or control state. -/
theorem Effect.ofStores {i : Instr} {s t : State} (hm : Stores s t.mem) (he : t.env = s.env) (hc : t.ctl = s.ctl)
    (hp : t.params = s.params) : Effect i s t :=
  ⟨hp, hm, congrArg Env.inputs he, congrArg Env.script he, fun _ _ _ _ => hc, fun _ _ => congrArg Env.out he⟩

theorem Effect.ofCall {i : Instr} {s : State} (x y : Byte) (a : Word) : Effect i s ((pushed s x y).setPc a) :=
  .ofStores (by rw [State.setPc_mem, pushed_mem]; exact .two _ _ _ _) (by simp) (by simp) (by simp)

theorem Effect.ofReturn {i : Instr} {s : State} (x a : Word) : Effect i s ((s.setSp x).setPc a) :=
  .ofKept rfl rfl rfl rfl

theorem Effect.ofJumpIf {i : Instr} {s t : State} {cc : Cond} {a : Word} (h : jumpIf s cc a = .next t) : Effect i s t := by
  rcases jumpIf_eq_next h with rfl | rfl <;> exact .ofKept rfl rfl rfl rfl

theorem Effect.ofCallIf {i : Instr} {s t : State} {cc : Cond} {a : Word} (h : callIf s cc a = .next t) : Effect i s t := by
  rcases callIf_eq_next h with rfl | rfl
  · exact .ofCall _ _ _
  · exact .ofKept rfl rfl rfl rfl

theorem Effect.ofReturnIf {i : Instr} {s t : State} {cc : Cond} (h : returnIf s cc = .next t) : Effect i s t := by
  rcases returnIf_eq_next h with rfl | rfl
  · exact .ofReturn _ _
  · exact .ofKept rfl rfl rfl rfl

theorem Effect.ofWrite {i : Instr} {s t : State} {a : Word} {v : Byte} {f : State → State}
    (h : andThen (memWrite s a v) (fun s1 => .next (f s1)) = .next t)
    (hm : ∀ u, (f u).mem = u.mem) (he : ∀ u, (f u).env = u.env) (hc : ∀ u, (f u).ctl = u.ctl)
    (hp : ∀ u, (f u).params = u.params) : Effect i s t := by
  obtain ⟨u, h1, h2⟩ := andThen_eq_next h
  obtain ⟨-, rfl⟩ := memWrite_eq_next h1
  cases h2
  exact .ofStores (by rw [hm]; exact .one _ _) (by simp [he]) (by simp [hc]) (by simp [hp])

/-- Every completed instruction has the effect above. -/
theorem exec_effect {i : Instr} {s t : State} (h : exec i s = .next t) : Effect i s t := by
  cases i
  case movMR r => exact .ofWrite (f := fun u => u.advance 1) h (fun _ => rfl) (fun _ => rfl) (fun _ => rfl) (fun _ => rfl)
  case mviM v => exact .ofWrite (f := fun u => u.advance 2) h (fun _ => rfl) (fun _ => rfl) (fun _ => rfl) (fun _ => rfl)
  case sta a => exact .ofWrite (f := fun u => u.advance 3) h (fun _ => rfl) (fun _ => rfl) (fun _ => rfl) (fun _ => rfl)
  case stax p => exact .ofWrite (f := fun u => u.advance 1) h (fun _ => rfl) (fun _ => rfl) (fun _ => rfl) (fun _ => rfl)
  case inrM =>
    obtain ⟨-, h⟩ := withM_eq_next (show withM s _ = _ from h)
    exact .ofWrite (f := fun u => (u.setFlags (s.flags.inc (s.byteAt s.hl))).advance 1) h (fun _ => rfl) (fun _ => rfl)
      (fun _ => rfl) (fun _ => rfl)
  case dcrM =>
    obtain ⟨-, h⟩ := withM_eq_next (show withM s _ = _ from h)
    exact .ofWrite (f := fun u => (u.setFlags (s.flags.dec (s.byteAt s.hl))).advance 1) h (fun _ => rfl) (fun _ => rfl)
      (fun _ => rfl) (fun _ => rfl)
  case shld a =>
    obtain ⟨u, h1, h2⟩ := andThen_eq_next (show andThen _ _ = _ from h)
    obtain ⟨w, h3, h4⟩ := andThen_eq_next h2
    obtain ⟨-, rfl⟩ := memWrite_eq_next h1
    obtain ⟨-, rfl⟩ := memWrite_eq_next h3
    cases h4
    exact .ofStores (.two _ _ _ _) (by simp) (by simp) (by simp)
  case xthl =>
    obtain ⟨lo, -, h⟩ := andThen_eq_next (show andThen _ _ = _ from h)
    obtain ⟨hi, -, h⟩ := andThen_eq_next h
    obtain ⟨u, h1, h2⟩ := andThen_eq_next h
    obtain ⟨w, h3, h4⟩ := andThen_eq_next h2
    obtain ⟨-, rfl⟩ := memWrite_eq_next h1
    obtain ⟨-, rfl⟩ := memWrite_eq_next h3
    cases h4
    exact .ofStores (.two _ _ _ _) (by simp) (by simp) (by simp)
  case lda a =>
    obtain ⟨v, -, h⟩ := andThen_eq_next (show andThen _ _ = _ from h)
    cases h; exact .ofKept rfl rfl rfl rfl
  case ldax p =>
    obtain ⟨v, -, h⟩ := andThen_eq_next (show andThen _ _ = _ from h)
    cases h; exact .ofKept rfl rfl rfl rfl
  case lhld a =>
    obtain ⟨v, -, h⟩ := andThen_eq_next (show andThen _ _ = _ from h)
    obtain ⟨w, -, h⟩ := andThen_eq_next h
    cases h; exact .ofKept rfl rfl rfl rfl
  case push p =>
    obtain ⟨u, h1, h2⟩ := andThen_eq_next (show andThen _ _ = _ from h)
    obtain ⟨-, -, rfl⟩ := pushBytes_eq_next h1
    cases h2
    unfold State.afterFill
    refine ⟨?_, ?_, ?_, ?_, fun _ _ _ _ => ?_, fun _ _ => ?_⟩
    case refine_2 =>
      have hs : Stores s (pushed s (s.pushPair p).1 (s.pushPair p).2).mem := by rw [pushed_mem]; exact .two _ _ _ _
      split
      · split <;> exact hs
      · exact hs
    all_goals (split <;> (try split) <;> simp)
  case pop p =>
    obtain ⟨⟨x, y, u⟩, h1, h2⟩ := andThen_eq_next (show andThen _ _ = _ from h)
    obtain ⟨-, -, rfl, rfl, rfl⟩ := popBytes_eq_next h1
    cases h2
    exact .ofKept (by simp) (by simp) (by simp) (by simp)
  case call a => rw [(callTo_eq_next (show callTo s _ _ = _ from h)).2.2]; exact .ofCall _ _ _
  case rst n => rw [(callTo_eq_next (show callTo s _ _ = _ from h)).2.2]; exact .ofCall _ _ _
  case ret => rw [(returnToCaller_eq_next (show returnToCaller s = _ from h)).2.2]; exact .ofReturn _ _
  case inp p =>
    cases h
    unfold ioRead
    split <;> exact ⟨rfl, .none, rfl, rfl, fun _ _ _ _ => rfl, fun _ _ => rfl⟩
  case rim =>
    cases h
    unfold sidRead
    split <;> exact ⟨rfl, .none, rfl, rfl, fun _ _ _ _ => rfl, fun _ _ => rfl⟩
  case out p =>
    cases h
    exact ⟨rfl, .none, rfl, rfl, fun _ _ _ _ => rfl, fun _ k => absurd rfl (k p)⟩
  case ei => cases h; exact ⟨rfl, .none, rfl, rfl, fun k => absurd rfl k, fun _ _ => rfl⟩
  case di => cases h; exact ⟨rfl, .none, rfl, rfl, fun _ k => absurd rfl k, fun _ _ => rfl⟩
  case hlt => cases h; exact ⟨rfl, .none, rfl, rfl, fun _ _ k => absurd rfl k, fun _ _ => rfl⟩
  case sim =>
    cases h
    dsimp only
    split
    · exact ⟨by simp, by simpa using Stores.none, by simp [latchSod_env], by simp [latchSod_env],
        fun _ _ _ k => absurd rfl k, fun k => absurd rfl k⟩
    · exact ⟨rfl, .none, rfl, rfl, fun _ _ _ k => absurd rfl k, fun k => absurd rfl k⟩
  case lxi p v => cases h; exact .ofKept (by simp) (by simp) (by simp) (by simp)
  case inx p => cases h; exact .ofKept (by simp) (by simp) (by simp) (by simp)
  case dcx p => cases h; exact .ofKept (by simp) (by simp) (by simp) (by simp)
  all_goals first
    | (cases h; done)
    | (cases h; exact .ofKept rfl rfl rfl rfl)
    | exact .ofJumpIf h
    | exact .ofCallIf h
    | exact .ofReturnIf h
    | (obtain ⟨-, h⟩ := withM_eq_next (show withM s _ = _ from h); cases h; exact .ofKept rfl rfl rfl rfl)


/-! ## How an instruction can stop -/

/-- The answer is not a refusal, and a fault is an access to an address absent in `s`. -/
def StopsOnlyAbsent {α : Type} (s : State) (o : Result α) : Prop :=
  (∀ r, o ≠ .refused r) ∧ ∀ r, o = .fault r → ∃ a acc, r = .unmappedAccess a acc ∧ s.kindAt a = .absent

theorem StopsOnlyAbsent.next {α : Type} {s : State} (v : α) : StopsOnlyAbsent s (.next v : Result α) :=
  ⟨fun _ h => by (cases h), fun _ h => by (cases h)⟩

theorem StopsOnlyAbsent.andThen {α β : Type} {s : State} {x : Result α} {f : α → Result β} (hx : StopsOnlyAbsent s x)
    (hf : ∀ v, x = .next v → StopsOnlyAbsent s (f v)) : StopsOnlyAbsent s (andThen x f) := by
  cases x with
  | next v => exact hf v rfl
  | fault r => exact ⟨fun _ h => by (cases h), fun q h => by cases h; exact hx.2 _ rfl⟩
  | refused r => exact absurd rfl (hx.1 r)

theorem stopsOnlyAbsent_loadByte {s s' : State} (acc : Access) (a : Word) (hp : s'.params = s.params) :
    StopsOnlyAbsent s (loadByte acc s' a) := by
  have hk : s'.kindAt a = s.kindAt a := by unfold State.kindAt; rw [hp]
  by_cases h : s'.kindAt a = .absent
  · rw [loadByte_absent h]
    exact ⟨fun _ h => by (cases h), fun r e => by cases e; exact ⟨a, acc, rfl, hk ▸ h⟩⟩
  · rw [loadByte_present h]; exact .next _

theorem stopsOnlyAbsent_memWrite {s s' : State} (a : Word) (v : Byte) (hp : s'.params = s.params) :
    StopsOnlyAbsent s (memWrite s' a v) := by
  have hk : s'.kindAt a = s.kindAt a := by unfold State.kindAt; rw [hp]
  by_cases h : s'.kindAt a = .absent
  · rw [memWrite_absent v h]
    exact ⟨fun _ h => by (cases h), fun r e => by cases e; exact ⟨a, .write, rfl, hk ▸ h⟩⟩
  · rw [memWrite_present v h]; exact .next _

theorem stopsOnlyAbsent_withM {s : State} {f : Byte → Result State} (hf : ∀ v, StopsOnlyAbsent s (f v)) :
    StopsOnlyAbsent s (withM s f) :=
  .andThen (stopsOnlyAbsent_loadByte _ _ rfl) fun v _ => hf v

theorem stopsOnlyAbsent_pushBytes {s s' : State} (x y : Byte) (hp : s'.params = s.params) :
    StopsOnlyAbsent s (pushBytes s' x y) := by
  refine .andThen (stopsOnlyAbsent_memWrite _ _ hp) fun v h => ?_
  obtain ⟨-, rfl⟩ := memWrite_eq_next h
  exact stopsOnlyAbsent_memWrite _ _ (by simp [hp])

theorem stopsOnlyAbsent_callTo {s s' : State} (ret a : Word) (hp : s'.params = s.params) :
    StopsOnlyAbsent s (callTo s' ret a) :=
  .andThen (stopsOnlyAbsent_pushBytes _ _ hp) fun _ _ => .next _

theorem stopsOnlyAbsent_popBytes (s : State) : StopsOnlyAbsent s (popBytes s) :=
  .andThen (stopsOnlyAbsent_loadByte _ _ rfl) fun _ _ => .andThen (stopsOnlyAbsent_loadByte _ _ rfl) fun _ _ => .next _

theorem stopsOnlyAbsent_returnToCaller (s : State) : StopsOnlyAbsent s (returnToCaller s) :=
  .andThen (stopsOnlyAbsent_popBytes s) fun _ _ => .next _

theorem stopsOnlyAbsent_jumpIf (s : State) (cc : Cond) (a : Word) : StopsOnlyAbsent s (jumpIf s cc a) := by
  unfold jumpIf; split <;> exact .next _

theorem stopsOnlyAbsent_callIf (s : State) (cc : Cond) (a : Word) : StopsOnlyAbsent s (callIf s cc a) := by
  unfold callIf; split
  · exact stopsOnlyAbsent_callTo _ _ rfl
  · exact .next _

theorem stopsOnlyAbsent_returnIf (s : State) (cc : Cond) : StopsOnlyAbsent s (returnIf s cc) := by
  unfold returnIf; split
  · exact stopsOnlyAbsent_returnToCaller s
  · exact .next _

theorem stopsOnlyAbsent_write {s : State} (a : Word) (v : Byte) (f : State → State) :
    StopsOnlyAbsent s (Machine.andThen (memWrite s a v) fun u => .next (f u)) :=
  .andThen (stopsOnlyAbsent_memWrite _ _ rfl) fun _ _ => .next _

/-- A well-formed instruction is never refused and faults only on an absent address. -/
theorem exec_stopsOnlyAbsent {i : Instr} (s : State) (hi : WellFormed i) : StopsOnlyAbsent s (exec i s) := by
  cases i
  case shld a =>
    refine .andThen (stopsOnlyAbsent_memWrite _ _ rfl) fun v h => .andThen ?_ fun _ _ => .next _
    obtain ⟨-, rfl⟩ := memWrite_eq_next h
    exact stopsOnlyAbsent_memWrite _ _ (by simp)
  case xthl =>
    refine .andThen (stopsOnlyAbsent_loadByte _ _ rfl) fun _ _ => .andThen (stopsOnlyAbsent_loadByte _ _ rfl) fun _ _ =>
      .andThen (stopsOnlyAbsent_memWrite _ _ rfl) fun v h => .andThen ?_ fun _ _ => .next _
    obtain ⟨-, rfl⟩ := memWrite_eq_next h
    exact stopsOnlyAbsent_memWrite _ _ (by simp)
  case lhld a =>
    exact .andThen (stopsOnlyAbsent_loadByte _ _ rfl) fun _ _ =>
      .andThen (stopsOnlyAbsent_loadByte _ _ rfl) fun _ _ => .next _
  case inrM => exact stopsOnlyAbsent_withM fun _ => stopsOnlyAbsent_write _ _ _
  case dcrM => exact stopsOnlyAbsent_withM fun _ => stopsOnlyAbsent_write _ _ _
  case push p => exact .andThen (stopsOnlyAbsent_pushBytes _ _ rfl) fun _ _ => .next _
  case pop p => exact .andThen (stopsOnlyAbsent_popBytes s) fun _ _ => .next _
  all_goals first
    | exact .next _
    | exact stopsOnlyAbsent_jumpIf _ _ _
    | exact stopsOnlyAbsent_callIf _ _ _
    | exact stopsOnlyAbsent_returnIf _ _
    | exact stopsOnlyAbsent_callTo _ _ rfl
    | exact stopsOnlyAbsent_returnToCaller _
    | exact stopsOnlyAbsent_write _ _ _
    | exact stopsOnlyAbsent_withM fun _ => .next _
    | exact .andThen (stopsOnlyAbsent_loadByte _ _ rfl) fun _ _ => .next _
    | cases hi

/-! ## The four kinds of step -/

/-- What a completed step was: a reset, an interrupt entry, a halted step, or one instruction. -/
theorem step_eq_next {s t : State} (h : step s = .next t) :
    (s.env.inputs.reset = true ∧ t = (performReset s).tick) ∨
    (s.env.inputs.reset = false ∧ ∃ src u, (sampleInterrupts s).pendingInterrupt = some src ∧
      takeInterrupt (sampleInterrupts s) src = .next u ∧ t = u.tick) ∨
    (s.env.inputs.reset = false ∧ (sampleInterrupts s).pendingInterrupt = none ∧ s.ctl.halted = true ∧
      t = (sampleInterrupts s).tick) ∨
    (s.env.inputs.reset = false ∧ (sampleInterrupts s).pendingInterrupt = none ∧ s.ctl.halted = false ∧
      ∃ i u, fetchInstr (sampleInterrupts s) = .next i ∧ exec i (sampleInterrupts s) = .next u ∧
        t = (updateShadow i u).tick) := by
  unfold step at h
  split at h
  · next hr => cases h; exact .inl ⟨hr, rfl⟩
  · next hr =>
    replace hr := Bool.not_eq_true _ ▸ hr
    refine .inr ?_
    unfold stepSampled at h
    split at h
    · next src hs =>
      obtain ⟨u, h1, h2⟩ := andThen_eq_next h
      cases h2
      exact .inl ⟨hr, src, u, hs, h1, rfl⟩
    · next hs =>
      refine .inr ?_
      split at h
      · next hh => cases h; exact .inl ⟨hr, hs, hh, rfl⟩
      · next hh =>
        obtain ⟨i, h1, h2⟩ := andThen_eq_next h
        obtain ⟨u, h3, h4⟩ := andThen_eq_next h2
        cases h4
        exact .inr ⟨hr, hs, Bool.not_eq_true _ ▸ hh, i, u, h1, h3, rfl⟩

/-- The bytes a fetch needs are there: it answers what they decode to. -/
theorem fetchInstr_of_decode {s : State} {i : Instr} {rest : List Byte}
    (hd : decode [s.byteAt s.pc, s.byteAt (s.pc + 1), s.byteAt (s.pc + 2)] = .ok (i, rest))
    (h0 : s.kindAt s.pc ≠ .absent) (h1 : 1 < opcodeLength (s.byteAt s.pc) → s.kindAt (s.pc + 1) ≠ .absent)
    (h2 : 2 < opcodeLength (s.byteAt s.pc) → s.kindAt (s.pc + 2) ≠ .absent) : fetchInstr s = .next i := by
  unfold fetchInstr
  rw [fetchByte_present h0, andThen_next]
  unfold decode at hd
  dsimp only at hd ⊢
  split at hd
  · next hl => cases hd; simp only [hl]
  · next hl hr =>
    cases hd; cases hr
    simp only [hl]
    rw [fetchByte_present (h1 (by omega)), andThen_next]
  · next hl hr =>
    cases hd; cases hr
    simp only [hl]
    rw [fetchByte_present (h1 (by omega)), andThen_next, fetchByte_present (h2 (by omega)), andThen_next]
  · cases hd

/-- The first absent byte of an instruction stops the fetch. -/
theorem fetchInstr_absent_opcode {s : State} (h : s.kindAt s.pc = .absent) :
    fetchInstr s = .fault (.unmappedAccess s.pc .fetch) := by
  unfold fetchInstr; rw [fetchByte_absent h, andThen_fault]

theorem fetchInstr_absent_second {s : State} (h0 : s.kindAt s.pc ≠ .absent) (hl : 1 < opcodeLength (s.byteAt s.pc))
    (h1 : s.kindAt (s.pc + 1) = .absent) : fetchInstr s = .fault (.unmappedAccess (s.pc + 1) .fetch) := by
  unfold fetchInstr
  rw [fetchByte_present h0, andThen_next, fetchByte_absent h1]
  split <;> first | omega | rfl

theorem fetchInstr_absent_third {s : State} (h0 : s.kindAt s.pc ≠ .absent) (hl : 2 < opcodeLength (s.byteAt s.pc))
    (h1 : s.kindAt (s.pc + 1) ≠ .absent) (h2 : s.kindAt (s.pc + 2) = .absent) :
    fetchInstr s = .fault (.unmappedAccess (s.pc + 2) .fetch) := by
  unfold fetchInstr
  rw [fetchByte_present h0, andThen_next, fetchByte_present h1, fetchByte_absent h2]
  split <;> first | omega | rfl

end Sys2Proof.Machine
end

