-- ==== Sys2Proof/Tests/Slice0.lean ====
section
/-! SUPPORT. The model's own tests: ill-formed terms refused, one word for each constructor decoded, single steps of the
spec's vectors (95_test_vectors.md), and for each statement with hypotheses a state that meets them. -/

namespace Sys2Proof.Tests

open Sys2Proof.Machine Sys2Proof.Says

/-! ## WellFormed: the ten terms it refuses (R96) -/

theorem test_wellFormed_refuses_08 : Instr.unassigned08.wellFormed = false := by decide
theorem test_wellFormed_refuses_10 : Instr.unassigned10.wellFormed = false := by decide
theorem test_wellFormed_refuses_18 : Instr.unassigned18.wellFormed = false := by decide
theorem test_wellFormed_refuses_28 : Instr.unassigned28.wellFormed = false := by decide
theorem test_wellFormed_refuses_38 : Instr.unassigned38.wellFormed = false := by decide
theorem test_wellFormed_refuses_CB : Instr.unassignedCB.wellFormed = false := by decide
theorem test_wellFormed_refuses_D9 : Instr.unassignedD9.wellFormed = false := by decide
theorem test_wellFormed_refuses_DD : Instr.unassignedDD.wellFormed = false := by decide
theorem test_wellFormed_refuses_ED : Instr.unassignedED.wellFormed = false := by decide
theorem test_wellFormed_refuses_FD : Instr.unassignedFD.wellFormed = false := by decide
theorem test_wellFormed_admits_a_neighbour : (Instr.lxi .bc 0x2050#16).wellFormed = true := by decide

/-! ## Decoding: one word for each constructor, written out from the spec's encoding -/

/-- The bytes decode to the instruction, nothing left over. -/
def reads (bytes : List Byte) (i : Instr) : Bool :=
  match decode bytes with
  | .ok (j, []) => decide (j = i)
  | _ => false

/-! Row by row of the opcode map (R90): `d8` and `p8` are 97H, `d16` and `a16` are 2050H, stored low byte first (R83). -/

theorem test_decode_row_0 :
    (reads [0x00] .nop && reads [0x01, 0x50, 0x20] (.lxi .bc 0x2050) && reads [0x02] (.stax .bc) &&
      reads [0x03] (.inx .bc) && reads [0x04] (.inrR .b) && reads [0x05] (.dcrR .b) &&
      reads [0x06, 0x97] (.mviR .b 0x97) && reads [0x07] .rlc && reads [0x08] .unassigned08 &&
      reads [0x09] (.dad .bc) && reads [0x0A] (.ldax .bc) && reads [0x0B] (.dcx .bc) &&
      reads [0x0C] (.inrR .c) && reads [0x0D] (.dcrR .c) && reads [0x0E, 0x97] (.mviR .c 0x97) &&
      reads [0x0F] .rrc) = true := by
  decide
theorem test_decode_row_1 :
    (reads [0x10] .unassigned10 && reads [0x11, 0x50, 0x20] (.lxi .de 0x2050) && reads [0x12] (.stax .de) &&
      reads [0x13] (.inx .de) && reads [0x14] (.inrR .d) && reads [0x15] (.dcrR .d) &&
      reads [0x16, 0x97] (.mviR .d 0x97) && reads [0x17] .ral && reads [0x18] .unassigned18 &&
      reads [0x19] (.dad .de) && reads [0x1A] (.ldax .de) && reads [0x1B] (.dcx .de) &&
      reads [0x1C] (.inrR .e) && reads [0x1D] (.dcrR .e) && reads [0x1E, 0x97] (.mviR .e 0x97) &&
      reads [0x1F] .rar) = true := by
  decide
theorem test_decode_row_2 :
    (reads [0x20] .rim && reads [0x21, 0x50, 0x20] (.lxi .hl 0x2050) &&
      reads [0x22, 0x50, 0x20] (.shld 0x2050) && reads [0x23] (.inx .hl) && reads [0x24] (.inrR .h) &&
      reads [0x25] (.dcrR .h) && reads [0x26, 0x97] (.mviR .h 0x97) && reads [0x27] .daa &&
      reads [0x28] .unassigned28 && reads [0x29] (.dad .hl) && reads [0x2A, 0x50, 0x20] (.lhld 0x2050) &&
      reads [0x2B] (.dcx .hl) && reads [0x2C] (.inrR .l) && reads [0x2D] (.dcrR .l) &&
      reads [0x2E, 0x97] (.mviR .l 0x97) && reads [0x2F] .cma) = true := by
  decide
theorem test_decode_row_3 :
    (reads [0x30] .sim && reads [0x31, 0x50, 0x20] (.lxi .sp 0x2050) &&
      reads [0x32, 0x50, 0x20] (.sta 0x2050) && reads [0x33] (.inx .sp) && reads [0x34] .inrM &&
      reads [0x35] .dcrM && reads [0x36, 0x97] (.mviM 0x97) && reads [0x37] .stc && reads [0x38] .unassigned38 &&
      reads [0x39] (.dad .sp) && reads [0x3A, 0x50, 0x20] (.lda 0x2050) && reads [0x3B] (.dcx .sp) &&
      reads [0x3C] (.inrR .a) && reads [0x3D] (.dcrR .a) && reads [0x3E, 0x97] (.mviR .a 0x97) &&
      reads [0x3F] .cmc) = true := by
  decide
theorem test_decode_row_4 :
    (reads [0x40] (.movRR .b .b) && reads [0x41] (.movRR .b .c) && reads [0x42] (.movRR .b .d) &&
      reads [0x43] (.movRR .b .e) && reads [0x44] (.movRR .b .h) && reads [0x45] (.movRR .b .l) &&
      reads [0x46] (.movRM .b) && reads [0x47] (.movRR .b .a) && reads [0x48] (.movRR .c .b) &&
      reads [0x49] (.movRR .c .c) && reads [0x4A] (.movRR .c .d) && reads [0x4B] (.movRR .c .e) &&
      reads [0x4C] (.movRR .c .h) && reads [0x4D] (.movRR .c .l) && reads [0x4E] (.movRM .c) &&
      reads [0x4F] (.movRR .c .a)) = true := by
  decide
theorem test_decode_row_5 :
    (reads [0x50] (.movRR .d .b) && reads [0x51] (.movRR .d .c) && reads [0x52] (.movRR .d .d) &&
      reads [0x53] (.movRR .d .e) && reads [0x54] (.movRR .d .h) && reads [0x55] (.movRR .d .l) &&
      reads [0x56] (.movRM .d) && reads [0x57] (.movRR .d .a) && reads [0x58] (.movRR .e .b) &&
      reads [0x59] (.movRR .e .c) && reads [0x5A] (.movRR .e .d) && reads [0x5B] (.movRR .e .e) &&
      reads [0x5C] (.movRR .e .h) && reads [0x5D] (.movRR .e .l) && reads [0x5E] (.movRM .e) &&
      reads [0x5F] (.movRR .e .a)) = true := by
  decide
theorem test_decode_row_6 :
    (reads [0x60] (.movRR .h .b) && reads [0x61] (.movRR .h .c) && reads [0x62] (.movRR .h .d) &&
      reads [0x63] (.movRR .h .e) && reads [0x64] (.movRR .h .h) && reads [0x65] (.movRR .h .l) &&
      reads [0x66] (.movRM .h) && reads [0x67] (.movRR .h .a) && reads [0x68] (.movRR .l .b) &&
      reads [0x69] (.movRR .l .c) && reads [0x6A] (.movRR .l .d) && reads [0x6B] (.movRR .l .e) &&
      reads [0x6C] (.movRR .l .h) && reads [0x6D] (.movRR .l .l) && reads [0x6E] (.movRM .l) &&
      reads [0x6F] (.movRR .l .a)) = true := by
  decide
theorem test_decode_row_7 :
    (reads [0x70] (.movMR .b) && reads [0x71] (.movMR .c) && reads [0x72] (.movMR .d) &&
      reads [0x73] (.movMR .e) && reads [0x74] (.movMR .h) && reads [0x75] (.movMR .l) && reads [0x76] .hlt &&
      reads [0x77] (.movMR .a) && reads [0x78] (.movRR .a .b) && reads [0x79] (.movRR .a .c) &&
      reads [0x7A] (.movRR .a .d) && reads [0x7B] (.movRR .a .e) && reads [0x7C] (.movRR .a .h) &&
      reads [0x7D] (.movRR .a .l) && reads [0x7E] (.movRM .a) && reads [0x7F] (.movRR .a .a)) = true := by
  decide
theorem test_decode_row_8 :
    (reads [0x80] (.addR .b) && reads [0x81] (.addR .c) && reads [0x82] (.addR .d) && reads [0x83] (.addR .e) &&
      reads [0x84] (.addR .h) && reads [0x85] (.addR .l) && reads [0x86] .addM && reads [0x87] (.addR .a) &&
      reads [0x88] (.adcR .b) && reads [0x89] (.adcR .c) && reads [0x8A] (.adcR .d) && reads [0x8B] (.adcR .e) &&
      reads [0x8C] (.adcR .h) && reads [0x8D] (.adcR .l) && reads [0x8E] .adcM && reads [0x8F] (.adcR .a)) = true := by
  decide
theorem test_decode_row_9 :
    (reads [0x90] (.subR .b) && reads [0x91] (.subR .c) && reads [0x92] (.subR .d) && reads [0x93] (.subR .e) &&
      reads [0x94] (.subR .h) && reads [0x95] (.subR .l) && reads [0x96] .subM && reads [0x97] (.subR .a) &&
      reads [0x98] (.sbbR .b) && reads [0x99] (.sbbR .c) && reads [0x9A] (.sbbR .d) && reads [0x9B] (.sbbR .e) &&
      reads [0x9C] (.sbbR .h) && reads [0x9D] (.sbbR .l) && reads [0x9E] .sbbM && reads [0x9F] (.sbbR .a)) = true := by
  decide
theorem test_decode_row_A :
    (reads [0xA0] (.anaR .b) && reads [0xA1] (.anaR .c) && reads [0xA2] (.anaR .d) && reads [0xA3] (.anaR .e) &&
      reads [0xA4] (.anaR .h) && reads [0xA5] (.anaR .l) && reads [0xA6] .anaM && reads [0xA7] (.anaR .a) &&
      reads [0xA8] (.xraR .b) && reads [0xA9] (.xraR .c) && reads [0xAA] (.xraR .d) && reads [0xAB] (.xraR .e) &&
      reads [0xAC] (.xraR .h) && reads [0xAD] (.xraR .l) && reads [0xAE] .xraM && reads [0xAF] (.xraR .a)) = true := by
  decide
theorem test_decode_row_B :
    (reads [0xB0] (.oraR .b) && reads [0xB1] (.oraR .c) && reads [0xB2] (.oraR .d) && reads [0xB3] (.oraR .e) &&
      reads [0xB4] (.oraR .h) && reads [0xB5] (.oraR .l) && reads [0xB6] .oraM && reads [0xB7] (.oraR .a) &&
      reads [0xB8] (.cmpR .b) && reads [0xB9] (.cmpR .c) && reads [0xBA] (.cmpR .d) && reads [0xBB] (.cmpR .e) &&
      reads [0xBC] (.cmpR .h) && reads [0xBD] (.cmpR .l) && reads [0xBE] .cmpM && reads [0xBF] (.cmpR .a)) = true := by
  decide
theorem test_decode_row_C :
    (reads [0xC0] .rnz && reads [0xC1] (.pop .bc) && reads [0xC2, 0x50, 0x20] (.jnz 0x2050) &&
      reads [0xC3, 0x50, 0x20] (.jmp 0x2050) && reads [0xC4, 0x50, 0x20] (.cnz 0x2050) &&
      reads [0xC5] (.push .bc) && reads [0xC6, 0x97] (.adi 0x97) && reads [0xC7] (.rst 0) && reads [0xC8] .rz &&
      reads [0xC9] .ret && reads [0xCA, 0x50, 0x20] (.jz 0x2050) && reads [0xCB] .unassignedCB &&
      reads [0xCC, 0x50, 0x20] (.cz 0x2050) && reads [0xCD, 0x50, 0x20] (.call 0x2050) &&
      reads [0xCE, 0x97] (.aci 0x97) && reads [0xCF] (.rst 1)) = true := by
  decide
theorem test_decode_row_D :
    (reads [0xD0] .rnc && reads [0xD1] (.pop .de) && reads [0xD2, 0x50, 0x20] (.jnc 0x2050) &&
      reads [0xD3, 0x97] (.out 0x97) && reads [0xD4, 0x50, 0x20] (.cnc 0x2050) && reads [0xD5] (.push .de) &&
      reads [0xD6, 0x97] (.sui 0x97) && reads [0xD7] (.rst 2) && reads [0xD8] .rc &&
      reads [0xD9] .unassignedD9 && reads [0xDA, 0x50, 0x20] (.jc 0x2050) && reads [0xDB, 0x97] (.inp 0x97) &&
      reads [0xDC, 0x50, 0x20] (.cc 0x2050) && reads [0xDD] .unassignedDD && reads [0xDE, 0x97] (.sbi 0x97) &&
      reads [0xDF] (.rst 3)) = true := by
  decide
theorem test_decode_row_E :
    (reads [0xE0] .rpo && reads [0xE1] (.pop .hl) && reads [0xE2, 0x50, 0x20] (.jpo 0x2050) &&
      reads [0xE3] .xthl && reads [0xE4, 0x50, 0x20] (.cpo 0x2050) && reads [0xE5] (.push .hl) &&
      reads [0xE6, 0x97] (.ani 0x97) && reads [0xE7] (.rst 4) && reads [0xE8] .rpe && reads [0xE9] .pchl &&
      reads [0xEA, 0x50, 0x20] (.jpe 0x2050) && reads [0xEB] .xchg && reads [0xEC, 0x50, 0x20] (.cpe 0x2050) &&
      reads [0xED] .unassignedED && reads [0xEE, 0x97] (.xri 0x97) && reads [0xEF] (.rst 5)) = true := by
  decide
theorem test_decode_row_F :
    (reads [0xF0] .rp && reads [0xF1] (.pop .psw) && reads [0xF2, 0x50, 0x20] (.jp 0x2050) &&
      reads [0xF3] .di && reads [0xF4, 0x50, 0x20] (.cp 0x2050) && reads [0xF5] (.push .psw) &&
      reads [0xF6, 0x97] (.ori 0x97) && reads [0xF7] (.rst 6) && reads [0xF8] .rm && reads [0xF9] .sphl &&
      reads [0xFA, 0x50, 0x20] (.jm 0x2050) && reads [0xFB] .ei && reads [0xFC, 0x50, 0x20] (.cm 0x2050) &&
      reads [0xFD] .unassignedFD && reads [0xFE, 0x97] (.cpi 0x97) && reads [0xFF] (.rst 7)) = true := by
  decide

/-! ## One step on a small state -/

/-- One difference from a state whose registers and flags are zero (the conventions of 95_test_vectors.md). -/
inductive Edit where
  | reg (r : Reg) (v : Byte)
  | sp (v : Word)
  | pc (v : Word)
  | mem (a : Word) (v : Byte)
  | fl (s z ac p cy : Bool)
  | ie (b : Bool)
  | m75 (b : Bool)
  | m65 (b : Bool)
  | m55 (b : Bool)
  | r75 (b : Bool)
  | sod (b : Bool)
  | halted (b : Bool)
  | shadow (b : Bool)
  | trapReq (b : Bool)
  | reset
  | trap
  | rst75
  | line65 (b : Bool)
  | line55 (b : Bool)
  | intr (b : Byte)
  | sid (b : Bool)
  | portIn (b : Byte)
  | out (p v : Byte)
  | sodOut (b : Bool)
  | fill (b : BitVec 3)
  | nibble0 (b : Bool)
  | map (m : List Region)
  | inta (l : List Byte)

/-- The state with the difference. -/
def edit (s : State) : Edit → State
  | .reg r v => s.setReg r v
  | .sp v => s.setSp v
  | .pc v => s.setPc v
  | .mem a v => s.setMem (Memory.store s.mem a.toNat v)
  | .fl a b c d e => s.setFlags { s := a, z := b, ac := c, p := d, cy := e }
  | .ie b => s.setCtl { s.ctl with ie := b }
  | .m75 b => s.setCtl { s.ctl with m75 := b }
  | .m65 b => s.setCtl { s.ctl with m65 := b }
  | .m55 b => s.setCtl { s.ctl with m55 := b }
  | .r75 b => s.setCtl { s.ctl with r75 := b }
  | .sod b => s.setCtl { s.ctl with sod := b }
  | .halted b => s.setCtl { s.ctl with halted := b }
  | .shadow b => s.setCtl { s.ctl with eiShadow := b }
  | .trapReq b => s.setCtl { s.ctl with trapReq := b }
  | .reset => s.setEnv { s.env with inputs := { s.env.inputs with reset := true } }
  | .trap => s.setEnv { s.env with inputs := { s.env.inputs with trapRequest := true } }
  | .rst75 => s.setEnv { s.env with inputs := { s.env.inputs with rst75Request := true } }
  | .line65 b => s.setEnv { s.env with inputs := { s.env.inputs with line65 := b } }
  | .line55 b => s.setEnv { s.env with inputs := { s.env.inputs with line55 := b } }
  | .intr b => s.setEnv { s.env with inputs := { s.env.inputs with intr := some b } }
  | .sid b => s.setEnv { s.env with inputs := { s.env.inputs with sid := some b } }
  | .portIn b => s.setEnv { s.env with inputs := { s.env.inputs with portIn := some b } }
  | .out p v => s.emit (.port p v)
  | .sodOut b => s.emit (.sod b)
  | .fill b => { s with params := { s.params with pswFill := some b } }
  | .nibble0 b => { s with params := { s.params with acSubNibble0 := b } }
  | .map m => { s with params := { s.params with memMap := m } }
  | .inta l => { s with params := { s.params with intaOpcodes := l } }

/-- The state with the differences, in order. -/
def edits (s : State) (es : List Edit) : State := es.foldl edit s

/-- A start state at `pc` with the instruction's bytes there; and what differs from it after one step. -/
structure Vector where
  start : State
  diffs : List Edit

/-- A vector of the spec's form: address, bytes, start state, end state. -/
def vector (at0 : Word) (bytes : List Byte) (start diffs : List Edit) : Vector where
  start := edits State.reset
    (.pc at0 :: (bytes.zip [at0, at0 + 1, at0 + 2]).map (fun x => .mem x.2 x.1) ++ start)
  diffs := diffs

/-- One step from the start answers exactly the start with the differences, the inputs' events over. -/
def runs (v : Vector) : Bool :=
  match step v.start with
  | .next t => decide (t = (edits v.start v.diffs).tick)
  | _ => false

/-- T-MOV-1, `MOV B,C`, source App.F MOV. -/
theorem test_mov_1 : runs (vector 0x2000 [0x41] [.reg .b 0x72, .reg .c 0x9F]
    [.reg .b 0x9F, .pc 0x2001]) = true := by decide
/-- T-MOV-2, `MOV B,M`, source App.F MOV. -/
theorem test_mov_2 : runs (vector 0x2000 [0x46] [.reg .h 0x20, .reg .l 0x50, .mem 0x2050 0x9F]
    [.reg .b 0x9F, .pc 0x2001]) = true := by decide
/-- T-MVI-1, `MVI B,92H`, source App.F MVI. -/
theorem test_mvi_1 : runs (vector 0x2000 [0x06, 0x92] []
    [.reg .b 0x92, .pc 0x2002]) = true := by decide
/-- T-MVI-2, `MVI M,3AH`, source App.F MVI. -/
theorem test_mvi_2 : runs (vector 0x2000 [0x36, 0x3A] [.reg .h 0x20, .reg .l 0x50]
    [.mem 0x2050 0x3A, .pc 0x2002]) = true := by decide
/-- T-MVI-4, `MVI A,A0H`, source 5.4.1. -/
theorem test_mvi_4 : runs (vector 0x2000 [0x3E, 0xA0] []
    [.reg .a 0xA0, .pc 0x2002]) = true := by decide
/-- T-LXI-1, `LXI B,2050H`, source App.F LXI. -/
theorem test_lxi_1 : runs (vector 0x2000 [0x01, 0x50, 0x20] []
    [.reg .b 0x20, .reg .c 0x50, .pc 0x2003]) = true := by decide
/-- T-LXI-2, `LXI H,C200H`, source 5.4.1. -/
theorem test_lxi_2 : runs (vector 0x2000 [0x21, 0x00, 0xC2] [.reg .h 0xFF, .reg .l 0xFF]
    [.reg .h 0xC2, .reg .l 0x00, .pc 0x2003]) = true := by decide
/-- T-LDA-1, `LDA 2050H`, source App.F LDA. -/
theorem test_lda_1 : runs (vector 0x2000 [0x3A, 0x50, 0x20] [.mem 0x2050 0xF8]
    [.reg .a 0xF8, .pc 0x2003]) = true := by decide
/-- T-STA-1, `STA 2050H`, source App.F STA. -/
theorem test_sta_1 : runs (vector 0x2000 [0x32, 0x50, 0x20] [.reg .a 0x9F]
    [.mem 0x2050 0x9F, .pc 0x2003]) = true := by decide
/-- T-STA-2, `STA 5600H`, source 5.3.3. -/
theorem test_sta_2 : runs (vector 0x2000 [0x32, 0x00, 0x56] [.reg .a 0x11]
    [.mem 0x5600 0x11, .pc 0x2003]) = true := by decide
/-- T-LDAX-1, `LDAX B`, source App.F LDAX. -/
theorem test_ldax_1 : runs (vector 0x2000 [0x0A] [.reg .b 0x20, .reg .c 0x50, .mem 0x2050 0x9F]
    [.reg .a 0x9F, .pc 0x2001]) = true := by decide
/-- T-STAX-1, `STAX B`, source App.F STAX. -/
theorem test_stax_1 : runs (vector 0x2000 [0x02] [.reg .a 0xF9, .reg .b 0x20, .reg .c 0x50]
    [.mem 0x2050 0xF9, .pc 0x2001]) = true := by decide
/-- T-LHLD-1, `LHLD 2050H`, source App.F LHLD. -/
theorem test_lhld_1 : runs (vector 0x2000 [0x2A, 0x50, 0x20] [.mem 0x2050 0x90, .mem 0x2051 0x01]
    [.reg .h 0x01, .reg .l 0x90, .pc 0x2003]) = true := by decide
/-- T-SHLD-1, `SHLD 2050H`, source App.F SHLD. -/
theorem test_shld_1 : runs (vector 0x2000 [0x22, 0x50, 0x20] [.reg .h 0x01, .reg .l 0xFF]
    [.mem 0x2050 0xFF, .mem 0x2051 0x01, .pc 0x2003]) = true := by decide
/-- T-MOV-3, `MOV M,A`, derived. -/
theorem test_mov_3 : runs (vector 0x2000 [0x77] [.reg .a 0x3A, .reg .h 0x20, .reg .l 0x50]
    [.mem 0x2050 0x3A, .pc 0x2001]) = true := by decide
/-- T-MOV-4, `MOV A,A`, derived. -/
theorem test_mov_4 : runs (vector 0x2000 [0x7F] [.reg .a 0x5A, .fl true true true true true]
    [.pc 0x2001]) = true := by decide
/-- T-MOV-5, `MOV H,M`, derived. -/
theorem test_mov_5 : runs (vector 0x2000 [0x66] [.reg .h 0x20, .reg .l 0x50, .mem 0x2050 0x77]
    [.reg .h 0x77, .pc 0x2001]) = true := by decide
/-- T-XCHG-1, `XCHG`, derived. -/
theorem test_xchg_1 : runs (vector 0x2000 [0xEB] [.reg .d 0x12, .reg .e 0x34, .reg .h 0x56, .reg .l 0x78]
    [.reg .d 0x56, .reg .e 0x78, .reg .h 0x12, .reg .l 0x34, .pc 0x2001]) = true := by decide
/-- T-LDAX-2, `LDAX D`, derived. -/
theorem test_ldax_2 : runs (vector 0x2000 [0x1A] [.reg .d 0x30, .reg .e 0x00, .mem 0x3000 0xC4]
    [.reg .a 0xC4, .pc 0x2001]) = true := by decide
/-- T-STAX-2, `STAX D`, derived. -/
theorem test_stax_2 : runs (vector 0x2000 [0x12] [.reg .a 0x6B, .reg .d 0x30, .reg .e 0x01]
    [.mem 0x3001 0x6B, .pc 0x2001]) = true := by decide
/-- T-LHLD-2, `LHLD FFFFH`, derived. -/
theorem test_lhld_2 : runs (vector 0x2000 [0x2A, 0xFF, 0xFF] [.mem 0x0000 0x12, .mem 0xFFFF 0x34]
    [.reg .h 0x12, .reg .l 0x34, .pc 0x2003]) = true := by decide
/-- T-SHLD-2, `SHLD FFFFH`, derived. -/
theorem test_shld_2 : runs (vector 0x2000 [0x22, 0xFF, 0xFF] [.reg .h 0xAB, .reg .l 0xCD]
    [.mem 0x0000 0xAB, .mem 0xFFFF 0xCD, .pc 0x2003]) = true := by decide
/-- T-ADD-1, `ADD B`, source App.F ADD. -/
theorem test_add_1 : runs (vector 0x2000 [0x80] [.reg .a 0x47, .reg .b 0x51]
    [.reg .a 0x98, .pc 0x2001, .fl true false false false false]) = true := by decide
/-- T-ADD-2, `ADD M`, source App.F ADD. -/
theorem test_add_2 : runs (vector 0x2000 [0x86] [.reg .a 0x76, .reg .h 0x20, .reg .l 0x50, .mem 0x2050 0xA2]
    [.reg .a 0x18, .pc 0x2001, .fl false false false true true]) = true := by decide
/-- T-ADI-1, `ADI 59H`, source App.F ADI. -/
theorem test_adi_1 : runs (vector 0x2000 [0xC6, 0x59] [.reg .a 0x4A]
    [.reg .a 0xA3, .pc 0x2002, .fl true false true true false]) = true := by decide
/-- T-ACI-1, `ACI 57H`, source App.F ACI. -/
theorem test_aci_1 : runs (vector 0x2000 [0xCE, 0x57] [.reg .a 0x26, .fl false false false false true]
    [.reg .a 0x7E, .pc 0x2002, .fl false false false true false]) = true := by decide
/-- T-ADC-1, `ADC D`, source App.F ADC (step 2 of the 16-bit example). -/
theorem test_adc_1 : runs (vector 0x2000 [0x8A] [.reg .a 0x24, .reg .d 0x54, .fl false false false false true]
    [.reg .a 0x79, .pc 0x2001, .fl false false false false false]) = true := by decide
/-- T-SUB-1, `SUB C`, source App.F SUB. -/
theorem test_sub_1 : runs (vector 0x2000 [0x91] [.reg .a 0x37, .reg .c 0x40]
    [.reg .a 0xF7, .pc 0x2001, .fl true false false false true]) = true := by decide
/-- T-SBB-1, `SBB B`, source App.F SBB. -/
theorem test_sbb_1 : runs (vector 0x2000 [0x98] [.reg .a 0x37, .reg .b 0x3F, .fl false false false false true]
    [.reg .a 0xF7, .pc 0x2001, .fl true false false false true]) = true := by decide
/-- T-SUI-1, `SUI 37H`, source App.F SUI. -/
theorem test_sui_1 : runs (vector 0x2000 [0xD6, 0x37] [.reg .a 0x40]
    [.reg .a 0x09, .pc 0x2002, .fl false false false true false]) = true := by decide
/-- T-SBI-1, `SBI 25H`, source App.F SBI. -/
theorem test_sbi_1 : runs (vector 0x2000 [0xDE, 0x25] [.reg .a 0x37, .fl false false false false true]
    [.reg .a 0x11, .pc 0x2002, .fl false false true true false]) = true := by decide
/-- T-INR-1, `INR D`, source App.F INR. -/
theorem test_inr_1 : runs (vector 0x2000 [0x14] [.reg .d 0xFF, .fl false false false false false]
    [.reg .d 0x00, .pc 0x2001, .fl false true true true false]) = true := by decide
/-- T-INR-2, `INR M`, source App.F INR. -/
theorem test_inr_2 : runs (vector 0x2000 [0x34] [.reg .h 0x20, .reg .l 0x75, .mem 0x2075 0x7F]
    [.mem 0x2075 0x80, .pc 0x2001, .fl true false true false false]) = true := by decide
/-- T-DCR-1, `DCR B`, source App.F DCR. -/
theorem test_dcr_1 : runs (vector 0x2000 [0x05] [.reg .b 0x00, .fl false false false false false]
    [.reg .b 0xFF, .pc 0x2001, .fl true false false true false]) = true := by decide
/-- T-DCR-2, `DCR M`, source App.F DCR. -/
theorem test_dcr_2 : runs (vector 0x2000 [0x35] [.reg .h 0x20, .reg .l 0x85, .mem 0x2085 0xA0]
    [.mem 0x2085 0x9F, .pc 0x2001, .fl true false false true false]) = true := by decide
/-- T-INX-1, `INX H`, source App.F INX. -/
theorem test_inx_1 : runs (vector 0x2000 [0x23] [.reg .h 0x9F, .reg .l 0xFF, .fl true true true true true]
    [.reg .h 0xA0, .reg .l 0x00, .pc 0x2001]) = true := by decide
/-- T-DCX-1, `DCX D`, source App.F DCX. -/
theorem test_dcx_1 : runs (vector 0x2000 [0x1B] [.reg .d 0x20, .reg .e 0x00]
    [.reg .d 0x1F, .reg .e 0xFF, .pc 0x2001]) = true := by decide
/-- T-DAD-1, `DAD H`, source App.F DAD. -/
theorem test_dad_1 : runs (vector 0x2000 [0x29] [.reg .h 0x02, .reg .l 0x42]
    [.reg .h 0x04, .reg .l 0x84, .pc 0x2001]) = true := by decide
/-- T-DAD-2, `DAD SP`, source App.F DAD. -/
theorem test_dad_2 : runs (vector 0x2000 [0x39] [.reg .h 0x00, .reg .l 0x00, .sp 0x2099]
    [.reg .h 0x20, .reg .l 0x99, .pc 0x2001]) = true := by decide
/-- T-DAA-1, `DAA`, source App.F DAA. -/
theorem test_daa_1 : runs (vector 0x2000 [0x27] [.reg .a 0x4B, .fl false false false false false]
    [.reg .a 0x51, .pc 0x2001, .fl false false true false false]) = true := by decide
/-- T-DAA-2, `DAA`, source App.F DAA. -/
theorem test_daa_2 : runs (vector 0x2000 [0x27] [.reg .a 0xED, .fl false false false false false]
    [.reg .a 0x53, .pc 0x2001, .fl false false true true true]) = true := by decide
/-- T-ADD-3, `ADD A`, derived. -/
theorem test_add_3 : runs (vector 0x2000 [0x87] [.reg .a 0x80]
    [.reg .a 0x00, .pc 0x2001, .fl false true false true true]) = true := by decide
/-- T-ADC-2, `ADC B`, derived. -/
theorem test_adc_2 : runs (vector 0x2000 [0x88] [.reg .a 0xFF, .reg .b 0x00, .fl false false false false true]
    [.reg .a 0x00, .pc 0x2001, .fl false true true true true]) = true := by decide
/-- T-ACI-2, `ACI 00H`, derived. -/
theorem test_aci_2 : runs (vector 0x2000 [0xCE, 0x00] [.reg .a 0x0F, .fl false false false false true]
    [.reg .a 0x10, .pc 0x2002, .fl false false true false false]) = true := by decide
/-- T-SUB-2, `SUB A`, derived. -/
theorem test_sub_2 : runs (vector 0x2000 [0x97] [.reg .a 0x5C, .fl false false false false true]
    [.reg .a 0x00, .pc 0x2001, .fl false true true true false]) = true := by decide
/-- T-SBB-2, `SBB B`, derived. -/
theorem test_sbb_2 : runs (vector 0x2000 [0x98] [.reg .a 0x00, .reg .b 0xFF, .fl false false false false true]
    [.pc 0x2001, .fl false true false true true]) = true := by decide
/-- T-SBI-2, `SBI 0FH`, derived. -/
theorem test_sbi_2 : runs (vector 0x2000 [0xDE, 0x0F] [.reg .a 0x20, .fl false false false false true]
    [.reg .a 0x10, .pc 0x2002, .fl false false false false false]) = true := by decide
/-- T-INR-3, `INR A`, derived. -/
theorem test_inr_3 : runs (vector 0x2000 [0x3C] [.reg .a 0x0F, .fl false false false false true]
    [.reg .a 0x10, .pc 0x2001, .fl false false true false true]) = true := by decide
/-- T-INR-4, `INR M`, derived. -/
theorem test_inr_4 : runs (vector 0x2000 [0x34] [.reg .h 0x20, .reg .l 0x75, .mem 0x2075 0xFF, .fl false false false false false]
    [.mem 0x2075 0x00, .pc 0x2001, .fl false true true true false]) = true := by decide
/-- T-DCR-3, `DCR C`, derived. -/
theorem test_dcr_3 : runs (vector 0x2000 [0x0D] [.reg .c 0x01, .fl false false false false true]
    [.reg .c 0x00, .pc 0x2001, .fl false true true true true]) = true := by decide
/-- T-INX-2, `INX SP`, derived. -/
theorem test_inx_2 : runs (vector 0x2000 [0x33] [.sp 0xFFFF]
    [.sp 0x0000, .pc 0x2001]) = true := by decide
/-- T-DCX-2, `DCX B`, derived. -/
theorem test_dcx_2 : runs (vector 0x2000 [0x0B] [.reg .b 0x00, .reg .c 0x01, .fl false false false false false]
    [.reg .c 0x00, .pc 0x2001]) = true := by decide
/-- T-ANA-1, `ANA D`, source App.F ANA. -/
theorem test_ana_1 : runs (vector 0x2000 [0xA2] [.reg .a 0x54, .reg .d 0x82]
    [.reg .a 0x00, .pc 0x2001, .fl false true true true false]) = true := by decide
/-- T-ANI-1, `ANI 97H`, source App.F ANI. -/
theorem test_ani_1 : runs (vector 0x2000 [0xE6, 0x97] [.reg .a 0xA3]
    [.reg .a 0x83, .pc 0x2002, .fl true false true false false]) = true := by decide
/-- T-XRA-1, `XRA D`, source App.F XRA. -/
theorem test_xra_1 : runs (vector 0x2000 [0xAA] [.reg .a 0x77, .reg .d 0x56]
    [.reg .a 0x21, .pc 0x2001, .fl false false false true false]) = true := by decide
/-- T-XRI-1, `XRI A2H`, source App.F XRI. -/
theorem test_xri_1 : runs (vector 0x2000 [0xEE, 0xA2] [.reg .a 0x8F]
    [.reg .a 0x2D, .pc 0x2002, .fl false false false true false]) = true := by decide
/-- T-ORA-1, `ORA C`, source App.F ORA. -/
theorem test_ora_1 : runs (vector 0x2000 [0xB1] [.reg .a 0x03, .reg .c 0x81]
    [.reg .a 0x83, .pc 0x2001, .fl true false false false false]) = true := by decide
/-- T-CMP-1, `CMP B`, source App.F CMP. -/
theorem test_cmp_1 : runs (vector 0x2000 [0xB8] [.reg .a 0x57, .reg .b 0x62]
    [.pc 0x2001, .fl true false true true true]) = true := by decide
/-- T-CPI-1, `CPI 98H`, source App.F CPI. -/
theorem test_cpi_1 : runs (vector 0x2000 [0xFE, 0x98] [.reg .a 0xC2]
    [.pc 0x2002, .fl false false false false false]) = true := by decide
/-- T-CPI-2, `CPI C2H`, source App.F CPI. -/
theorem test_cpi_2 : runs (vector 0x2000 [0xFE, 0xC2] [.reg .a 0xC2]
    [.pc 0x2002, .fl false true true true false]) = true := by decide
/-- T-RLC-1, `RLC`, source App.F RLC. -/
theorem test_rlc_1 : runs (vector 0x2000 [0x07] [.reg .a 0xA7, .fl false false false false false]
    [.reg .a 0x4F, .pc 0x2001, .fl false false false false true]) = true := by decide
/-- T-CMA-1, `CMA`, source App.F CMA. -/
theorem test_cma_1 : runs (vector 0x2000 [0x2F] [.reg .a 0x89]
    [.reg .a 0x76, .pc 0x2001]) = true := by decide
/-- T-RRC-1, `RRC`, source start state, derived result. -/
theorem test_rrc_1 : runs (vector 0x2000 [0x0F] [.reg .a 0xA7, .fl false false false false false]
    [.reg .a 0xD3, .pc 0x2001, .fl false false false false true]) = true := by decide
/-- T-RAL-1, `RAL`, source start state, derived result. -/
theorem test_ral_1 : runs (vector 0x2000 [0x17] [.reg .a 0xA7, .fl false false false false false]
    [.reg .a 0x4E, .pc 0x2001, .fl false false false false true]) = true := by decide
/-- T-RAR-1, `RAR`, source start state, derived result. -/
theorem test_rar_1 : runs (vector 0x2000 [0x1F] [.reg .a 0xA7, .fl false false false false false]
    [.reg .a 0x53, .pc 0x2001, .fl false false false false true]) = true := by decide
/-- T-ANA-2, `ANA A`, derived. -/
theorem test_ana_2 : runs (vector 0x2000 [0xA7] [.reg .a 0x00, .fl false false false false true]
    [.pc 0x2001, .fl false true true true false]) = true := by decide
/-- T-ANA-3, `ANA M`, derived. -/
theorem test_ana_3 : runs (vector 0x2000 [0xA6] [.reg .a 0xF0, .reg .h 0x20, .reg .l 0x50, .mem 0x2050 0x3C]
    [.reg .a 0x30, .pc 0x2001, .fl false false true true false]) = true := by decide
/-- T-XRA-2, `XRA A`, derived. -/
theorem test_xra_2 : runs (vector 0x2000 [0xAF] [.reg .a 0x5A, .fl true true true true true]
    [.reg .a 0x00, .pc 0x2001, .fl false true false true false]) = true := by decide
/-- T-ORA-2, `ORA A`, derived. -/
theorem test_ora_2 : runs (vector 0x2000 [0xB7] [.reg .a 0x00, .fl false false true false true]
    [.pc 0x2001, .fl false true false true false]) = true := by decide
/-- T-ORI-1, `ORI 80H`, derived. -/
theorem test_ori_1 : runs (vector 0x2000 [0xF6, 0x80] [.reg .a 0x0F]
    [.reg .a 0x8F, .pc 0x2002, .fl true false false false false]) = true := by decide
/-- T-CMP-2, `CMP A`, derived. -/
theorem test_cmp_2 : runs (vector 0x2000 [0xBF] [.reg .a 0x3C]
    [.pc 0x2001, .fl false true true true false]) = true := by decide
/-- T-CMP-3, `CMP M`, derived. -/
theorem test_cmp_3 : runs (vector 0x2000 [0xBE] [.reg .a 0x10, .reg .h 0x20, .reg .l 0x50, .mem 0x2050 0x20]
    [.pc 0x2001, .fl true false false true true]) = true := by decide
/-- T-RLC-2, `RLC`, derived. -/
theorem test_rlc_2 : runs (vector 0x2000 [0x07] [.reg .a 0x01, .fl false false false false true]
    [.reg .a 0x02, .pc 0x2001, .fl false false false false false]) = true := by decide
/-- T-RRC-2, `RRC`, derived. -/
theorem test_rrc_2 : runs (vector 0x2000 [0x0F] [.reg .a 0x01, .fl false false false false false]
    [.reg .a 0x80, .pc 0x2001, .fl false false false false true]) = true := by decide
/-- T-RAL-2, `RAL`, derived. -/
theorem test_ral_2 : runs (vector 0x2000 [0x17] [.reg .a 0x80, .fl false false false false true]
    [.reg .a 0x01, .pc 0x2001]) = true := by decide
/-- T-RAR-2, `RAR`, derived. -/
theorem test_rar_2 : runs (vector 0x2000 [0x1F] [.reg .a 0x01, .fl false false false false false]
    [.reg .a 0x00, .pc 0x2001, .fl false false false false true]) = true := by decide
/-- T-CMA-2, `CMA`, derived. -/
theorem test_cma_2 : runs (vector 0x2000 [0x2F] [.reg .a 0xFF, .fl true true true true true]
    [.reg .a 0x00, .pc 0x2001]) = true := by decide
/-- T-CMC-1, `CMC`, derived. -/
theorem test_cmc_1 : runs (vector 0x2000 [0x3F] [.fl false false false false true]
    [.pc 0x2001, .fl false false false false false]) = true := by decide
/-- T-CMC-2, `CMC`, derived. -/
theorem test_cmc_2 : runs (vector 0x2000 [0x3F] [.fl false false false false false]
    [.pc 0x2001, .fl false false false false true]) = true := by decide
/-- T-STC-1, `STC`, derived. -/
theorem test_stc_1 : runs (vector 0x2000 [0x37] [.fl false false false false false]
    [.pc 0x2001, .fl false false false false true]) = true := by decide
/-- T-STC-2, `STC`, derived. -/
theorem test_stc_2 : runs (vector 0x2000 [0x37] [.fl true true true true true]
    [.pc 0x2001]) = true := by decide
/-- T-JMP-1, `JMP 2050H`, source App.F JMP. -/
theorem test_jmp_1 : runs (vector 0x2000 [0xC3, 0x50, 0x20] []
    [.pc 0x2050]) = true := by decide
/-- T-CALL-1, `CALL 2050H`, source App.F CALL. -/
theorem test_call_1 : runs (vector 0x2010 [0xCD, 0x50, 0x20] [.sp 0x2099]
    [.sp 0x2097, .mem 0x2097 0x13, .mem 0x2098 0x20, .pc 0x2050]) = true := by decide
/-- T-RET-1, `RET`, source App.F RET. -/
theorem test_ret_1 : runs (vector 0x2060 [0xC9] [.sp 0x2095, .mem 0x2095 0x50, .mem 0x2096 0x20]
    [.sp 0x2097, .pc 0x2050]) = true := by decide
/-- T-JNZ-t, `JNZ 3000H`, derived. -/
theorem test_jnz_t : runs (vector 0x2000 [0xC2, 0x00, 0x30] [.fl false false false false false]
    [.pc 0x3000]) = true := by decide
/-- T-JNZ-n, `JNZ 3000H`, derived. -/
theorem test_jnz_n : runs (vector 0x2000 [0xC2, 0x00, 0x30] [.fl false true false false false]
    [.pc 0x2003]) = true := by decide
/-- T-JZ-t, `JZ 3000H`, derived. -/
theorem test_jz_t : runs (vector 0x2000 [0xCA, 0x00, 0x30] [.fl false true false false false]
    [.pc 0x3000]) = true := by decide
/-- T-JZ-n, `JZ 3000H`, derived. -/
theorem test_jz_n : runs (vector 0x2000 [0xCA, 0x00, 0x30] [.fl false false false false false]
    [.pc 0x2003]) = true := by decide
/-- T-JNC-t, `JNC 3000H`, derived. -/
theorem test_jnc_t : runs (vector 0x2000 [0xD2, 0x00, 0x30] [.fl false false false false false]
    [.pc 0x3000]) = true := by decide
/-- T-JNC-n, `JNC 3000H`, derived. -/
theorem test_jnc_n : runs (vector 0x2000 [0xD2, 0x00, 0x30] [.fl false false false false true]
    [.pc 0x2003]) = true := by decide
/-- T-JC-t, `JC 3000H`, derived. -/
theorem test_jc_t : runs (vector 0x2000 [0xDA, 0x00, 0x30] [.fl false false false false true]
    [.pc 0x3000]) = true := by decide
/-- T-JC-n, `JC 3000H`, derived. -/
theorem test_jc_n : runs (vector 0x2000 [0xDA, 0x00, 0x30] [.fl false false false false false]
    [.pc 0x2003]) = true := by decide
/-- T-JPO-t, `JPO 3000H`, derived. -/
theorem test_jpo_t : runs (vector 0x2000 [0xE2, 0x00, 0x30] [.fl false false false false false]
    [.pc 0x3000]) = true := by decide
/-- T-JPO-n, `JPO 3000H`, derived. -/
theorem test_jpo_n : runs (vector 0x2000 [0xE2, 0x00, 0x30] [.fl false false false true false]
    [.pc 0x2003]) = true := by decide
/-- T-JPE-t, `JPE 3000H`, derived. -/
theorem test_jpe_t : runs (vector 0x2000 [0xEA, 0x00, 0x30] [.fl false false false true false]
    [.pc 0x3000]) = true := by decide
/-- T-JPE-n, `JPE 3000H`, derived. -/
theorem test_jpe_n : runs (vector 0x2000 [0xEA, 0x00, 0x30] [.fl false false false false false]
    [.pc 0x2003]) = true := by decide
/-- T-JP-t, `JP 3000H`, derived. -/
theorem test_jp_t : runs (vector 0x2000 [0xF2, 0x00, 0x30] [.fl false false false false false]
    [.pc 0x3000]) = true := by decide
/-- T-JP-n, `JP 3000H`, derived. -/
theorem test_jp_n : runs (vector 0x2000 [0xF2, 0x00, 0x30] [.fl true false false false false]
    [.pc 0x2003]) = true := by decide
/-- T-JM-t, `JM 3000H`, derived. -/
theorem test_jm_t : runs (vector 0x2000 [0xFA, 0x00, 0x30] [.fl true false false false false]
    [.pc 0x3000]) = true := by decide
/-- T-JM-n, `JM 3000H`, derived. -/
theorem test_jm_n : runs (vector 0x2000 [0xFA, 0x00, 0x30] [.fl false false false false false]
    [.pc 0x2003]) = true := by decide
/-- T-CNZ-t, `CNZ 3000H`, derived. -/
theorem test_cnz_t : runs (vector 0x2000 [0xC4, 0x00, 0x30] [.sp 0x2099, .fl false false false false false]
    [.sp 0x2097, .mem 0x2097 0x03, .mem 0x2098 0x20, .pc 0x3000]) = true := by decide
/-- T-CNZ-n, `CNZ 3000H`, derived. -/
theorem test_cnz_n : runs (vector 0x2000 [0xC4, 0x00, 0x30] [.sp 0x2099, .fl false true false false false]
    [.pc 0x2003]) = true := by decide
/-- T-CZ-t, `CZ 3000H`, derived. -/
theorem test_cz_t : runs (vector 0x2000 [0xCC, 0x00, 0x30] [.sp 0x2099, .fl false true false false false]
    [.sp 0x2097, .mem 0x2097 0x03, .mem 0x2098 0x20, .pc 0x3000]) = true := by decide
/-- T-CZ-n, `CZ 3000H`, derived. -/
theorem test_cz_n : runs (vector 0x2000 [0xCC, 0x00, 0x30] [.sp 0x2099, .fl false false false false false]
    [.pc 0x2003]) = true := by decide
/-- T-CNC-t, `CNC 3000H`, derived. -/
theorem test_cnc_t : runs (vector 0x2000 [0xD4, 0x00, 0x30] [.sp 0x2099, .fl false false false false false]
    [.sp 0x2097, .mem 0x2097 0x03, .mem 0x2098 0x20, .pc 0x3000]) = true := by decide
/-- T-CNC-n, `CNC 3000H`, derived. -/
theorem test_cnc_n : runs (vector 0x2000 [0xD4, 0x00, 0x30] [.sp 0x2099, .fl false false false false true]
    [.pc 0x2003]) = true := by decide
/-- T-CC-t, `CC 3000H`, derived. -/
theorem test_cc_t : runs (vector 0x2000 [0xDC, 0x00, 0x30] [.sp 0x2099, .fl false false false false true]
    [.sp 0x2097, .mem 0x2097 0x03, .mem 0x2098 0x20, .pc 0x3000]) = true := by decide
/-- T-CC-n, `CC 3000H`, derived. -/
theorem test_cc_n : runs (vector 0x2000 [0xDC, 0x00, 0x30] [.sp 0x2099, .fl false false false false false]
    [.pc 0x2003]) = true := by decide
/-- T-CPO-t, `CPO 3000H`, derived. -/
theorem test_cpo_t : runs (vector 0x2000 [0xE4, 0x00, 0x30] [.sp 0x2099, .fl false false false false false]
    [.sp 0x2097, .mem 0x2097 0x03, .mem 0x2098 0x20, .pc 0x3000]) = true := by decide
/-- T-CPO-n, `CPO 3000H`, derived. -/
theorem test_cpo_n : runs (vector 0x2000 [0xE4, 0x00, 0x30] [.sp 0x2099, .fl false false false true false]
    [.pc 0x2003]) = true := by decide
/-- T-CPE-t, `CPE 3000H`, derived. -/
theorem test_cpe_t : runs (vector 0x2000 [0xEC, 0x00, 0x30] [.sp 0x2099, .fl false false false true false]
    [.sp 0x2097, .mem 0x2097 0x03, .mem 0x2098 0x20, .pc 0x3000]) = true := by decide
/-- T-CPE-n, `CPE 3000H`, derived. -/
theorem test_cpe_n : runs (vector 0x2000 [0xEC, 0x00, 0x30] [.sp 0x2099, .fl false false false false false]
    [.pc 0x2003]) = true := by decide
/-- T-CP-t, `CP 3000H`, derived. -/
theorem test_cp_t : runs (vector 0x2000 [0xF4, 0x00, 0x30] [.sp 0x2099, .fl false false false false false]
    [.sp 0x2097, .mem 0x2097 0x03, .mem 0x2098 0x20, .pc 0x3000]) = true := by decide
/-- T-CP-n, `CP 3000H`, derived. -/
theorem test_cp_n : runs (vector 0x2000 [0xF4, 0x00, 0x30] [.sp 0x2099, .fl true false false false false]
    [.pc 0x2003]) = true := by decide
/-- T-CM-t, `CM 3000H`, derived. -/
theorem test_cm_t : runs (vector 0x2000 [0xFC, 0x00, 0x30] [.sp 0x2099, .fl true false false false false]
    [.sp 0x2097, .mem 0x2097 0x03, .mem 0x2098 0x20, .pc 0x3000]) = true := by decide
/-- T-CM-n, `CM 3000H`, derived. -/
theorem test_cm_n : runs (vector 0x2000 [0xFC, 0x00, 0x30] [.sp 0x2099, .fl false false false false false]
    [.pc 0x2003]) = true := by decide
/-- T-RNZ-t, `RNZ`, derived. -/
theorem test_rnz_t : runs (vector 0x2000 [0xC0] [.sp 0x2095, .mem 0x2095 0x50, .mem 0x2096 0x20, .fl false false false false false]
    [.sp 0x2097, .pc 0x2050]) = true := by decide
/-- T-RNZ-n, `RNZ`, derived. -/
theorem test_rnz_n : runs (vector 0x2000 [0xC0] [.sp 0x2095, .mem 0x2095 0x50, .mem 0x2096 0x20, .fl false true false false false]
    [.pc 0x2001]) = true := by decide
/-- T-RZ-t, `RZ`, derived. -/
theorem test_rz_t : runs (vector 0x2000 [0xC8] [.sp 0x2095, .mem 0x2095 0x50, .mem 0x2096 0x20, .fl false true false false false]
    [.sp 0x2097, .pc 0x2050]) = true := by decide
/-- T-RZ-n, `RZ`, derived. -/
theorem test_rz_n : runs (vector 0x2000 [0xC8] [.sp 0x2095, .mem 0x2095 0x50, .mem 0x2096 0x20, .fl false false false false false]
    [.pc 0x2001]) = true := by decide
/-- T-RNC-t, `RNC`, derived. -/
theorem test_rnc_t : runs (vector 0x2000 [0xD0] [.sp 0x2095, .mem 0x2095 0x50, .mem 0x2096 0x20, .fl false false false false false]
    [.sp 0x2097, .pc 0x2050]) = true := by decide
/-- T-RNC-n, `RNC`, derived. -/
theorem test_rnc_n : runs (vector 0x2000 [0xD0] [.sp 0x2095, .mem 0x2095 0x50, .mem 0x2096 0x20, .fl false false false false true]
    [.pc 0x2001]) = true := by decide
/-- T-RC-t, `RC`, derived. -/
theorem test_rc_t : runs (vector 0x2000 [0xD8] [.sp 0x2095, .mem 0x2095 0x50, .mem 0x2096 0x20, .fl false false false false true]
    [.sp 0x2097, .pc 0x2050]) = true := by decide
/-- T-RC-n, `RC`, derived. -/
theorem test_rc_n : runs (vector 0x2000 [0xD8] [.sp 0x2095, .mem 0x2095 0x50, .mem 0x2096 0x20, .fl false false false false false]
    [.pc 0x2001]) = true := by decide
/-- T-RPO-t, `RPO`, derived. -/
theorem test_rpo_t : runs (vector 0x2000 [0xE0] [.sp 0x2095, .mem 0x2095 0x50, .mem 0x2096 0x20, .fl false false false false false]
    [.sp 0x2097, .pc 0x2050]) = true := by decide
/-- T-RPO-n, `RPO`, derived. -/
theorem test_rpo_n : runs (vector 0x2000 [0xE0] [.sp 0x2095, .mem 0x2095 0x50, .mem 0x2096 0x20, .fl false false false true false]
    [.pc 0x2001]) = true := by decide
/-- T-RPE-t, `RPE`, derived. -/
theorem test_rpe_t : runs (vector 0x2000 [0xE8] [.sp 0x2095, .mem 0x2095 0x50, .mem 0x2096 0x20, .fl false false false true false]
    [.sp 0x2097, .pc 0x2050]) = true := by decide
/-- T-RPE-n, `RPE`, derived. -/
theorem test_rpe_n : runs (vector 0x2000 [0xE8] [.sp 0x2095, .mem 0x2095 0x50, .mem 0x2096 0x20, .fl false false false false false]
    [.pc 0x2001]) = true := by decide
/-- T-RP-t, `RP`, derived. -/
theorem test_rp_t : runs (vector 0x2000 [0xF0] [.sp 0x2095, .mem 0x2095 0x50, .mem 0x2096 0x20, .fl false false false false false]
    [.sp 0x2097, .pc 0x2050]) = true := by decide
/-- T-RP-n, `RP`, derived. -/
theorem test_rp_n : runs (vector 0x2000 [0xF0] [.sp 0x2095, .mem 0x2095 0x50, .mem 0x2096 0x20, .fl true false false false false]
    [.pc 0x2001]) = true := by decide
/-- T-RM-t, `RM`, derived. -/
theorem test_rm_t : runs (vector 0x2000 [0xF8] [.sp 0x2095, .mem 0x2095 0x50, .mem 0x2096 0x20, .fl true false false false false]
    [.sp 0x2097, .pc 0x2050]) = true := by decide
/-- T-RM-n, `RM`, derived. -/
theorem test_rm_n : runs (vector 0x2000 [0xF8] [.sp 0x2095, .mem 0x2095 0x50, .mem 0x2096 0x20, .fl false false false false false]
    [.pc 0x2001]) = true := by decide
/-- T-RST-5, `RST 5`, derived. -/
theorem test_rst_5 : runs (vector 0x2010 [0xEF] [.sp 0x2099]
    [.sp 0x2097, .mem 0x2097 0x11, .mem 0x2098 0x20, .pc 0x0028]) = true := by decide
/-- T-PCHL-1, `PCHL`, derived. -/
theorem test_pchl_1 : runs (vector 0x2100 [0xE9] [.reg .h 0x20, .reg .l 0x50]
    [.pc 0x2050]) = true := by decide
/-- T-CALL-2, `CALL 3000H`, derived. -/
theorem test_call_2 : runs (vector 0x2000 [0xCD, 0x00, 0x30] [.sp 0x0001]
    [.sp 0xFFFF, .mem 0x0000 0x20, .mem 0xFFFF 0x03, .pc 0x3000]) = true := by decide
/-- T-RET-2, `RET`, derived. -/
theorem test_ret_2 : runs (vector 0x2000 [0xC9] [.sp 0xFFFF, .mem 0x0000 0x12, .mem 0xFFFF 0x34]
    [.sp 0x0001, .pc 0x1234]) = true := by decide
/-- T-JMP-2, `JMP 2000H`, derived. -/
theorem test_jmp_2 : runs (vector 0x2000 [0xC3, 0x00, 0x20] []
    [.pc 0x2000]) = true := by decide
/-- T-PUSH-1, `PUSH B`, source App.F PUSH. -/
theorem test_push_1 : runs (vector 0x2000 [0xC5] [.reg .b 0x32, .reg .c 0x57, .sp 0x2099]
    [.sp 0x2097, .mem 0x2097 0x57, .mem 0x2098 0x32, .pc 0x2001]) = true := by decide
/-- T-POP-1, `POP H`, source App.F POP. -/
theorem test_pop_1 : runs (vector 0x2000 [0xE1] [.sp 0x2090, .mem 0x2090 0xF5, .mem 0x2091 0x01]
    [.reg .h 0x01, .reg .l 0xF5, .sp 0x2092, .pc 0x2001]) = true := by decide
/-- T-XTHL-1, `XTHL`, source App.F XTHL. -/
theorem test_xthl_1 : runs (vector 0x2000 [0xE3] [.reg .h 0xA2, .reg .l 0x57, .sp 0x2095, .mem 0x2095 0x38, .mem 0x2096 0x67]
    [.reg .h 0x67, .reg .l 0x38, .mem 0x2095 0x57, .mem 0x2096 0xA2, .pc 0x2001]) = true := by decide
/-- T-PUSH-2, `PUSH PSW`, derived. -/
theorem test_push_2 : runs (vector 0x2000 [0xF5] [.reg .a 0x9C, .sp 0x2099, .fill 0, .fl true false true false true]
    [.sp 0x2097, .mem 0x2097 0x91, .mem 0x2098 0x9C, .pc 0x2001]) = true := by decide
/-- T-POP-2, `POP PSW`, derived. -/
theorem test_pop_2 : runs (vector 0x2000 [0xF1] [.sp 0x2097, .mem 0x2097 0xFF, .mem 0x2098 0x12]
    [.reg .a 0x12, .sp 0x2099, .pc 0x2001, .fl true true true true true]) = true := by decide
/-- T-XTHL-2, `XTHL`, derived. -/
theorem test_xthl_2 : runs (vector 0x2000 [0xE3] [.reg .h 0x11, .reg .l 0x22, .sp 0xFFFF, .mem 0x0000 0x44, .mem 0xFFFF 0x33]
    [.reg .h 0x44, .reg .l 0x33, .mem 0x0000 0x11, .mem 0xFFFF 0x22, .pc 0x2001]) = true := by decide
/-- T-SPHL-1, `SPHL`, derived. -/
theorem test_sphl_1 : runs (vector 0x2000 [0xF9] [.reg .h 0x20, .reg .l 0x99]
    [.sp 0x2099, .pc 0x2001]) = true := by decide
/-- T-IN-1, `IN 01H`, derived. -/
theorem test_in_1 : runs (vector 0x2000 [0xDB, 0x01] [.portIn 0x5A]
    [.reg .a 0x5A, .pc 0x2002]) = true := by decide
/-- T-OUT-1, `OUT 02H`, derived. -/
theorem test_out_1 : runs (vector 0x2000 [0xD3, 0x02] [.reg .a 0x3C]
    [.out 0x02 0x3C, .pc 0x2002]) = true := by decide
/-- T-EI-1, `EI`, derived. -/
theorem test_ei_1 : runs (vector 0x2000 [0xFB] [.ie false]
    [.ie true, .pc 0x2001, .shadow true]) = true := by decide
/-- T-DI-1, `DI`, derived. -/
theorem test_di_1 : runs (vector 0x2000 [0xF3] [.ie true]
    [.ie false, .pc 0x2001]) = true := by decide
/-- T-HLT-1, `HLT`, derived. -/
theorem test_hlt_1 : runs (vector 0x2005 [0x76] []
    [.halted true, .pc 0x2006]) = true := by decide
/-- T-NOP-1, `NOP`, derived. -/
theorem test_nop_1 : runs (vector 0x2000 [0x00] [.reg .a 0x12, .fl true true true true true]
    [.pc 0x2001]) = true := by decide
/-- T-SIM-4, `SIM`, derived. -/
theorem test_sim_4 : runs (vector 0x2000 [0x30] [.reg .a 0xC8, .m75 true, .m65 true, .m55 true, .r75 true, .sod false]
    [.m75 false, .m65 false, .m55 false, .sod true, .pc 0x2001, .sodOut true]) = true := by decide
/-- T-SIM-5, `SIM`, derived. -/
theorem test_sim_5 : runs (vector 0x2000 [0x30] [.reg .a 0x87, .m75 false, .m65 false, .m55 false, .sod false]
    [.pc 0x2001]) = true := by decide
/-- T-RIM-2, `RIM`, derived. -/
theorem test_rim_2 : runs (vector 0x2000 [0x20] [.ie false, .m75 true, .m65 true, .m55 false, .r75 false, .sid true, .line65 true, .line55 true, .fl true true true true true]
    [.reg .a 0xB6, .pc 0x2001]) = true := by decide

/-! Operand M, derived from the rules named. -/

/-- R145: 7FH + 01H + 1 = 81H. -/
theorem test_adcM : runs (vector 0x2000 [0x8E] [.reg .a 0x7F, .reg .h 0x20, .reg .l 0x50, .mem 0x2050 0x01,
    .fl false false false false true] [.reg .a 0x81, .fl true false true true false, .pc 0x2001]) = true := by decide
/-- R148: 40H - 37H = 09H, the values of T-SUI-1. -/
theorem test_subM : runs (vector 0x2000 [0x96] [.reg .a 0x40, .reg .h 0x20, .reg .l 0x50, .mem 0x2050 0x37]
    [.reg .a 0x09, .fl false false false true false, .pc 0x2001]) = true := by decide
/-- R149: 37H - 25H - 1 = 11H, the values of T-SBI-1. -/
theorem test_sbbM : runs (vector 0x2000 [0x9E] [.reg .a 0x37, .reg .h 0x20, .reg .l 0x50, .mem 0x2050 0x25,
    .fl false false false false true] [.reg .a 0x11, .fl false false true true false, .pc 0x2001]) = true := by decide
/-- R173: 8FH xor A2H = 2DH, the values of T-XRI-1. -/
theorem test_xraM : runs (vector 0x2000 [0xAE] [.reg .a 0x8F, .reg .h 0x20, .reg .l 0x50, .mem 0x2050 0xA2]
    [.reg .a 0x2D, .fl false false false true false, .pc 0x2001]) = true := by decide
/-- R175: 0FH or 80H = 8FH, the values of T-ORI-1. -/
theorem test_oraM : runs (vector 0x2000 [0xB6] [.reg .a 0x0F, .reg .h 0x20, .reg .l 0x50, .mem 0x2050 0x80]
    [.reg .a 0x8F, .fl true false false false false, .pc 0x2001]) = true := by decide

/-- T-RIM-1 gives the byte RIM loads: 49H. Its start state has RST 7.5 recognisable, so the step itself would take that
interrupt (R270, R277); the vector is read as the meaning of RIM alone. -/
theorem test_rim_1 : (match exec .rim (vector 0x2000 [0x20] [.ie true, .m75 false, .m65 false, .m55 true, .r75 true,
    .sid false] []).start with
    | .next t => decide (t.regs.a = 0x49 ∧ t.pc = 0x2001)
    | _ => false) = true := by decide

/-! ## Interrupts, faults, reset (A.6, A.7) -/

/-- The three masks. -/
def masks (a b c : Bool) : List Edit := [.m75 a, .m65 b, .m55 c]

/-- NOP at 2000H, `sp` = 2099H, as A.6 says, with `IE` and the masks. -/
def irq (ie : Bool) (ms start diffs : List Edit) : Vector :=
  vector 0x2000 [0x00] ([.sp 0x2099, .ie ie] ++ ms ++ start) diffs

/-- What every entry from `pc` = 2000H leaves. -/
def entered (target : Word) : List Edit := [.ie false, .sp 0x2097, .mem 0x2097 0x00, .mem 0x2098 0x20, .pc target]

theorem test_int_1 : runs (irq true (masks false true true) [.rst75] (entered 0x003C)) = true := by decide
theorem test_int_2 : runs (irq true (masks true false false) [.rst75] [.r75 true, .pc 0x2001]) = true := by decide
theorem test_int_3 : runs (irq false (masks false false false) [.rst75] [.r75 true, .pc 0x2001]) = true := by decide
theorem test_int_4 : runs (irq true (masks false false false) [.rst75, .line65 true, .line55 true] (entered 0x003C)) = true := by
  decide
theorem test_int_5 : runs (irq true (masks false false false) [.line65 true, .line55 true, .intr 0xFF] (entered 0x0034)) =
    true := by decide
theorem test_int_6 : runs (irq false (masks true true true) [.trap, .line55 true] (entered 0x0024)) = true := by decide
theorem test_int_7 : runs (irq true (masks false false false) [.trap, .rst75] (.r75 true :: entered 0x0024)) = true := by
  decide
theorem test_int_8 : runs (irq true (masks true true true) [.intr 0xD7] (entered 0x0010)) = true := by decide
theorem test_int_9 : runs (irq true (masks false false false) [.shadow true, .line55 true] [.shadow false, .pc 0x2001]) =
    true := by decide
theorem test_int_10 : runs (irq true (masks false false false) [.shadow true, .trap] (.shadow false :: entered 0x0024)) =
    true := by decide
theorem test_int_11 : runs (irq true (masks true true true) [.halted true, .line55 true] []) = true := by decide
theorem test_int_12 : runs (irq true (masks true false true) [.halted true, .pc 0x2006, .line65 true]
    [.halted false, .ie false, .sp 0x2097, .mem 0x2097 0x06, .mem 0x2098 0x20, .pc 0x0034]) = true := by decide
theorem test_int_13 : runs (irq true (masks false true true) [.r75 true] (.r75 false :: entered 0x003C)) = true := by decide

/-- The step of a vector's start stops with this fault. -/
def faults (v : Vector) (f : Fault) : Bool :=
  match step v.start with
  | .fault r => decide (r = f)
  | _ => false

/-- The step of a vector's start is refused for this reason. -/
def refuses (v : Vector) (f : Refusal) : Bool :=
  match step v.start with
  | .refused r => decide (r = f)
  | _ => false

theorem test_int_14 : refuses (irq true (masks true true true) [.intr 0xCD] []) (.intaByteNotAdmitted 0xCD) = true := by decide

theorem test_ill_1 :
    ([0x08, 0x10, 0x18, 0x28, 0x38, 0xCB, 0xD9, 0xDD, 0xED, 0xFD].all fun op =>
      faults (vector 0x2000 [op] [] []) (.illegalOpcode op 0x2000)) = true := by decide
theorem test_ill_2 : runs (vector 0x2000 [0x08] [.sp 0x2099, .ie true, .m55 false, .line55 true] (entered 0x002C)) = true := by
  decide

/-- The map of T-MAP-1: ROM to 1FFFH, RAM to 3FFFH, the rest absent. -/
def threeKinds : List Region :=
  [{ first := 0x0000, last := 0x1FFF, kind := .rom }, { first := 0x2000, last := 0x3FFF, kind := .ram },
    { first := 0x4000, last := 0xFFFF, kind := .absent }]

theorem test_map_1 : runs (vector 0x2000 [0x32, 0x00, 0x10] [.map threeKinds, .reg .a 0x55] [.pc 0x2003]) = true := by decide
theorem test_map_2 : faults (vector 0x2000 [0x3A, 0x00, 0x80] [.map threeKinds] []) (.unmappedAccess 0x8000 .read) = true := by
  decide
theorem test_map_3_jump : runs (vector 0x2000 [0xC3, 0x00, 0x80] [.map threeKinds] [.pc 0x8000]) = true := by decide
theorem test_map_3_fetch : faults (vector 0x8000 [] [.map threeKinds] []) (.unmappedAccess 0x8000 .fetch) = true := by decide

/-- T-RESET-1: the control state and `pc` are fixed, memory is kept, nothing is said of the rest. -/
theorem test_reset_1 : (match step (vector 0x1234 [0x11] [.ie true, .m75 false, .m65 false, .m55 false, .r75 true,
    .sod true, .halted true, .reg .a 0x77, .sp 0x2099, .reset] []).start with
    | .next t => decide (t.pc = 0x0000 ∧ t.ctl = Control.afterReset ∧ t.mem = [(0x1234, 0x11)] ∧ t.env.out = [.sod false])
    | _ => false) = true := by decide

/-- `EI_DELAY`'s effect: the step after EI takes no RST 5.5, the one after that does (R276, R277). -/
theorem test_ei_shadow : ((vector 0x2000 [0xFB] [.m55 false, .line55 true] []).start |>.pendingInterrupt) = none ∧
    (edits (vector 0x2000 [0xFB] [.m55 false, .line55 true] []).start [.ie true, .shadow true]).pendingInterrupt = none ∧
    (edits (vector 0x2000 [0xFB] [.m55 false, .line55 true] []).start [.ie true]).pendingInterrupt = some .rst55 := by
  decide

/-- An instruction placed where the step fetches is the one it runs: the bytes of `MVI B,57H` (R114). -/
theorem test_withFetchWord : (match step (State.reset.withFetchWord 16 0x5706) with
    | .next t => decide (t.regs.b = 0x57 ∧ t.pc = 0x0002)
    | _ => false) = true := by decide
theorem test_decodeTableWord : decodeTableWord 24 0x205032 = some (.sta 0x2050) := by decide


/-! ## Witnesses: for each statement with hypotheses, a state and operands that meet them, clause by clause -/

/-- NOP at 2000H, `sp` = 2099H, all RAM. -/
def plain : State := (irq false [] [] []).start

/-- The same with the map of T-MAP-1 and the stack pointer and HL given. -/
def holed (sp hl : Word) : State := edits plain [.map threeKinds, .sp sp, .reg .h (hiByte hl), .reg .l (loByte hl)]

/-- An instruction at 2000H with the differences. -/
def running (bytes : List Byte) (es : List Edit) : State := (vector 0x2000 bytes (.sp 0x2099 :: es) []).start

theorem test_witness_DecodedBytesAreTheEncoding : decode [0x32, 0x00, 0x56, 0xFF] = .ok (.sta 0x5600, [0xFF]) := rfl

theorem test_witness_OpcodeAloneDecidesTheLength :
    decode [0x06, 0x57, 0xFF] = .ok (.mviR .b 0x57, [0xFF]) ∧ WellFormed (.mviR .b 0x57) := ⟨rfl, by decide⟩

theorem test_witness_TenOpcodesHaveNoInstruction :
    decode [0xFD, 0x00, 0x00] = .ok (.unassignedFD, [0x00, 0x00]) ∧
      decode [0xFC, 0x50, 0x20] = .ok (.cm 0x2050, []) := ⟨rfl, rfl⟩

/-- A 3-byte instruction that wraps round the end of memory; an absent opcode; at the end of RAM, an absent second byte and an
absent third byte. -/
theorem test_witness_StepRunsTheDecodedInstruction :
    (let s := (vector 0xFFFE [0xC3, 0x50, 0x20] [] []).start
     Fetches s ∧ decode [s.byteAt s.pc, s.byteAt (s.pc + 1), s.byteAt (s.pc + 2)] = .ok (.jmp 0x2050, []) ∧
      WellFormed (.jmp 0x2050) ∧ ∀ k, k < Instr.length (.jmp 0x2050) → Present s (s.pc + BitVec.ofNat 16 k)) ∧
      (let s := (vector 0x4000 [0x08] [.map threeKinds] []).start; Fetches s ∧ ¬ Present s s.pc) ∧
      (let s := (vector 0x3FFF [0xC3, 0x50, 0x20] [.map threeKinds] []).start
       Fetches s ∧ decode [s.byteAt s.pc, s.byteAt (s.pc + 1), s.byteAt (s.pc + 2)] = .ok (.jmp 0x2050, []) ∧
        (∀ j, j < 1 → Present s (s.pc + BitVec.ofNat 16 j)) ∧ ¬ Present s (s.pc + BitVec.ofNat 16 1)) ∧
      (let s := (vector 0x3FFE [0xC3, 0x50, 0x20] [.map threeKinds] []).start
       Fetches s ∧ decode [s.byteAt s.pc, s.byteAt (s.pc + 1), s.byteAt (s.pc + 2)] = .ok (.jmp 0x2050, []) ∧
        (∀ j, j < 2 → Present s (s.pc + BitVec.ofNat 16 j)) ∧ ¬ Present s (s.pc + BitVec.ofNat 16 2)) := by
  unfold Fetches Present
  exact ⟨⟨by decide, rfl, by decide, by decide⟩, by decide, ⟨by decide, rfl, by decide, by decide⟩, by decide, rfl, by decide,
    by decide⟩

/-- From a halted state with requests waiting. -/
theorem test_witness_PlacedInstructionRunsNext :
    WellFormed (.lda 0x8000) ∧ Memory.wf (irq true (masks false false false) [.halted true, .trap, .rst75] []).start.mem = true := by
  decide

theorem test_witness_UnassignedOpcodesRaiseIllegalOpcode :
    (let s := running [0x08] []; Present s s.pc ∧ s.byteAt s.pc ∈ tenUnassigned ∧ Fetches s) ∧
      ¬ Fetches (running [0x08] [.trapReq true]) := by
  unfold Present Fetches; decide

/-- A refusal of either kind: a byte outside the set, and one of a wider set that is no RST opcode. -/
theorem test_witness_StopsOnlyWhereTheSpecSays :
    step (running [0xCB] []) = .fault (.illegalOpcode 0xCB 0x2000) ∧
      step (running [0x3A, 0x00, 0x40] [.map threeKinds]) = .fault (.unmappedAccess 0x4000 .read) ∧
      step (running [0x00] [.ie true, .intr 0x00]) = .refused (.intaByteNotAdmitted 0x00) ∧
      step (running [0x00] [.ie true, .inta [0xCD], .intr 0xCD]) = .refused (.intaByteNotAdmitted 0xCD) :=
  ⟨rfl, rfl, rfl, rfl⟩

/-- A step that stores and one right after EI. -/
theorem test_witness_EveryStepKeepsTheInvariant :
    (Inv (running [0x77] [.reg .a 0x3A]) ∧ ∃ t, step (running [0x77] [.reg .a 0x3A]) = .next t) ∧
      Inv (running [0x00] [.ie true, .shadow true]) ∧ ∃ t, step (running [0x00] [.ie true, .shadow true]) = .next t := by
  refine ⟨⟨?_, _, rfl⟩, ?_, _, rfl⟩ <;> (unfold Inv; decide)

theorem test_witness_NoStepChangesRomOrParameters :
    let s := running [0x32, 0xFF, 0x1F] [.map threeKinds, .reg .a 0x55]
    (∃ t, step s = .next t) ∧ s.kindAt 0x1FFF = .rom := ⟨⟨_, rfl⟩, by decide⟩

/-- An event by OUT, by SIM and by reset. -/
theorem test_witness_OutputTraceGrowsByOneEventAtMost :
    (∃ t, step (running [0xD3, 0x02] [.reg .a 0x3C]) = .next t ∧ t.env.out = [.port 0x02 0x3C] ∧
      Fetches (running [0xD3, 0x02] [.reg .a 0x3C])) ∧
      (∃ t, step (running [0x30] [.reg .a 0xC0]) = .next t ∧ t.env.out = [.sod true] ∧ Fetches (running [0x30] [.reg .a 0xC0])) ∧
      ∃ t, step (running [0x00] [.sod true, .reset]) = .next t ∧ t.env.out = [.sod false] := by
  unfold Fetches
  exact ⟨⟨_, rfl, rfl, by decide⟩, ⟨_, rfl, rfl, by decide⟩, _, rfl, rfl⟩

/-- A step that takes an interrupt or stays halted with an OUT at `pc` adds nothing. -/
theorem test_no_event_unless_fetched :
    (∃ t, step (running [0xD3, 0x02] [.reg .a 0x3C, .trap]) = .next t ∧ t.env.out = []) ∧
      ∃ t, step (running [0xD3, 0x02] [.reg .a 0x3C, .halted true]) = .next t ∧ t.env.out = [] :=
  ⟨⟨_, rfl, rfl⟩, _, rfl, rfl⟩

theorem test_witness_OnlyEiEnablesAndOnlySimMasks :
    (∃ t, step (running [0xFB] []) = .next t ∧ (running [0xFB] []).ctl.ie = false ∧ t.ctl.ie = true) ∧
      ∃ t, step (running [0x30] [.reg .a 0x08]) = .next t ∧ t.ctl.m75 ≠ (running [0x30] [.reg .a 0x08]).ctl.m75 :=
  ⟨⟨_, rfl, rfl, rfl⟩, _, rfl, by decide⟩

theorem test_witness_OnlyHltHaltsAndOnlyInterruptOrResetWakes :
    (∃ t, step (running [0x76] []) = .next t ∧ (running [0x76] []).ctl.halted = false ∧ t.ctl.halted = true) ∧
      ∃ t, step (running [0x00] [.halted true, .trap]) = .next t ∧
        (running [0x00] [.halted true, .trap]).ctl.halted = true ∧ t.ctl.halted = false :=
  ⟨⟨_, rfl, rfl, rfl⟩, _, rfl, rfl, rfl⟩

theorem test_witness_ResetLeavesTheStateOfTheTable : (edit plain .reset).env.inputs.reset = true := rfl

/-- What the clauses on interrupt entry ask, but for the source: with both stack bytes there, the first absent, or only the
second absent. -/
def entryPremises (s : State) (src : IntSource) (first second : Bool) : Bool :=
  !s.env.inputs.reset && decide ((sampleInterrupts s).pendingInterrupt = some src) && Memory.wf s.mem &&
    decide ((s.kindAt (s.sp - 1) ≠ .absent) ↔ first = true) && decide ((s.kindAt (s.sp - 2) ≠ .absent) ↔ second = true)

theorem test_witness_InterruptEntrySavesPcAndGoesToTheRestartAddress :
    entryPremises (irq false (masks true true true) [.trap] []).start .trap true true = true ∧
      entryPremises (irq true (masks false true true) [.rst75] []).start .rst75 true true = true ∧
      entryPremises (irq true (masks true false true) [.line65 true] []).start .rst65 true true = true ∧
      entryPremises (irq true (masks true true false) [.line55 true] []).start .rst55 true true = true ∧
      entryPremises (irq true (masks true true true) [.intr 0xC7] []).start (.intr 0xC7) true true = true ∧
      entryPremises (edit (holed 0x4001 0) .trap) .trap false true = true ∧
      entryPremises (edit (holed 0x0001 0) .trap) .trap true false = true ∧
      entryPremises (edits (holed 0x4001 0) [.ie true, .intr 0xFF]) (.intr 0xFF) false true = true ∧
      entryPremises (edits (holed 0x0001 0) [.ie true, .intr 0xFF]) (.intr 0xFF) true false = true ∧
      AdmittedByte Params.default 0xC7 ∧ AdmittedByte Params.default 0xFF := by
  unfold AdmittedByte; decide

/-- An entry whose stack byte is absent stops at that byte. -/
theorem test_entry_absent_stack :
    step (edit (holed 0x4001 0) .trap) = .fault (.unmappedAccess 0x4000 .write) ∧
      step (edit (holed 0x0001 0) .trap) = .fault (.unmappedAccess 0xFFFF .write) := ⟨rfl, rfl⟩

theorem test_witness_TrapCannotBeDisabled :
    (let s := irq false (masks true true true) [.trap, .halted true] [] |>.start
     s.env.inputs.reset = false ∧ s.env.inputs.trapRequest = true ∧ Present s (s.sp - 1) ∧ Present s (s.sp - 2)) ∧
      (let s := irq true (masks true true true) [.trapReq true, .shadow true] [] |>.start
       s.env.inputs.reset = false ∧ s.ctl.trapReq = true ∧ Present s (s.sp - 1) ∧ Present s (s.sp - 2)) := by
  unfold Present; decide

/-- An INTR request of this byte, recognisable, with this set of the platform's. -/
def intrPremises (l : List Byte) (b : Byte) : Bool :=
  let s := (irq true (masks true true true) [.inta l, .intr b] []).start
  !s.env.inputs.reset && decide ((sampleInterrupts s).pendingInterrupt = some (.intr b)) && decide (s.params.intaOpcodes = l)

/-- A byte outside the default set, an RST opcode outside a narrower set, and two bytes of a wider set that are no RST opcode
by the lower and by the upper field. -/
theorem test_witness_OtherIntrBytesAreRefused :
    (intrPremises Params.default.intaOpcodes 0xCD = true ∧ 0xCD ∉ Params.default.intaOpcodes) ∧
      (intrPremises [0xC7] 0xFF = true ∧ (0xFF : Byte) ∉ [0xC7#8]) ∧
      (intrPremises [0xCD, 0xC7] 0xCD = true ∧ (0xCD : Byte) ∈ [0xCD#8, 0xC7] ∧ (0xCD : Byte).toNat % 8 ≠ 7) ∧
      (intrPremises [0x7F] 0x7F = true ∧ (0x7F : Byte) ∈ [0x7F#8] ∧ (0x7F : Byte).toNat / 64 ≠ 3) := by decide

theorem test_witness_Rst75RequestStaysStored :
    (let s := (irq false (masks false false false) [.rst75] []).start
     (∃ t, step s = .next t) ∧ s.env.inputs.reset = false ∧ s.env.inputs.rst75Request = true ∧
      (sampleInterrupts s).pendingInterrupt ≠ some .rst75 ∧ fetchInstr (sampleInterrupts s) = .next .nop) ∧
      (let s := (irq true (masks true false false) [.r75 true, .line65 true] []).start
       (∃ t, step s = .next t) ∧ s.env.inputs.reset = false ∧ s.ctl.r75 = true ∧
        (sampleInterrupts s).pendingInterrupt = some .rst65 ∧ ¬ Fetches s) := by
  refine ⟨⟨⟨_, rfl⟩, rfl, rfl, by decide, rfl⟩, ⟨_, rfl⟩, rfl, rfl, by decide, ?_⟩
  unfold Fetches; decide

theorem test_witness_EiTakesEffectAfterTheNextInstruction :
    (let s := running [0xFB] []
     s.params.eiDelay = true ∧ Fetches s ∧ fetchInstr (sampleInterrupts s) = .next .ei ∧ ∃ t, step s = .next t) ∧
      (let s := running [0xC9] [.ie true, .shadow true, .line55 true, .m55 false]
       s.params.eiDelay = true ∧ Fetches s ∧ fetchInstr (sampleInterrupts s) = .next .ret ∧ ∃ t, step s = .next t) := by
  refine ⟨⟨rfl, ?_, rfl, _, rfl⟩, rfl, ?_, rfl, _, rfl⟩ <;> (unfold Fetches; decide)

/-- Halted with a masked line up. -/
theorem test_witness_HaltedStepChangesNothing :
    let s := (irq true (masks true true true) [.halted true, .line55 true, .rst75] []).start
    s.env.inputs.reset = false ∧ FinalHalt s := by
  unfold FinalHalt; decide

theorem test_witness_HaltedRunIsFinal :
    let s := (irq true (masks true true true) [.halted true, .line55 true] []).start
    QuietEnv s ∧ FinalHalt s := by
  unfold QuietEnv FinalHalt; decide

/-- For every source. -/
theorem test_witness_RetAfterInterruptEntryResumes :
    Memory.wf plain.mem = true ∧ plain.kindAt (plain.sp - 1) = .ram ∧ plain.kindAt (plain.sp - 2) = .ram ∧
      (∃ u, interruptEntry plain .trap = .next u) ∧ (∃ u, interruptEntry plain .rst75 = .next u) ∧
      (∃ u, interruptEntry plain .rst65 = .next u) ∧ (∃ u, interruptEntry plain .rst55 = .next u) ∧
      ∃ u, interruptEntry plain (.intr 0xFF) = .next u :=
  ⟨by decide, by decide, by decide, ⟨_, rfl⟩, ⟨_, rfl⟩, ⟨_, rfl⟩, ⟨_, rfl⟩, _, rfl⟩

/-- Premises on the byte at HL: at FFFFH in RAM; at 1FFFH, the last ROM byte; at 4000H, the first absent address. -/
theorem test_witness_MovLoadsFromMemory :
    (let s := edits plain [.reg .h 0xFF, .reg .l 0xFF]; Present s (word s.regs.h s.regs.l)) ∧
      (let s := holed 0x2099 0x1FFF; Present s (word s.regs.h s.regs.l)) ∧
      (let s := holed 0x2099 0x4000; ¬ Present s (word s.regs.h s.regs.l)) := by
  unfold Present; decide

/-- The premises every operand M asks for, with memory in canonical form. -/
def operandM (s : State) (present : Bool) : Bool := decide ((s.kindAt s.hl ≠ .absent) ↔ present = true) && Memory.wf s.mem

theorem test_witness_MovAndMviStoreToMemory :
    operandM plain true = true ∧ operandM (holed 0x2099 0x1FFF) true = true ∧ operandM (holed 0x2099 0x4000) false = true := by
  decide
theorem test_witness_AddFamilyAdds : operandM plain true = true ∧ operandM (holed 0x2099 0x4000) false = true := by decide
theorem test_witness_SubtractFamilySubtracts : operandM plain true = true ∧ operandM (holed 0x2099 0xFFFF) false = true := by
  decide
theorem test_witness_CompareFamilySetsFlagsOnly : operandM plain true = true ∧ operandM (holed 0x2099 0x4000) false = true := by
  decide
theorem test_witness_LogicFamilyCombinesBits : operandM plain true = true ∧ operandM (holed 0x2099 0x4000) false = true := by
  decide
theorem test_witness_InrAndDcrOfMemory :
    operandM plain true = true ∧ operandM (holed 0x2099 0x0000) true = true ∧ operandM (holed 0x2099 0x4000) false = true := by
  decide

theorem test_witness_LdaAndLdaxLoadA :
    let s := edits (holed 0x2099 0x2000) [.reg .b 0x1F, .reg .c 0xFF, .reg .d 0x40, .reg .e 0x00]
    Present s 0x3FFF ∧ ¬ Present s 0x4000 ∧ Present s (word s.regs.b s.regs.c) ∧ ¬ Present s (word s.regs.d s.regs.e) := by
  unfold Present; decide

theorem test_witness_StaAndStaxStoreA :
    let s := edits (holed 0x2099 0x2000) [.reg .b 0x3F, .reg .c 0xFF, .reg .d 0x40, .reg .e 0x00]
    Memory.wf s.mem = true ∧ Present s 0x1FFF ∧ ¬ Present s 0xFFFF ∧ Present s (s.pairX .bc) ∧ ¬ Present s (s.pairX .de) := by
  unfold Present; decide

/-- Both bytes there, across the end of memory; the first absent; only the second absent. -/
theorem test_witness_LhldLoadsHl :
    (Present plain 0xFFFF ∧ Present plain (0xFFFF + 1)) ∧ ¬ Present (holed 0x2099 0) 0x4000 ∧
      Present (holed 0x2099 0) 0x3FFF ∧ ¬ Present (holed 0x2099 0) (0x3FFF + 1) := by
  unfold Present; decide

theorem test_witness_ShldStoresHl :
    (Memory.wf plain.mem = true ∧ Present plain 0xFFFF ∧ Present plain (0xFFFF + 1)) ∧ Memory.wf (holed 0x2099 0).mem = true ∧
      ¬ Present (holed 0x2099 0) 0xFFFF ∧ Present (holed 0x2099 0) 0x3FFF ∧ ¬ Present (holed 0x2099 0) (0x3FFF + 1) := by
  unfold Present; decide

theorem test_witness_DaaAfterAddingBcdGivesTheDecimalSum : (edit plain (.reg .a 0x99)).regs.a = bcd 99 ∧ (99 < 100) := by decide

/-- What a push asks: both bytes there; the first absent; only the second absent. -/
def pushPremises (s : State) (first second : Bool) : Bool :=
  Memory.wf s.mem && decide ((s.kindAt (s.sp - 1) ≠ .absent) ↔ first = true) &&
    decide ((s.kindAt (s.sp - 2) ≠ .absent) ↔ second = true)

/-- What a pop asks. -/
def popPremises (s : State) (first second : Bool) : Bool :=
  Memory.wf s.mem && decide ((s.kindAt s.sp ≠ .absent) ↔ first = true) &&
    decide ((s.kindAt (s.sp + 1) ≠ .absent) ↔ second = true)

/-- Z is 0 in these states: CNZ is taken and CZ is not. -/
theorem test_witness_CallsPushTheNextAddress :
    pushPremises (edit plain (.sp 0x0001)) true true = true ∧ pushPremises (holed 0x4001 0) false true = true ∧
      pushPremises (holed 0x0001 0) true false = true ∧ plain.flags.z = false ∧ (holed 0x4001 0).flags.z = false ∧
      (holed 0x0001 0).flags.z = false := by decide

/-- Z is 0 in these states: RNZ is taken and RZ is not. -/
theorem test_witness_ReturnsPopTheProgramCounter :
    popPremises (edit plain (.sp 0xFFFF)) true true = true ∧ popPremises (holed 0xFFFF 0) false true = true ∧
      popPremises (holed 0x3FFF 0) true false = true ∧ plain.flags.z = false ∧ (holed 0xFFFF 0).flags.z = false ∧
      (holed 0x3FFF 0).flags.z = false := by decide

theorem test_witness_RstCallsItsRestartAddress :
    pushPremises (edit plain (.sp 0x0000)) true true = true ∧ pushPremises (holed 0x4001 0) false true = true ∧
      pushPremises (holed 0x0001 0) true false = true := by decide

/-- Also with the platform's own three bits. -/
theorem test_witness_PushStoresAPair :
    pushPremises (edit plain (.sp 0x0000)) true true = true ∧ pushPremises (holed 0x4001 0) false true = true ∧
      pushPremises (holed 0x0001 0) true false = true ∧ plain.params.pswFill = none ∧
      (edit plain (.fill 7)).params.pswFill = some 7 := by decide

theorem test_witness_PopLoadsAPair :
    popPremises (edit plain (.sp 0xFFFF)) true true = true ∧ popPremises (holed 0x4000 0) false false = true ∧
      popPremises (holed 0x3FFF 0) true false = true := by decide

theorem test_witness_PopUndoesPush :
    let s := edit plain (.sp 0x0001)
    Memory.wf s.mem = true ∧ s.kindAt (s.sp - 1) = .ram ∧ s.kindAt (s.sp - 2) = .ram := by decide

theorem test_witness_XthlExchangesHlWithTheStack :
    popPremises (edit plain (.sp 0xFFFF)) true true = true ∧ popPremises (holed 0x4000 0) false false = true ∧
      popPremises (holed 0x3FFF 0) true false = true := by decide

theorem test_witness_InLoadsFromTheEnvironment :
    (edit plain (.portIn 0x5A)).env.inputs.portIn = some 0x5A ∧ plain.env.inputs.portIn = none := by decide

theorem test_witness_RimReadsTheInterruptState :
    (edit plain (.sid true)).env.inputs.sid = some true ∧ plain.env.inputs.sid = none := by decide

theorem test_witness_SimWritesMasksR75AndSod :
    (edit plain (.reg .a 0x08)).regs.a.getLsbD 3 = true ∧ plain.regs.a.getLsbD 3 = false := by decide

theorem test_witness_InxAndDcxCountAPair : PairSP.hl ≠ PairSP.sp := by decide

theorem test_witness_DaaAddsTheAdjustment :
    ((edit plain (.reg .a 0x9A)).regs.a.toNat % 16 > 9 ∧ (edit plain (.reg .a 0x9A)).regs.a.toNat > 0x99) ∧
      ((edit plain (.reg .a 0x1A)).regs.a.toNat % 16 > 9 ∧ ¬ (edit plain (.reg .a 0x1A)).regs.a.toNat > 0x99) ∧
      (¬ (edit plain (.reg .a 0xA1)).regs.a.toNat % 16 > 9 ∧ (edit plain (.reg .a 0xA1)).regs.a.toNat > 0x99) ∧
      ¬ plain.regs.a.toNat % 16 > 9 := by decide

end Sys2Proof.Tests
end

section
/-! Data transfer (40_data_transfer.md): facts about the terms the statements share, then what each instruction of the
family does, then the statements. -/

namespace Sys2Proof.Says

open Sys2Proof.Machine

/-! ## Bytes and words: the model's fields are the statements' arithmetic -/

theorem append_eq_word (hi lo : Byte) : (hi ++ lo : Word) = word hi lo := by
  have := hi.isLt
  have := lo.isLt
  apply BitVec.eq_of_toNat_eq
  rw [append_toNat, word, BitVec.toNat_ofNat]
  omega

theorem bc_eq_word (s : State) : s.bc = word s.regs.b s.regs.c := append_eq_word _ _
theorem de_eq_word (s : State) : s.de = word s.regs.d s.regs.e := append_eq_word _ _
theorem hl_eq_word (s : State) : s.hl = word s.regs.h s.regs.l := append_eq_word _ _

theorem loByte_eq_low8 (v : Word) : loByte v = low8 v := by
  apply BitVec.eq_of_toNat_eq
  simp [loByte, low8]

theorem hiByte_eq_high8 (v : Word) : hiByte v = high8 v := by
  apply BitVec.eq_of_toNat_eq
  simp [hiByte, high8, Nat.shiftRight_eq_div_pow]

theorem hiByte_append (hi lo : Byte) : hiByte (hi ++ lo) = hi := highByte_append hi lo
theorem loByte_append (hi lo : Byte) : loByte (hi ++ lo) = lo := lowByte_append hi lo

theorem threeBytes_eq (op : Byte) (v : Word) : threeBytes op v = [op, low8 v, high8 v] := by
  rw [← loByte_eq_low8, ← hiByte_eq_high8]; rfl

/-- The form of a 3-byte instruction of one duration, its operand in arithmetic (R83). -/
theorem form_threeBytes {i : Instr} {op : Byte} {v : Word} {m t : Nat} (he : encode i = threeBytes op v)
    (ht : ∀ f, timing i f = fixedTiming 3 m t) : Form i [op, low8 v, high8 v] m t :=
  ⟨he.trans (threeBytes_eq op v), ht⟩

/-! ## What an update leaves alone -/

section
variable {s t : State} {l : List Reg}

theorem KeptBut.refl (s : State) (l : List Reg) : KeptBut s s l :=
  ⟨fun _ _ => rfl, rfl, fun _ => rfl, rfl, rfl, rfl⟩

theorem KeptBut.setReg (h : KeptBut s t l) (r : Reg) (v : Byte) (hr : r ∈ l) : KeptBut s (t.setReg r v) l := by
  obtain ⟨hregs, hrest⟩ := h
  refine ⟨fun q hq => ?_, hrest⟩
  have hne : q ≠ r := fun e => hq (e ▸ hr)
  exact (Regs.get_set_other _ _ _ _ hne).trans (hregs q hq)

theorem KeptBut.setPc (h : KeptBut s t l) (v : Word) : KeptBut s (t.setPc v) l := h

theorem KeptBut.advance (h : KeptBut s t l) (n : Nat) : KeptBut s (t.advance n) l := h

/-- Memory aside, `t` is `s`. -/
def OnlyMem (s t : State) : Prop := ∃ m, t = s.setMem m

theorem OnlyMem.refl (s : State) : OnlyMem s s := ⟨s.mem, rfl⟩

theorem OnlyMem.stored (h : OnlyMem s t) (a : Word) (v : Byte) : OnlyMem s (stored t a v) := by
  obtain ⟨m, rfl⟩ := h
  unfold Machine.stored
  split
  · exact ⟨m, rfl⟩
  · exact ⟨_, rfl⟩

theorem OnlyMem.advance_frame (h : OnlyMem s t) (n : Nat) :
    (t.advance n).flags = s.flags ∧ (t.advance n).pc = s.pc + BitVec.ofNat 16 n ∧ RegsKeptBut s (t.advance n) [] ∧
      (t.advance n).sp = s.sp ∧ RestKept s (t.advance n) := by
  obtain ⟨m, rfl⟩ := h
  exact ⟨rfl, rfl, fun _ _ => rfl, rfl, rfl, rfl, rfl⟩

end

/-! ## What a memory access does -/

section
variable {s : State} {a : Word}

theorem not_present_iff : ¬ Present s a ↔ s.kindAt a = .absent := not_not

theorem stopsAt_read {f : Byte → Result State} (h : ¬ Present s a) :
    StopsAt (andThen (memRead s a) f) a .read := by
  rw [StopsAt, memRead_absent (not_present_iff.1 h), andThen_fault]

theorem stopsAt_write {v : Byte} {f : State → Result State} (h : ¬ Present s a) :
    StopsAt (andThen (memWrite s a v) f) a .write := by
  rw [StopsAt, memWrite_absent v (not_present_iff.1 h), andThen_fault]

/-- A store changes no address from present to absent or back. -/
theorem present_stored {x : Word} {v : Byte} : Present (stored s a v) x ↔ Present s x := by
  rw [Present, Present, stored_kindAt]

theorem written_stored (v : Byte) (hm : Memory.wf s.mem = true) : Written s (stored s a v) a v :=
  stored_byteAt_self a v hm

theorem memKeptBut_stored (v : Byte) : MemKeptBut s (stored s a v) [a] :=
  fun _ hx => stored_byteAt_other v (List.ne_of_not_mem_cons hx)

/-- After two stores at different addresses the first address still holds the first byte. -/
theorem written_first {b : Word} (v w : Byte) (hab : a ≠ b) (hm : Memory.wf s.mem = true) :
    Written s (stored (stored s a v) b w) a v :=
  (stored_byteAt_other w hab).trans (written_stored v hm)

theorem written_second {b : Word} (v w : Byte) (hab : a ≠ b) (hm : Memory.wf s.mem = true) :
    Written s (stored (stored s a v) b w) b w := by
  rw [Written, stored_byteAt_self b w (stored_wf a v hm), stored_kindAt, stored_byteAt_other v hab.symm]

theorem memKeptBut_stored_stored {b : Word} (v w : Byte) : MemKeptBut s (stored (stored s a v) b w) [a, b] := by
  intro x hx
  obtain ⟨hxa, hxb⟩ : x ≠ a ∧ x ≠ b := by simpa using hx
  rw [stored_byteAt_other w hxb, stored_byteAt_other v hxa]

theorem ne_add_one (a : Word) : a ≠ a + 1 := by bv_omega

end

/-! ## The two shapes of the family: a register is loaded, a byte is stored -/

/-- `o` is `s` with `v` in register `r` and `pc` moved on by `n`. -/
def LoadsReg (o : Result State) (n : Nat) (s : State) (r : Reg) (v : Byte) : Prop :=
  ∃ t, o = .next t ∧ t.reg r = v ∧ t.flags = s.flags ∧ t.pc = s.pc + BitVec.ofNat 16 n ∧ KeptBut s t [r]

/-- `o` is `s` with `v` written at `a` and `pc` moved on by `n`. -/
def StoresByte (o : Result State) (n : Nat) (s : State) (a : Word) (v : Byte) : Prop :=
  ∃ t, o = .next t ∧ Written s t a v ∧ MemKeptBut s t [a] ∧ t.flags = s.flags ∧ t.pc = s.pc + BitVec.ofNat 16 n ∧
    RegsKeptBut s t [] ∧ t.sp = s.sp ∧ RestKept s t

theorem loadsReg_setReg (n : Nat) (s : State) (r : Reg) (v : Byte) :
    LoadsReg (.next ((s.setReg r v).advance n)) n s r v :=
  ⟨_, rfl, Regs.get_set_self _ _ _, rfl, rfl, ((KeptBut.refl s [r]).setReg r v (List.mem_singleton_self r)).advance n⟩

theorem loadsReg_read {s : State} {a : Word} (n : Nat) (r : Reg) (h : Present s a) :
    LoadsReg (andThen (memRead s a) fun v => .next ((s.setReg r v).advance n)) n s r (s.byteAt a) := by
  rw [memRead_present h, andThen_next]
  exact loadsReg_setReg n s r _

theorem storesByte_write {s : State} {a : Word} (n : Nat) (v : Byte) (h : Present s a) (hm : Memory.wf s.mem = true) :
    StoresByte (andThen (memWrite s a v) fun s1 => .next (s1.advance n)) n s a v := by
  rw [memWrite_present v h, andThen_next]
  exact ⟨_, rfl, written_stored v hm, memKeptBut_stored v, ((OnlyMem.refl s).stored a v).advance_frame n⟩

/-! ## What each instruction of the family does, by the shared operations -/

section
variable (s : State)

theorem exec_movRR (dst src : Reg) : exec (.movRR dst src) s = .next ((s.setReg dst (s.reg src)).advance 1) := rfl
theorem exec_mviR (r : Reg) (v : Byte) : exec (.mviR r v) s = .next ((s.setReg r v).advance 2) := rfl
theorem exec_lxi (p : PairSP) (v : Word) : exec (.lxi p v) s = .next ((s.setPairSP p v).advance 3) := rfl

theorem exec_movRM (dst : Reg) :
    exec (.movRM dst) s = andThen (memRead s s.hl) fun v => .next ((s.setReg dst v).advance 1) := rfl
theorem exec_lda (a : Word) :
    exec (.lda a) s = andThen (memRead s a) fun v => .next ((s.setReg .a v).advance 3) := rfl
theorem exec_ldax (p : PairX) :
    exec (.ldax p) s = andThen (memRead s (s.pairX p)) fun v => .next ((s.setReg .a v).advance 1) := rfl

theorem exec_movMR (src : Reg) :
    exec (.movMR src) s = andThen (memWrite s s.hl (s.reg src)) fun s1 => .next (s1.advance 1) := rfl
theorem exec_mviM (v : Byte) :
    exec (.mviM v) s = andThen (memWrite s s.hl v) fun s1 => .next (s1.advance 2) := rfl
theorem exec_sta (a : Word) :
    exec (.sta a) s = andThen (memWrite s a s.regs.a) fun s1 => .next (s1.advance 3) := rfl
theorem exec_stax (p : PairX) :
    exec (.stax p) s = andThen (memWrite s (s.pairX p) s.regs.a) fun s1 => .next (s1.advance 1) := rfl

theorem exec_lhld (a : Word) :
    exec (.lhld a) s = andThen (memRead s a) fun lo => andThen (memRead s (a + 1)) fun hi =>
      .next (((s.setReg .l lo).setReg .h hi).advance 3) := rfl
theorem exec_shld (a : Word) :
    exec (.shld a) s = andThen (memWrite s a s.regs.l) fun s1 => andThen (memWrite s1 (a + 1) s.regs.h) fun s2 =>
      .next (s2.advance 3) := rfl

/-- XCHG as four register writes, each of a value of the old state (R123). -/
theorem exec_xchg :
    exec .xchg s = .next (((((s.setReg .h s.regs.d).setReg .l s.regs.e).setReg .d s.regs.h).setReg .e s.regs.l).advance 1) :=
  rfl
theorem exec_pchl : exec .pchl s = .next (s.setPc s.hl) := rfl
theorem exec_sphl : exec .sphl s = .next ((s.setSp s.hl).advance 1) := rfl

variable {s}

theorem exec_lhld_present {a : Word} (h1 : Present s a) (h2 : Present s (a + 1)) :
    exec (.lhld a) s = .next (((s.setReg .l (s.byteAt a)).setReg .h (s.byteAt (a + 1))).advance 3) := by
  rw [exec_lhld, memRead_present h1, andThen_next, memRead_present h2, andThen_next]

theorem exec_shld_first {a : Word} (h : Present s a) :
    exec (.shld a) s =
      andThen (memWrite (stored s a s.regs.l) (a + 1) s.regs.h) fun s2 => .next (s2.advance 3) := by
  rw [exec_shld, memWrite_present _ h, andThen_next]

theorem exec_shld_present {a : Word} (h1 : Present s a) (h2 : Present s (a + 1)) :
    exec (.shld a) s = .next ((stored (stored s a s.regs.l) (a + 1) s.regs.h).advance 3) := by
  rw [exec_shld_first h1, memWrite_present _ (present_stored.2 h2), andThen_next]

end

/-! ## LXI -/

/-- The registers of a pair of LXI, INX, DCX, DAD (R23); SP has none. -/
def pairSPRegs : PairSP → List Reg
  | .bc => [.b, .c]
  | .de => [.d, .e]
  | .hl => [.h, .l]
  | .sp => []

/-- A write of a register pair is a write of its two registers, so nothing else changes. -/
theorem keptBut_setPairSP (s : State) {p : PairSP} (hp : p ≠ .sp) (v : Word) :
    KeptBut s (s.setPairSP p v) (pairSPRegs p) := by
  cases p with
  | bc => exact ((KeptBut.refl s [.b, .c]).setReg .b (hiByte v) (by decide)).setReg .c (loByte v) (by decide)
  | de => exact ((KeptBut.refl s [.d, .e]).setReg .d (hiByte v) (by decide)).setReg .e (loByte v) (by decide)
  | hl => exact ((KeptBut.refl s [.h, .l]).setReg .h (hiByte v) (by decide)).setReg .l (loByte v) (by decide)
  | sp => exact absurd rfl hp

theorem form_lxi (p : PairSP) (b2 b3 : Byte) :
    Form (.lxi p (b3 ++ b2)) [0b00#2 ++ pairSPCode p ++ 0b0001#4, b2, b3] 3 10 := by
  refine ⟨?_, fun _ => rfl⟩
  rw [encode, threeBytes, lowByte_append, highByte_append]

end Sys2Proof.Says

namespace Sys2Proof.DataTransfer

open Sys2Proof.Machine Sys2Proof.Says

/-- Settles O27: the address is the old HL, since the read comes before the register write. -/
theorem movLoadsFromMemory : Obligations.MovLoadsFromMemory := by
  intro dst s
  rw [← hl_eq_word, exec_movRM]
  exact ⟨⟨rfl, fun _ => rfl⟩, loadsReg_read 1 dst, stopsAt_read⟩

/-- Settles O28, by the one law of a store followed by `pc <- next`. -/
theorem movAndMviStoreToMemory : Obligations.MovAndMviStoreToMemory := by
  intro src v s
  rw [exec_movMR, exec_mviM]
  exact ⟨⟨rfl, fun _ => rfl⟩, ⟨rfl, fun _ => rfl⟩,
    fun hp hm => ⟨storesByte_write 1 _ hp hm, storesByte_write 2 v hp hm⟩,
    fun hn => ⟨stopsAt_write hn, stopsAt_write hn⟩⟩

/-- Settles O31, by the one law of a read into a register. -/
theorem ldaAndLdaxLoadA : Obligations.LdaAndLdaxLoadA := by
  intro a p s q
  have hq : q = s.pairX p := by
    cases p with
    | bc => exact (bc_eq_word s).symm
    | de => exact (de_eq_word s).symm
  rw [hq, exec_lda, exec_ldax]
  exact ⟨form_threeBytes rfl fun _ => rfl, ⟨rfl, fun _ => rfl⟩, ⟨rfl, fun _ => rfl⟩,
    loadsReg_read 3 .a, stopsAt_read, loadsReg_read 1 .a, stopsAt_read⟩

/-- Settles O32, by the one law of a store followed by `pc <- next`. -/
theorem staAndStaxStoreA : Obligations.StaAndStaxStoreA := by
  intro a p s hm
  rw [exec_sta, exec_stax]
  exact ⟨form_threeBytes rfl fun _ => rfl, ⟨rfl, fun _ => rfl⟩, ⟨rfl, fun _ => rfl⟩,
    fun hp => storesByte_write 3 _ hp hm, stopsAt_write, fun hp => storesByte_write 1 _ hp hm, stopsAt_write⟩

/-- Settles O33: two reads, each of which may be the one that stops, then two register writes. -/
theorem lhldLoadsHl : Obligations.LhldLoadsHl := by
  intro a s
  refine ⟨form_threeBytes rfl fun _ => rfl, fun h1 h2 => ?_, fun hn => ?_, fun h1 hn => ?_⟩
  · exact ⟨_, exec_lhld_present h1 h2, rfl, rfl, rfl, rfl,
      (((KeptBut.refl s [.h, .l]).setReg .l _ (by decide)).setReg .h _ (by decide)).advance 3⟩
  · exact stopsAt_read hn
  · rw [exec_lhld, memRead_present h1, andThen_next]
    exact stopsAt_read hn

/-- Settles O34: two stores at different addresses, so neither undoes the other. -/
theorem shldStoresHl : Obligations.ShldStoresHl := by
  intro a s hm
  refine ⟨form_threeBytes rfl fun _ => rfl, fun h1 h2 => ?_, fun hn => ?_, fun h1 hn => ?_⟩
  · have hne := ne_add_one a
    exact ⟨_, exec_shld_present h1 h2, written_first _ _ hne hm, written_second _ _ hne hm,
      memKeptBut_stored_stored _ _, (((OnlyMem.refl s).stored a _).stored (a + 1) _).advance_frame 3⟩
  · exact stopsAt_write hn
  · rw [exec_shld_first h1]
    exact stopsAt_write (present_stored.not.2 hn)

/-- Settles O26. -/
theorem movCopiesARegister : Obligations.MovCopiesARegister := by
  intro dst src s
  rw [exec_movRR]
  exact ⟨⟨rfl, fun _ => rfl⟩, loadsReg_setReg 1 s dst (s.reg src)⟩

/-- Settles O29. -/
theorem mviLoadsARegister : Obligations.MviLoadsARegister := by
  intro r v s
  rw [exec_mviR]
  exact ⟨⟨rfl, fun _ => rfl⟩, loadsReg_setReg 2 s r v⟩

/-- Settles O30: the pair write splits the word into the bytes it was joined from. -/
theorem lxiLoadsAPair : Obligations.LxiLoadsAPair := by
  intro b2 b3 s
  have hhi := hiByte_append b3 b2
  have hlo := loByte_append b3 b2
  simp only [exec_lxi]
  have hkept {p : PairSP} (hp : p ≠ .sp) : KeptBut s ((s.setPairSP p (b3 ++ b2)).advance 3) (pairSPRegs p) :=
    (keptBut_setPairSP s hp _).advance 3
  exact ⟨⟨form_lxi .bc b2 b3, _, rfl, hhi, hlo, rfl, rfl, hkept (by decide)⟩,
    ⟨form_lxi .de b2 b3, _, rfl, hhi, hlo, rfl, rfl, hkept (by decide)⟩,
    ⟨form_lxi .hl b2 b3, _, rfl, hhi, hlo, rfl, rfl, hkept (by decide)⟩,
    ⟨form_lxi .sp b2 b3, _, rfl, append_eq_word b3 b2, rfl, rfl, fun _ _ => rfl, fun _ => rfl, rfl, rfl, rfl⟩⟩

/-- Settles O35. -/
theorem xchgPchlSphlMoveHl : Obligations.XchgPchlSphlMoveHl := by
  intro s
  rw [exec_xchg, exec_pchl, exec_sphl, ← hl_eq_word]
  refine ⟨⟨⟨rfl, fun _ => rfl⟩, _, rfl, rfl, rfl, rfl, rfl, rfl, rfl, ?_⟩, ⟨⟨rfl, fun _ => rfl⟩, _, rfl, rfl, ?_, rfl⟩,
    ⟨⟨rfl, fun _ => rfl⟩, _, rfl, rfl, rfl, rfl, fun _ _ => rfl, fun _ => rfl, rfl, rfl, rfl⟩⟩
  · exact (((((KeptBut.refl s [.h, .l, .d, .e]).setReg .h _ (by decide)).setReg .l _ (by decide)).setReg .d _
      (by decide)).setReg .e _ (by decide)).advance 1
  · exact (KeptBut.refl s []).setPc s.hl

end Sys2Proof.DataTransfer
end

section
/-! Logical instructions, rotates, complement and carry (42_logical.md): the parity flag as a count of bits, the bits of a
rotated byte, then what each instruction of the family does, then the statements. -/

namespace Sys2Proof.Says

open Sys2Proof.Machine

/-! ## The parity flag (R24) -/

/-- The exclusive OR over a list is whether the count of what holds in it is odd. -/
theorem foldr_xor_eq_bodd_countP {α : Type} (p : α → Bool) (l : List α) :
    (l.map p).foldr xor false = (l.countP p).bodd := by
  induction l with
  | nil => simp
  | cons x l ih =>
    rw [List.map_cons, List.foldr_cons, ih, List.countP_cons, Nat.bodd_add, Bool.xor_comm]
    cases p x <;> rfl

/-- The model's parity, an exclusive OR of eight bits, is the parity of the number of 1 bits. -/
theorem parityEven_iff (v : Byte) : parityEven v = true ↔ ones v % 2 = 0 := by
  have hxor : parityEven v = !((List.range 8).map v.getLsbD).foldr xor false := by
    simp [parityEven, List.range, List.range.loop]
  rw [hxor, foldr_xor_eq_bodd_countP, ones, Nat.mod_two_of_bodd]
  cases Nat.bodd _ <;> decide

/-- `set_ZSP` gives the flags the statements ask for (R140). -/
theorem reflectsZSP_setZSP (f : Flags) (res : Byte) : ReflectsZSP (f.setZSP res) res :=
  ⟨decide_eq_true_iff, rfl, parityEven_iff res⟩

/-! ## The bits of a rotated byte (R179 to R182), and the complement (R183) -/

section
variable (a : Byte) (cy : Bool) {k : Nat}

theorem rotLeftThrough_getLsbD (hk : k < 8) :
    (rotLeftThrough a cy).getLsbD k = if k = 0 then cy else a.getLsbD (k - 1) := by
  rw [rotLeftThrough, BitVec.getLsbD_append, BitVec.getLsbD_ofBool, BitVec.getLsbD_extractLsb']
  by_cases h0 : k = 0
  · simp [h0]
  · have hlow : k - 1 < 7 := by omega
    simp [h0, hlow]

theorem rotRightThrough_getLsbD (hk : k < 8) :
    (rotRightThrough a cy).getLsbD k = if k = 7 then cy else a.getLsbD (k + 1) := by
  rw [rotRightThrough, BitVec.getLsbD_append, BitVec.getLsbD_ofBool, BitVec.getLsbD_extractLsb']
  by_cases h7 : k = 7
  · simp [h7]
  · have hlow : k < 7 := by omega
    simp [h7, hlow, Nat.add_comm]

theorem extractLsb'_one_eq_ofBool (i : Nat) : a.extractLsb' i 1 = BitVec.ofBool (a.getLsbD i) := by
  apply BitVec.eq_of_getLsbD_eq
  intro j hj
  obtain rfl : j = 0 := by omega
  simp

/-- RLC is RAL with the bit that leaves in place of the carry. -/
theorem rotLeft_eq_through : rotLeft a = rotLeftThrough a (a.getLsbD 7) := by
  rw [rotLeft, rotLeftThrough, extractLsb'_one_eq_ofBool]

/-- RRC is RAR with the bit that leaves in place of the carry. -/
theorem rotRight_eq_through : rotRight a = rotRightThrough a (a.getLsbD 0) := by
  rw [rotRight, rotRightThrough, extractLsb'_one_eq_ofBool]

theorem rotLeft_getLsbD (hk : k < 8) : (rotLeft a).getLsbD k = a.getLsbD ((k + 7) % 8) := by
  rw [rotLeft_eq_through, rotLeftThrough_getLsbD _ _ hk]
  split
  · next h0 => rw [h0]
  · next h0 => congr 1; omega

theorem rotRight_getLsbD (hk : k < 8) : (rotRight a).getLsbD k = a.getLsbD ((k + 1) % 8) := by
  rw [rotRight_eq_through, rotRightThrough_getLsbD _ _ hk]
  split
  · next h7 => rw [h7]
  · next h7 => congr 1; omega

end

/-- The complement of a byte is FFH less the byte (R183). -/
theorem not_toNat_add (v : Byte) : (~~~v).toNat + v.toNat = 0xFF := by
  have := v.isLt
  rw [BitVec.toNat_not]
  omega

/-! ## The shapes of the family: a logical result, a rotated byte, a new carry -/

section
variable {s t : State} {l : List Reg}

theorem KeptBut.setFlags (h : KeptBut s t l) (f : Flags) : KeptBut s (t.setFlags f) l := h

theorem keptBut_setA_setFlags (s : State) (v : Byte) (f : Flags) (n : Nat) :
    KeptBut s (((s.setReg .a v).setFlags f).advance n) [.a] :=
  (((KeptBut.refl s [.a]).setReg .a v (List.mem_singleton_self _)).setFlags f).advance n

theorem keptButCy_setCy (f : Flags) (b : Bool) : KeptButCy f (f.setCy b) := ⟨rfl, rfl, rfl, rfl⟩

/-- An instruction that ends in `logicToA` combines A and `v` by `op` where its result does so bit by bit (R170). -/
theorem combines_logicToA {i : Instr} {n : Nat} {v res : Byte} {op : Bool → Bool → Bool} {ac : Bool}
    (hexec : exec i s = .next ((s.logicToA res ac).advance n))
    (hbits : ∀ k, res.getLsbD k = op (s.regs.a.getLsbD k) (v.getLsbD k)) : Combines i n s v op ac :=
  ⟨_, hexec, fun k _ => hbits k, reflectsZSP_setZSP s.flags res, rfl, rfl, rfl, keptBut_setA_setFlags s res _ n⟩

/-- An instruction that ends in `rotateA` moves the bits of A as its result says (R179 to R182). -/
theorem rotates_rotateA {i : Instr} {op : Byte} {res : Byte} {bits : Nat → Bool} {cy : Bool} (hform : Form i [op] 1 4)
    (hexec : exec i s = .next ((s.rotateA res cy).advance 1)) (hbits : ∀ k, k < 8 → res.getLsbD k = bits k) :
    Rotates i op s bits cy :=
  ⟨hform, _, hexec, hbits, rfl, keptButCy_setCy s.flags cy, rfl, keptBut_setA_setFlags s res _ 1⟩

/-- An operand M that is absent stops the instruction (decision D9). -/
theorem stopsAt_withM {f : Byte → Result State} (h : ¬ Present s s.hl) : StopsAt (withM s f) s.hl .read :=
  stopsAt_read h

end

/-! ## What each instruction of the family does, by the shared operations -/

section
variable (s : State)

theorem exec_anaR (r : Reg) : exec (.anaR r) s = .next ((s.logicToA (s.regs.a &&& s.reg r) true).advance 1) := rfl
theorem exec_xraR (r : Reg) : exec (.xraR r) s = .next ((s.logicToA (s.regs.a ^^^ s.reg r) false).advance 1) := rfl
theorem exec_oraR (r : Reg) : exec (.oraR r) s = .next ((s.logicToA (s.regs.a ||| s.reg r) false).advance 1) := rfl

theorem exec_ani (v : Byte) : exec (.ani v) s = .next ((s.logicToA (s.regs.a &&& v) true).advance 2) := rfl
theorem exec_xri (v : Byte) : exec (.xri v) s = .next ((s.logicToA (s.regs.a ^^^ v) false).advance 2) := rfl
theorem exec_ori (v : Byte) : exec (.ori v) s = .next ((s.logicToA (s.regs.a ||| v) false).advance 2) := rfl

theorem exec_anaM : exec .anaM s = withM s fun v => .next ((s.logicToA (s.regs.a &&& v) true).advance 1) := rfl
theorem exec_xraM : exec .xraM s = withM s fun v => .next ((s.logicToA (s.regs.a ^^^ v) false).advance 1) := rfl
theorem exec_oraM : exec .oraM s = withM s fun v => .next ((s.logicToA (s.regs.a ||| v) false).advance 1) := rfl

theorem exec_rlc : exec .rlc s = .next ((s.rotateA (rotLeft s.regs.a) (s.regs.a.getLsbD 7)).advance 1) := rfl
theorem exec_rrc : exec .rrc s = .next ((s.rotateA (rotRight s.regs.a) (s.regs.a.getLsbD 0)).advance 1) := rfl
theorem exec_ral :
    exec .ral s = .next ((s.rotateA (rotLeftThrough s.regs.a s.flags.cy) (s.regs.a.getLsbD 7)).advance 1) := rfl
theorem exec_rar :
    exec .rar s = .next ((s.rotateA (rotRightThrough s.regs.a s.flags.cy) (s.regs.a.getLsbD 0)).advance 1) := rfl

theorem exec_cma : exec .cma s = .next ((s.setReg .a (~~~ s.regs.a)).advance 1) := rfl
theorem exec_cmc : exec .cmc s = .next ((s.setFlags (s.flags.setCy (!s.flags.cy))).advance 1) := rfl
theorem exec_stc : exec .stc s = .next ((s.setFlags (s.flags.setCy true)).advance 1) := rfl

end

end Sys2Proof.Says

namespace Sys2Proof.Logical

open Sys2Proof.Machine Sys2Proof.Says

/-- Settles O45: every form ends in `logicToA`, and the operator works bit by bit; the M forms do so once the byte at HL
is read. -/
theorem logicFamilyCombinesBits : Obligations.LogicFamilyCombinesBits := by
  intro s
  refine ⟨fun r => ?_, fun v => ?_, ?_, fun r => ⟨rfl, rfl, rfl⟩, fun hp => ?_, fun hn => ?_⟩
  · exact ⟨⟨rfl, combines_logicToA (exec_anaR s r) fun _ => BitVec.getLsbD_and⟩,
      ⟨rfl, combines_logicToA (exec_xraR s r) fun _ => BitVec.getLsbD_xor⟩,
      ⟨rfl, combines_logicToA (exec_oraR s r) fun _ => BitVec.getLsbD_or⟩⟩
  · exact ⟨⟨⟨rfl, fun _ => rfl⟩, combines_logicToA (exec_ani s v) fun _ => BitVec.getLsbD_and⟩,
      ⟨⟨rfl, fun _ => rfl⟩, combines_logicToA (exec_xri s v) fun _ => BitVec.getLsbD_xor⟩,
      ⟨⟨rfl, fun _ => rfl⟩, combines_logicToA (exec_ori s v) fun _ => BitVec.getLsbD_or⟩⟩
  · exact ⟨⟨rfl, fun _ => rfl⟩, ⟨rfl, fun _ => rfl⟩, ⟨rfl, fun _ => rfl⟩⟩
  · exact ⟨combines_logicToA ((exec_anaM s).trans (withM_present _ hp)) fun _ => BitVec.getLsbD_and,
      combines_logicToA ((exec_xraM s).trans (withM_present _ hp)) fun _ => BitVec.getLsbD_xor,
      combines_logicToA ((exec_oraM s).trans (withM_present _ hp)) fun _ => BitVec.getLsbD_or⟩
  · rw [exec_anaM, exec_xraM, exec_oraM]
    exact ⟨stopsAt_withM hn, stopsAt_withM hn, stopsAt_withM hn⟩

/-- Settles O46: each rotate is the one law of its direction, with D7, D0 or the carry moved in. -/
theorem rotatesMoveEveryBit : Obligations.RotatesMoveEveryBit := by
  intro s
  exact ⟨rotates_rotateA ⟨rfl, fun _ => rfl⟩ (exec_rlc s) fun _ => rotLeft_getLsbD _,
    rotates_rotateA ⟨rfl, fun _ => rfl⟩ (exec_rrc s) fun _ => rotRight_getLsbD _,
    rotates_rotateA ⟨rfl, fun _ => rfl⟩ (exec_ral s) fun _ => rotLeftThrough_getLsbD _ _,
    rotates_rotateA ⟨rfl, fun _ => rfl⟩ (exec_rar s) fun _ => rotRightThrough_getLsbD _ _⟩

/-- Settles O47. -/
theorem cmaCmcStcComplementAndSet : Obligations.CmaCmcStcComplementAndSet := by
  intro s
  rw [exec_cma, exec_cmc, exec_stc]
  exact ⟨⟨⟨rfl, fun _ => rfl⟩, _, rfl, not_toNat_add s.regs.a, rfl, rfl,
      ((KeptBut.refl s [.a]).setReg .a _ (by decide)).advance 1⟩,
    ⟨⟨rfl, fun _ => rfl⟩, _, rfl, rfl, keptButCy_setCy _ _, rfl, ((KeptBut.refl s []).setFlags _).advance 1⟩,
    ⟨⟨rfl, fun _ => rfl⟩, _, rfl, rfl, keptButCy_setCy _ _, rfl, ((KeptBut.refl s []).setFlags _).advance 1⟩⟩

end Sys2Proof.Logical
end

section
/-! Branches (43_branch.md): the two stack operations they share with RST, PUSH and POP in the statements' terms, then the
eight conditions, then what makes an instruction a jump, a call or a return, then the statements. -/

namespace Sys2Proof.Says

open Sys2Proof.Machine

/-! ## Pushing an address and going to another (R201) -/

section
variable {s : State}

theorem sub_one_sub_one (a : Word) : a - 1 - 1 = a - 2 := by bv_omega
theorem add_one_add_one (a : Word) : a + 1 + 1 = a + 2 := by bv_omega
theorem sub_one_ne_sub_two (a : Word) : a - 1 ≠ a - 2 := by bv_omega

/-- A push is, in memory, a store at `sp` - 1 and then one at `sp` - 2. -/
theorem pushed_byteAt (s : State) (hi lo : Byte) (x : Word) :
    (pushed s hi lo).byteAt x = (stored (stored s (s.sp - 1) hi) (s.sp - 2) lo).byteAt x := by
  rw [← sub_one_sub_one]
  exact congrArg (Memory.lookup · x.toNat) (pushed_mem s hi lo)

theorem written_pushed_high (hi lo : Byte) (hm : Memory.wf s.mem = true) :
    Written s (pushed s hi lo) (s.sp - 1) hi :=
  (pushed_byteAt s hi lo _).trans (written_first hi lo (sub_one_ne_sub_two s.sp) hm)

theorem written_pushed_low (hi lo : Byte) (hm : Memory.wf s.mem = true) :
    Written s (pushed s hi lo) (s.sp - 2) lo :=
  (pushed_byteAt s hi lo _).trans (written_second hi lo (sub_one_ne_sub_two s.sp) hm)

theorem memKeptBut_pushed (hi lo : Byte) : MemKeptBut s (pushed s hi lo) [s.sp - 1, s.sp - 2] :=
  fun x hx => (pushed_byteAt s hi lo x).trans (memKeptBut_stored_stored hi lo x hx)

theorem restKept_pushed (hi lo : Byte) : RestKept s (pushed s hi lo) :=
  ⟨pushed_ctl s hi lo, pushed_env s hi lo, pushed_params s hi lo⟩

theorem called_pushed (ret target : Word) (hm : Memory.wf s.mem = true) :
    Called s ((pushed s (high8 ret) (low8 ret)).setPc target) ret target := by
  have hsp : (pushed s (high8 ret) (low8 ret)).sp = s.sp - 2 := (pushed_sp s _ _).trans (sub_one_sub_one s.sp)
  have hregs : RegsKeptBut s (pushed s (high8 ret) (low8 ret)) [] := fun r _ => congrArg (Regs.get · r) (pushed_regs s _ _)
  exact ⟨rfl, hsp, written_pushed_high _ _ hm, written_pushed_low _ _ hm, memKeptBut_pushed _ _, hregs,
    pushed_flags s _ _, restKept_pushed _ _⟩

theorem callTo_called (ret target : Word) (hm : Memory.wf s.mem = true) (h1 : Present s (s.sp - 1))
    (h2 : Present s (s.sp - 2)) : ∃ t, callTo s ret target = .next t ∧ Called s t ret target := by
  rw [← sub_one_sub_one] at h2
  rw [callTo_present ret target h1 h2, hiByte_eq_high8, loByte_eq_low8]
  exact ⟨_, rfl, called_pushed ret target hm⟩

theorem stopsAt_callTo_first (ret target : Word) (h : ¬ Present s (s.sp - 1)) :
    StopsAt (callTo s ret target) (s.sp - 1) .write :=
  callTo_absent_first ret target (not_present_iff.1 h)

theorem stopsAt_callTo_second (ret target : Word) (h1 : Present s (s.sp - 1)) (h2 : ¬ Present s (s.sp - 2)) :
    StopsAt (callTo s ret target) (s.sp - 2) .write := by
  rw [← sub_one_sub_one] at h2 ⊢
  exact callTo_absent_second ret target h1 (not_present_iff.1 h2)

/-! ## Popping two bytes, and the return that goes to them (R201) -/

theorem stopsAt_popBytes_first {f : Byte × Byte × State → Result State} (h : ¬ Present s s.sp) :
    StopsAt (andThen (popBytes s) f) s.sp .read := by
  rw [StopsAt, popBytes, memRead_absent (not_present_iff.1 h), andThen_fault, andThen_fault]

theorem stopsAt_popBytes_second {f : Byte × Byte × State → Result State} (h1 : Present s s.sp)
    (h2 : ¬ Present s (s.sp + 1)) : StopsAt (andThen (popBytes s) f) (s.sp + 1) .read := by
  have habsent : (s.setSp (s.sp + 1)).kindAt (s.sp + 1) = .absent := not_present_iff.1 h2
  rw [StopsAt, popBytes, memRead_present h1, andThen_next, memRead_absent habsent, andThen_fault, andThen_fault]

/-- `t` is `s` after `pc` was popped: `sp` two higher, and nothing else changed. -/
def Returned (s t : State) : Prop :=
  t.pc = word (s.byteAt (s.sp + 1)) (s.byteAt s.sp) ∧ t.sp = s.sp + 2 ∧ MemKept s t ∧ RegsKeptBut s t [] ∧
    t.flags = s.flags ∧ RestKept s t

theorem returnToCaller_returned (h1 : Present s s.sp) (h2 : Present s (s.sp + 1)) :
    ∃ t, returnToCaller s = .next t ∧ Returned s t := by
  rw [returnToCaller_present h1 h2]
  exact ⟨_, rfl, append_eq_word _ _, add_one_add_one s.sp, fun _ => rfl, fun _ _ => rfl, rfl, rfl, rfl, rfl⟩

/-! ## Moving `pc` alone -/

theorem onlyPc_setPc (s : State) (v : Word) : OnlyPc s (s.setPc v) := ⟨(KeptBut.refl s []).setPc v, rfl⟩

theorem onlyPc_advance (s : State) (n : Nat) : OnlyPc s (s.advance n) := onlyPc_setPc s (s.nextPc n)

end

/-! ## The eight conditions (R89) -/

/-- The field `ccc` of an opcode. -/
def condCode : Cond → BitVec 3
  | .nz => 0b000
  | .z => 0b001
  | .nc => 0b010
  | .c => 0b011
  | .po => 0b100
  | .pe => 0b101
  | .p => 0b110
  | .m => 0b111

/-- The opcode 11 `ccc` `low` of a conditional branch. -/
def condOpcode (cc : Cond) (low : BitVec 3) : Byte := 0b11#2 ++ condCode cc ++ low

/-- The conditional jump on `cc` (R203 to R210). -/
def condJump : Cond → Word → Instr
  | .nz => .jnz
  | .z => .jz
  | .nc => .jnc
  | .c => .jc
  | .po => .jpo
  | .pe => .jpe
  | .p => .jp
  | .m => .jm

/-- The conditional call on `cc` (R212 to R219). -/
def condCall : Cond → Word → Instr
  | .nz => .cnz
  | .z => .cz
  | .nc => .cnc
  | .c => .cc
  | .po => .cpo
  | .pe => .cpe
  | .p => .cp
  | .m => .cm

/-- The conditional return on `cc` (R221 to R228). -/
def condReturn : Cond → Instr
  | .nz => .rnz
  | .z => .rz
  | .nc => .rnc
  | .c => .rc
  | .po => .rpo
  | .pe => .rpe
  | .p => .rp
  | .m => .rm

section
variable (cc : Cond) (a : Word) (s : State) (f : Flags)

theorem encode_condJump : encode (condJump cc a) = threeBytes (condOpcode cc 0b010) a := by cases cc <;> rfl
theorem encode_condCall : encode (condCall cc a) = threeBytes (condOpcode cc 0b100) a := by cases cc <;> rfl
theorem encode_condReturn : encode (condReturn cc) = [condOpcode cc 0b000] := by cases cc <;> rfl

theorem timing_condJump : timing (condJump cc a) f = jumpTiming f cc := by cases cc <;> rfl
theorem timing_condCall : timing (condCall cc a) f = callTiming f cc := by cases cc <;> rfl
theorem timing_condReturn : timing (condReturn cc) f = returnTiming f cc := by cases cc <;> rfl

theorem exec_condJump : exec (condJump cc a) s = jumpIf s cc a := by cases cc <;> rfl
theorem exec_condCall : exec (condCall cc a) s = callIf s cc a := by cases cc <;> rfl
theorem exec_condReturn : exec (condReturn cc) s = returnIf s cc := by cases cc <;> rfl

theorem exec_jmp : exec (.jmp a) s = .next (s.setPc a) := rfl
theorem exec_call : exec (.call a) s = callTo s (s.nextPc 3) a := rfl
theorem exec_ret : exec .ret s = returnToCaller s := rfl

variable {cc s}

/-- A conditional jump completes in either case: the condition chooses where. -/
theorem jumpIf_eq : jumpIf s cc a = .next (s.setPc (if condHolds s.flags cc then a else s.nextPc 3)) := by
  unfold jumpIf
  split
  · rfl
  · rfl

theorem callIf_taken (h : condHolds s.flags cc = true) : callIf s cc a = callTo s (s.nextPc 3) a := if_pos h
theorem callIf_not_taken (h : condHolds s.flags cc = false) : callIf s cc a = .next (s.advance 3) :=
  if_neg (Bool.not_eq_true _ ▸ h)

theorem returnIf_taken (h : condHolds s.flags cc = true) : returnIf s cc = returnToCaller s := if_pos h
theorem returnIf_not_taken (h : condHolds s.flags cc = false) : returnIf s cc = .next (s.advance 1) :=
  if_neg (Bool.not_eq_true _ ▸ h)

end

/-! ## What makes an instruction a jump, a call, a return -/

section
variable {op : Byte} {taken : Flags → Bool}

theorem jumps_of_exec {mk : Word → Instr} (henc : ∀ a, encode (mk a) = threeBytes op a)
    (htime : ∀ a f, timing (mk a) f = if taken f then fixedTiming 3 3 10 else fixedTiming 3 2 7)
    (hexec : ∀ a s, exec (mk a) s = .next (s.setPc (if taken s.flags then a else s.nextPc 3))) : Jumps mk op taken :=
  fun a s => ⟨(henc a).trans (threeBytes_eq op a), htime a s.flags, _, hexec a s, rfl, onlyPc_setPc s _⟩

/-- An instruction that is `callTo` where taken and goes on after its three bytes where not (R211, R212). -/
theorem calls_of_exec {mk : Word → Instr} (henc : ∀ a, encode (mk a) = threeBytes op a)
    (htime : ∀ a f, timing (mk a) f = if taken f then fixedTiming 3 5 18 else fixedTiming 3 2 9)
    (htaken : ∀ a s, taken s.flags = true → exec (mk a) s = callTo s (s.nextPc 3) a)
    (hnot : ∀ a s, taken s.flags = false → exec (mk a) s = .next (s.advance 3)) : Calls mk op taken := by
  intro a s
  refine ⟨(henc a).trans (threeBytes_eq op a), htime a s.flags, fun ht hm h1 h2 => ?_, fun ht h1 => ?_,
    fun ht h1 h2 => ?_, fun hf => ⟨_, hnot a s hf, rfl, onlyPc_advance s 3⟩⟩
  · rw [htaken a s ht]
    exact callTo_called _ a hm h1 h2
  · rw [htaken a s ht]
    exact stopsAt_callTo_first _ a h1
  · rw [htaken a s ht]
    exact stopsAt_callTo_second _ a h1 h2

/-- An instruction that is `returnToCaller` where taken and goes on after its one byte where not (R220, R221). -/
theorem returns_of_exec {i : Instr} {tTaken : Nat} (henc : encode i = [op])
    (htime : ∀ f, timing i f = if taken f then fixedTiming 1 3 tTaken else fixedTiming 1 1 6)
    (htaken : ∀ s, taken s.flags = true → exec i s = returnToCaller s)
    (hnot : ∀ s, taken s.flags = false → exec i s = .next (s.advance 1)) : Returns i op tTaken taken := by
  refine ⟨henc, fun s => ⟨htime s.flags, fun ht h1 h2 => ?_, fun ht h1 => ?_, fun ht h1 h2 => ?_,
    fun hf => ⟨_, hnot s hf, rfl, onlyPc_advance s 1⟩⟩⟩
  · rw [htaken s ht]
    exact returnToCaller_returned h1 h2
  · rw [htaken s ht]
    exact stopsAt_popBytes_first h1
  · rw [htaken s ht]
    exact stopsAt_popBytes_second h1 h2

end

theorem jumps_jmp : Jumps .jmp 0xC3 (fun _ => true) :=
  jumps_of_exec (fun _ => rfl) (fun _ _ => rfl) exec_jmp

theorem jumps_condJump (cc : Cond) : Jumps (condJump cc) (condOpcode cc 0b010) (condHolds · cc) :=
  jumps_of_exec (encode_condJump cc) (timing_condJump cc) fun a s => (exec_condJump cc a s).trans (jumpIf_eq a)

theorem calls_call : Calls .call 0xCD (fun _ => true) :=
  calls_of_exec (fun _ => rfl) (fun _ _ => rfl) (fun a s _ => exec_call a s) (fun _ _ h => nomatch h)

theorem calls_condCall (cc : Cond) : Calls (condCall cc) (condOpcode cc 0b100) (condHolds · cc) :=
  calls_of_exec (encode_condCall cc) (timing_condCall cc) (fun a s h => (exec_condCall cc a s).trans (callIf_taken a h))
    fun a s h => (exec_condCall cc a s).trans (callIf_not_taken a h)

theorem returns_ret : Returns .ret 0xC9 10 (fun _ => true) :=
  returns_of_exec rfl (fun _ => rfl) (fun s _ => exec_ret s) (fun _ h => nomatch h)

theorem returns_condReturn (cc : Cond) : Returns (condReturn cc) (condOpcode cc 0b000) 12 (condHolds · cc) :=
  returns_of_exec (encode_condReturn cc) (timing_condReturn cc) (fun s h => (exec_condReturn cc s).trans (returnIf_taken h))
    fun s h => (exec_condReturn cc s).trans (returnIf_not_taken h)

end Sys2Proof.Says

namespace Sys2Proof.Branch

open Sys2Proof.Machine Sys2Proof.Says

/-- Settles O48: JMP, and the one law of a conditional jump at each of the eight conditions. -/
theorem jumpsGoWhereTheConditionSays : Obligations.JumpsGoWhereTheConditionSays :=
  ⟨jumps_jmp, jumps_condJump .nz, jumps_condJump .z, jumps_condJump .nc, jumps_condJump .c, jumps_condJump .po,
    jumps_condJump .pe, jumps_condJump .p, jumps_condJump .m⟩

/-- Settles O49: CALL, and the one law of a conditional call at each of the eight conditions. -/
theorem callsPushTheNextAddress : Obligations.CallsPushTheNextAddress :=
  ⟨calls_call, calls_condCall .nz, calls_condCall .z, calls_condCall .nc, calls_condCall .c, calls_condCall .po,
    calls_condCall .pe, calls_condCall .p, calls_condCall .m⟩

/-- Settles O50: RET, and the one law of a conditional return at each of the eight conditions. -/
theorem returnsPopTheProgramCounter : Obligations.ReturnsPopTheProgramCounter :=
  ⟨returns_ret, returns_condReturn .nz, returns_condReturn .z, returns_condReturn .nc, returns_condReturn .c,
    returns_condReturn .po, returns_condReturn .pe, returns_condReturn .p, returns_condReturn .m⟩

end Sys2Proof.Branch
end

section
/-! Encoding (30_encoding.md): the decoder's answer is the opcode's instruction on the bytes its length takes, the opcode
split into its fields gives back every encoding, and the statements follow from these two. -/

namespace Sys2Proof.Says

open Sys2Proof.Machine

/-! ## The decoder by the length of the opcode (R84) -/

section
variable {op : Byte}

theorem decode_of_length_one (h : opcodeLength op = 1) (rest : List Byte) :
    decode (op :: rest) = .ok (decodeInstr op 0 0, rest) := by
  simp only [decode, h]

theorem decode_of_length_two (h : opcodeLength op = 2) (b2 : Byte) (rest : List Byte) :
    decode (op :: b2 :: rest) = .ok (decodeInstr op b2 0, rest) := by
  simp only [decode, h]

theorem decode_of_length_three (h : opcodeLength op = 3) (b2 b3 : Byte) (rest : List Byte) :
    decode (op :: b2 :: b3 :: rest) = .ok (decodeInstr op b2 b3, rest) := by
  simp only [decode, h]

end

/-! ## An instruction's bytes decode to it -/

/-- The operand word of a 3-byte instruction comes back from its two bytes (R83, R91). -/
theorem decode_threeBytes {op : Byte} {mk : Word → Instr} (hlen : opcodeLength op = 3)
    (hmk : ∀ b2 b3, decodeInstr op b2 b3 = mk (b3 ++ b2)) (v : Word) (rest : List Byte) :
    decode (threeBytes op v ++ rest) = .ok (mk v, rest) := by
  refine (decode_of_length_three hlen (v.extractLsb' 0 8) (v.extractLsb' 8 8) rest).trans ?_
  rw [hmk, word_of_bytes]

theorem decode_encode (i : Instr) (rest : List Byte) : decode (encode i ++ rest) = .ok (i, rest) := by
  cases i
  case lxi p v => cases p <;> exact decode_threeBytes rfl (fun _ _ => rfl) v rest
  case shld a | lhld a | sta a | lda a => exact decode_threeBytes rfl (fun _ _ => rfl) a rest
  case jmp a | jnz a | jz a | jnc a | jc a | jpo a | jpe a | jp a | jm a =>
    exact decode_threeBytes rfl (fun _ _ => rfl) a rest
  case call a | cnz a | cz a | cnc a | cc a | cpo a | cpe a | cp a | cm a =>
    exact decode_threeBytes rfl (fun _ _ => rfl) a rest
  case stax p | ldax p => cases p <;> rfl
  case inx p | dcx p | dad p => cases p <;> rfl
  case push p | pop p => cases p <;> rfl
  case movRR dst src => cases dst <;> cases src <;> rfl
  case inrR r | dcrR r | mviR r _ | movRM r | movMR r => cases r <;> rfl
  case addR r | adcR r | subR r | sbbR r | anaR r | xraR r | oraR r | cmpR r => cases r <;> rfl
  case rst n => rcases field3_cases n with h | h | h | h | h | h | h | h <;> subst h <;> rfl
  all_goals rfl

/-! ## Every opcode is the encoding of what it decodes to, field by field (R86 to R89) -/

/-- The bytes of an instruction with this opcode, as many as its length says (R84). -/
def bytesOf (op d8 : Byte) (d16 : Word) : List Byte :=
  match opcodeLength op with
  | 1 => [op]
  | 2 => [op, d8]
  | _ => threeBytes op d16

theorem fields_append (op : Byte) : groupField op ++ midField op ++ lowField op = op := by
  have := op.isLt
  apply BitVec.eq_of_toNat_eq
  simp only [BitVec.toNat_append, groupField, midField, lowField]
  rw [← Nat.shiftLeft_add_eq_or_of_lt (BitVec.isLt _), ← Nat.shiftLeft_add_eq_or_of_lt (BitVec.isLt _)]
  simp only [BitVec.extractLsb'_toNat, Nat.shiftLeft_eq, Nat.shiftRight_eq_div_pow]
  omega

theorem field2_cases (n : BitVec 2) : n = 0 ∨ n = 1 ∨ n = 2 ∨ n = 3 := by
  have := n.isLt
  bv_omega

/-- Each of the four groups, and in it each low field and each middle field. -/
theorem encode_decodeInstr_fields (group : BitVec 2) (mid low : BitVec 3) (b2 b3 : Byte) :
    encode (decodeInstr (group ++ mid ++ low) b2 b3) = bytesOf (group ++ mid ++ low) b2 (b3 ++ b2) := by
  rcases field2_cases group with h | h | h | h <;> subst h <;>
    rcases field3_cases low with h | h | h | h | h | h | h | h <;> subst h <;>
      rcases field3_cases mid with h | h | h | h | h | h | h | h <;> subst h <;> rfl

theorem encode_decodeInstr (op b2 b3 : Byte) : encode (decodeInstr op b2 b3) = bytesOf op b2 (b3 ++ b2) := by
  have h := encode_decodeInstr_fields (groupField op) (midField op) (lowField op) b2 b3
  rwa [fields_append] at h

theorem encode_of_decode {bytes rest : List Byte} {i : Instr} (h : decode bytes = .ok (i, rest)) :
    bytes = encode i ++ rest := by
  unfold decode at h
  split at h
  · cases h
  · next op operands =>
    split at h
    · next hlen =>
      cases h
      rw [encode_decodeInstr, bytesOf, hlen]
      rfl
    · next b2 _ hlen =>
      cases h
      rw [encode_decodeInstr, bytesOf, hlen]
      rfl
    · next b2 b3 _ hlen =>
      cases h
      rw [encode_decodeInstr, bytesOf, hlen, threeBytes, lowByte_append, highByte_append]
      rfl
    · cases h

/-! ## The ten terms that are no instruction (R96) -/

/-- The ill-formed terms are the ten, each with its opcode, which it raises when executed (R285). -/
theorem illFormed_raises {i : Instr} (h : ¬ WellFormed i) :
    ∃ op ∈ tenUnassigned, encode i = [op] ∧ ∀ s : State, exec i s = .fault (.illegalOpcode op s.pc) := by
  cases i
  case unassigned08 => exact ⟨0x08, by decide, rfl, fun _ => rfl⟩
  case unassigned10 => exact ⟨0x10, by decide, rfl, fun _ => rfl⟩
  case unassigned18 => exact ⟨0x18, by decide, rfl, fun _ => rfl⟩
  case unassigned28 => exact ⟨0x28, by decide, rfl, fun _ => rfl⟩
  case unassigned38 => exact ⟨0x38, by decide, rfl, fun _ => rfl⟩
  case unassignedCB => exact ⟨0xCB, by decide, rfl, fun _ => rfl⟩
  case unassignedD9 => exact ⟨0xD9, by decide, rfl, fun _ => rfl⟩
  case unassignedDD => exact ⟨0xDD, by decide, rfl, fun _ => rfl⟩
  case unassignedED => exact ⟨0xED, by decide, rfl, fun _ => rfl⟩
  case unassignedFD => exact ⟨0xFD, by decide, rfl, fun _ => rfl⟩
  all_goals exact absurd rfl h

/-- A term that is no instruction comes from one of the ten opcodes, and raises it. -/
theorem illFormed_of_decode {op : Byte} {bytes rest : List Byte} {i : Instr} (h : decode (op :: bytes) = .ok (i, rest))
    (hi : ¬ WellFormed i) : op ∈ tenUnassigned ∧ ∀ s : State, exec i s = .fault (.illegalOpcode op s.pc) := by
  obtain ⟨op', hop', henc, hexec⟩ := illFormed_raises hi
  have hbytes := encode_of_decode h
  rw [henc] at hbytes
  cases hbytes
  exact ⟨hop', hexec⟩

/-- One of the ten opcodes decodes to a term that is no instruction, whatever follows it. -/
theorem illFormed_decodeInstr {op : Byte} (h : op ∈ tenUnassigned) (b2 b3 : Byte) :
    opcodeLength op = 1 ∧ ¬ WellFormed (decodeInstr op b2 b3) := by
  simp only [tenUnassigned, List.mem_cons, List.not_mem_nil, or_false] at h
  rcases h with h | h | h | h | h | h | h | h | h | h <;> subst h <;> exact ⟨rfl, Bool.false_ne_true⟩

/-! ## Lengths (R84) -/

theorem opcodeLength_eq (op : Byte) :
    opcodeLength op = if op ∈ twoByteOpcodes then 2 else if op ∈ threeByteOpcodes then 3 else 1 := by
  revert op
  decide

theorem length_decodeInstr (op b2 b3 : Byte) : (decodeInstr op b2 b3).length = opcodeLength op := by
  rw [Instr.length, encode_decodeInstr, bytesOf]
  rcases opcodeLength_cases op with h | h | h <;> rw [h] <;> rfl

/-- Three bytes are always enough, and the first alone decides the length. -/
theorem decode_three (op b2 b3 : Byte) : ∃ i rest, decode [op, b2, b3] = .ok (i, rest) ∧ i.length = opcodeLength op := by
  rcases opcodeLength_cases op with h | h | h
  · exact ⟨_, _, decode_of_length_one h _, length_decodeInstr _ _ _⟩
  · exact ⟨_, _, decode_of_length_two h _ _, length_decodeInstr _ _ _⟩
  · exact ⟨_, _, decode_of_length_three h _ _ _, length_decodeInstr _ _ _⟩

end Sys2Proof.Says

namespace Sys2Proof.Encoding

open Sys2Proof.Machine Sys2Proof.Says

/-- Settles O1: an opcode's fields name the operands, and an operand word comes back from its two bytes. -/
theorem decodeOfEncodeIsTheInstruction : Obligations.DecodeOfEncodeIsTheInstruction := decode_encode

/-- Settles O2: every opcode is the encoding of what it decodes to, and the operand bytes are those of the length. -/
theorem decodedBytesAreTheEncoding : Obligations.DecodedBytesAreTheEncoding := fun _ _ _ h => encode_of_decode h

/-- Settles O4: the decoder's length, read off for every opcode. -/
theorem opcodeAloneDecidesTheLength : Obligations.OpcodeAloneDecidesTheLength := by
  intro op b2 b3
  obtain ⟨i, rest, hdec, hlen⟩ := decode_three op b2 b3
  refine ⟨i, rest, hdec, fun _ => ⟨hlen.trans (opcodeLength_eq op), ?_⟩⟩
  rw [encode_of_decode hdec, Instr.length, List.drop_left]

/-- Settles O5: an ill-formed term has one of the ten encodings, and each of the ten decodes to one. -/
theorem tenOpcodesHaveNoInstruction : Obligations.TenOpcodesHaveNoInstruction := by
  intro op b2 b3 i rest hdec
  constructor
  · exact fun hi => (illFormed_of_decode hdec hi).1
  · intro hop
    obtain ⟨hlen, hi⟩ := illFormed_decodeInstr hop 0 0
    rw [decode_of_length_one hlen] at hdec
    cases hdec
    exact hi

/-- Settles O3. -/
theorem spelledOutWordsDecode : Obligations.SpelledOutWordsDecode :=
  ⟨rfl, rfl, rfl, rfl, rfl, rfl, rfl, rfl, rfl, rfl, rfl, rfl, rfl⟩

end Sys2Proof.Encoding
end

section
/-! The step (60_exceptions.md): which of the four kinds a step is, what a fetch answers, how a step stops, and the
statements about fetching, running and stopping. -/

namespace Sys2Proof.Says

open Sys2Proof.Machine

/-! ## The four kinds of step (R270) -/

section
variable {s : State}

theorem step_of_reset (h : s.env.inputs.reset = true) : step s = .next (performReset s).tick := if_pos h

theorem step_of_pending {src : IntSource} (hr : s.env.inputs.reset = false)
    (hp : (sampleInterrupts s).pendingInterrupt = some src) :
    step s = andThen (takeInterrupt (sampleInterrupts s) src) fun t => .next t.tick := by
  rw [step, hr, if_neg Bool.false_ne_true, stepSampled, hp]

theorem step_of_halted (hr : s.env.inputs.reset = false) (hf : FinalHalt s) :
    step s = .next (sampleInterrupts s).tick := by
  obtain ⟨hh, hp⟩ := hf
  rw [step, hr, if_neg Bool.false_ne_true, stepSampled, hp]
  exact if_pos hh

theorem step_of_fetches (h : Fetches s) : step s = runInstruction (sampleInterrupts s) := by
  obtain ⟨hr, hp, hh⟩ := h
  have hrun : ¬ (sampleInterrupts s).ctl.halted = true := by
    rw [sampleInterrupts_ctl_halted, hh]
    exact Bool.false_ne_true
  rw [step, hr, if_neg Bool.false_ne_true, stepSampled, hp]
  exact if_neg hrun

theorem step_kinds (s : State) :
    s.env.inputs.reset = true ∨
    (s.env.inputs.reset = false ∧ ∃ src, (sampleInterrupts s).pendingInterrupt = some src) ∨
    (s.env.inputs.reset = false ∧ FinalHalt s) ∨ Fetches s := by
  cases hr : s.env.inputs.reset with
  | true => exact .inl rfl
  | false =>
    cases hp : (sampleInterrupts s).pendingInterrupt with
    | some src => exact .inr (.inl ⟨rfl, src, rfl⟩)
    | none =>
      cases hh : s.ctl.halted with
      | true => exact .inr (.inr (.inl ⟨rfl, hh, hp⟩))
      | false => exact .inr (.inr (.inr ⟨hr, hp, hh⟩))

/-! ## What a fetch answers -/

/-- A completed fetch read the opcode and answers what the bytes at `pc` decode to. -/
theorem fetchInstr_eq_next {i : Instr} (h : fetchInstr s = .next i) :
    ∃ rest, decode [s.byteAt s.pc, s.byteAt (s.pc + 1), s.byteAt (s.pc + 2)] = .ok (i, rest) := by
  obtain ⟨op, hop, h⟩ := andThen_eq_next h
  obtain ⟨-, rfl⟩ := loadByte_eq_next hop
  split at h
  · next hlen => cases h; exact ⟨_, decode_of_length_one hlen _⟩
  · next hlen =>
    obtain ⟨b2, hb2, h⟩ := andThen_eq_next h
    obtain ⟨-, rfl⟩ := loadByte_eq_next hb2
    cases h
    exact ⟨_, decode_of_length_two hlen _ _⟩
  · next h1 h2 =>
    have hlen : opcodeLength (s.byteAt s.pc) = 3 := (opcodeLength_cases _).resolve_left h1 |>.resolve_left h2
    obtain ⟨b2, hb2, h⟩ := andThen_eq_next h
    obtain ⟨b3, hb3, h⟩ := andThen_eq_next h
    obtain ⟨-, rfl⟩ := loadByte_eq_next hb2
    obtain ⟨-, rfl⟩ := loadByte_eq_next hb3
    cases h
    exact ⟨_, decode_of_length_three hlen _ _ _⟩

theorem stopsOnlyAbsent_fetchInstr (s : State) : StopsOnlyAbsent s (fetchInstr s) := by
  refine .andThen (stopsOnlyAbsent_loadByte _ _ rfl) fun op _ => ?_
  split
  · exact .next _
  · exact .andThen (stopsOnlyAbsent_loadByte _ _ rfl) fun _ _ => .next _
  · exact .andThen (stopsOnlyAbsent_loadByte _ _ rfl) fun _ _ =>
      .andThen (stopsOnlyAbsent_loadByte _ _ rfl) fun _ _ => .next _

/-- Of three bytes the first alone decides the length. -/
theorem length_of_decode {op b2 b3 : Byte} {i : Instr} {rest : List Byte} (h : decode [op, b2, b3] = .ok (i, rest)) :
    i.length = opcodeLength op := by
  obtain ⟨j, _, hj, hlen⟩ := decode_three op b2 b3
  rw [h] at hj
  cases hj
  exact hlen

/-- Step 6 of R270 and the end of the step, in one. -/
theorem tick_updateShadow (i : Instr) (t : State) :
    (updateShadow i t).tick = { t with
      ctl := { t.ctl with eiShadow := if t.params.eiDelay then isEi i else t.ctl.eiShadow }
      env := t.env.tick } := by
  unfold updateShadow
  split <;> rfl

/-! ## How a step stops -/

/-- The acknowledge is refused (R275). -/
theorem takeInterrupt_refused {b : Byte} (h : ¬ AdmittedByte s.params b) :
    takeInterrupt s (.intr b) = .refused (.intaByteNotAdmitted b) :=
  if_neg fun hb => h ((admitsInta_iff _ _).1 hb)

theorem takeInterrupt_admitted {src : IntSource} (h : ∀ b, src = .intr b → AdmittedByte s.params b) :
    takeInterrupt s src = interruptEntry s src := by
  cases src with
  | intr b => exact if_pos ((admitsInta_iff _ _).2 (h b rfl))
  | trap | rst75 | rst65 | rst55 => rfl

theorem intr_of_pending {b : Byte} (h : s.pendingInterrupt = some (.intr b)) : s.env.inputs.intr = some b := by
  have hrec := pendingInterrupt_recognisable h
  simp only [State.recognisable, Bool.and_eq_true, decide_eq_true_eq] at hrec
  exact hrec.1

/-- The three ways a step stops: an absent address, an INTR byte refused, one of the ten opcodes fetched. -/
theorem step_stops (s : State) :
    StopsOnlyAbsent s (step s) ∨
    (∃ b, s.env.inputs.intr = some b ∧ ¬ AdmittedByte s.params b ∧ step s = .refused (.intaByteNotAdmitted b)) ∨
    (Fetches s ∧ s.byteAt s.pc ∈ tenUnassigned ∧ step s = .fault (.illegalOpcode (s.byteAt s.pc) s.pc)) := by
  rcases step_kinds s with hr | ⟨hr, src, hp⟩ | ⟨hr, hf⟩ | hf
  · rw [step_of_reset hr]
    exact .inl (.next _)
  · rw [step_of_pending hr hp]
    by_cases hadm : ∀ b, src = .intr b → AdmittedByte s.params b
    · rw [takeInterrupt_admitted (s := sampleInterrupts s) hadm]
      exact .inl (.andThen (stopsOnlyAbsent_callTo _ _ rfl) fun _ _ => .next _)
    · obtain ⟨b, rfl, hb⟩ : ∃ b, src = .intr b ∧ ¬ AdmittedByte s.params b := by simpa using hadm
      rw [takeInterrupt_refused (s := sampleInterrupts s) hb, andThen_refused]
      exact .inr (.inl ⟨b, intr_of_pending (s := sampleInterrupts s) hp, hb, rfl⟩)
  · rw [step_of_halted hr hf]
    exact .inl (.next _)
  · rw [step_of_fetches hf, runInstruction]
    cases hi : fetchInstr (sampleInterrupts s) with
    | next i =>
      obtain ⟨rest, hdec⟩ := fetchInstr_eq_next hi
      by_cases hwf : WellFormed i
      · rw [andThen_next]
        exact .inl (.andThen (exec_stopsOnlyAbsent (sampleInterrupts s) hwf) fun _ _ => .next _)
      · obtain ⟨hop, hexec⟩ := illFormed_of_decode hdec hwf
        rw [andThen_next, hexec, andThen_fault]
        exact .inr (.inr ⟨hf, hop, rfl⟩)
    | fault r =>
      have hstop := stopsOnlyAbsent_fetchInstr (sampleInterrupts s)
      rw [hi] at hstop
      exact .inl (hstop.andThen fun _ h => nomatch h)
    | refused r => exact absurd hi ((stopsOnlyAbsent_fetchInstr _).1 r)

end

end Sys2Proof.Says

namespace Sys2Proof.Steps

open Sys2Proof.Machine Sys2Proof.Says

/-- Settles O9: each stop is one of the three ways a step stops. -/
theorem stopsOnlyWhereTheSpecSays : Obligations.StopsOnlyWhereTheSpecSays := by
  intro s
  rcases step_stops s with ⟨hnot, hstop⟩ | ⟨b, hb, hadm, hstep⟩ | ⟨hf, hop, hstep⟩
  · refine ⟨fun op pc0 h => ?_, fun a acc h => ?_, fun r h => absurd h (hnot r)⟩
    · obtain ⟨_, _, hr, -⟩ := hstop _ h
      cases hr
    · obtain ⟨_, _, hr, habsent⟩ := hstop _ h
      cases hr
      exact not_present_iff.2 habsent
  · rw [hstep]
    exact ⟨fun _ _ h => (nomatch h), fun _ _ h => (nomatch h), fun r h => ⟨b, by cases h; rfl, hb, hadm⟩⟩
  · rw [hstep]
    exact ⟨fun _ _ h => by cases h; exact ⟨rfl, rfl, hop, hf⟩, fun _ _ h => (nomatch h), fun _ h => (nomatch h)⟩

/-- Settles O8: a fetch of one of the ten reaches `exec`, and no other kind of step raises the fault. -/
theorem unassignedOpcodesRaiseIllegalOpcode : Obligations.UnassignedOpcodesRaiseIllegalOpcode := by
  intro s
  refine ⟨⟨rfl, rfl, rfl, rfl, rfl, rfl, rfl, rfl, rfl, rfl⟩, fun hp hop hf => ?_, fun hf op pc0 h => ?_⟩
  · obtain ⟨hlen, hi⟩ := illFormed_decodeInstr hop 0 0
    have hdec := decode_of_length_one hlen [s.byteAt (s.pc + 1), s.byteAt (s.pc + 2)]
    have hfetch : fetchInstr (sampleInterrupts s) = .next _ :=
      fetchInstr_of_decode hdec hp (fun h => by simp [hlen] at h) (fun h => by simp [hlen] at h)
    rw [step_of_fetches hf, runInstruction, hfetch, andThen_next, (illFormed_of_decode hdec hi).2, andThen_fault]
    rfl
  · obtain ⟨-, -, -, hfetches⟩ := (stopsOnlyWhereTheSpecSays s).1 op pc0 h
    exact hf hfetches

/-- Settles O6: the fetch is complete where the bytes are there, and stops at the first that is not. -/
theorem stepRunsTheDecodedInstruction : Obligations.StepRunsTheDecodedInstruction := by
  intro s hf
  rw [step_of_fetches hf, runInstruction]
  refine ⟨fun h0 => ?_, fun i rest hdec _ => ⟨fun hall => ?_, fun k h0 hk hbefore habsent => ?_⟩⟩
  · rw [StopsAt, fetchInstr_absent_opcode (s := sampleInterrupts s) (not_present_iff.1 h0)]
    rfl
  · rw [length_of_decode hdec] at hall
    have hpos : 0 < opcodeLength (s.byteAt s.pc) := by
      have := opcodeLength_cases (s.byteAt s.pc)
      omega
    have h0 : Present s s.pc := by simpa using hall 0 hpos
    rw [fetchInstr_of_decode (s := sampleInterrupts s) hdec h0 (hall 1) (hall 2), andThen_next]
    cases exec i (sampleInterrupts s) with
    | next t => rw [andThen_next, tick_updateShadow]
    | fault r => rfl
    | refused r => rfl
  · have hpc : Present s s.pc := by simpa using hbefore 0 h0
    have hlen := opcodeLength_cases (s.byteAt s.pc)
    rw [length_of_decode hdec] at hk
    obtain rfl | rfl : k = 1 ∨ k = 2 := by omega
    · rw [StopsAt, fetchInstr_absent_second (s := sampleInterrupts s) hpc hk (not_present_iff.1 habsent)]
      rfl
    · rw [StopsAt, fetchInstr_absent_third (s := sampleInterrupts s) hpc hk (hbefore 1 (by omega))
        (not_present_iff.1 habsent)]
      rfl

end Sys2Proof.Steps
end

section
/-! What every step keeps: the control state and the trace after one instruction and after one step, memory after a step,
then the invariant and the whole-machine rules. -/

namespace Sys2Proof.Says

open Sys2Proof.Machine

/-! ## The four instructions that write control state -/

/-- The control state SIM leaves: three groups, each under its own bit of A (R258). -/
def simCtl (s : State) : Control :=
  { s.ctl with
    m75 := if s.regs.a.getLsbD 3 then s.regs.a.getLsbD 2 else s.ctl.m75
    m65 := if s.regs.a.getLsbD 3 then s.regs.a.getLsbD 1 else s.ctl.m65
    m55 := if s.regs.a.getLsbD 3 then s.regs.a.getLsbD 0 else s.ctl.m55
    r75 := s.ctl.r75 && !s.regs.a.getLsbD 4
    sod := if s.regs.a.getLsbD 6 then s.regs.a.getLsbD 7 else s.ctl.sod }

/-- The environment once the `SOD` line is at `b`: one event where that is a change (R33, D36). -/
def sodEnv (s : State) (b : Bool) : Env :=
  { s.env with out := s.env.out ++ if b = s.ctl.sod then [] else [.sod b] }

section
variable {s t : State} {i : Instr}

theorem exec_ei (s : State) : exec .ei s =
    .next ((s.setCtl { s.ctl with ie := true, eiShadow := s.ctl.eiShadow || s.params.eiDelay }).advance 1) := rfl
theorem exec_di (s : State) : exec .di s = .next ((s.setCtl { s.ctl with ie := false }).advance 1) := rfl
theorem exec_hlt (s : State) : exec .hlt s = .next ((s.setCtl { s.ctl with halted := true }).advance 1) := rfl

theorem sodEnv_self (s : State) : sodEnv s s.ctl.sod = s.env := by simp [sodEnv]

theorem latchSod_eq (s : State) (b : Bool) : latchSod s b = (s.setCtl { s.ctl with sod := b }).setEnv (sodEnv s b) := by
  unfold latchSod
  split
  · next h => subst h; rw [sodEnv_self]; rfl
  · next h => rw [sodEnv, if_neg (Ne.symm h)]; rfl

theorem exec_sim (s : State) :
    exec .sim s = .next (((s.setCtl (simCtl s)).setEnv (sodEnv s (simCtl s).sod)).advance 1) := by
  show execSim s = _
  unfold execSim simCtl
  dsimp only
  split
  · rw [latchSod_eq]; rfl
  · rw [sodEnv_self]; rfl

/-- What an instruction does to the control state. -/
theorem exec_ctl (h : exec i s = .next t) :
    t.ctl = s.ctl ∨ (i = .ei ∧ t.ctl = { s.ctl with ie := true, eiShadow := s.ctl.eiShadow || s.params.eiDelay }) ∨
    (i = .di ∧ t.ctl = { s.ctl with ie := false }) ∨ (i = .hlt ∧ t.ctl = { s.ctl with halted := true }) ∨
    (i = .sim ∧ t.ctl = simCtl s) := by
  by_cases hei : i = .ei
  · subst hei; rw [exec_ei] at h; cases h; exact .inr (.inl ⟨rfl, rfl⟩)
  by_cases hdi : i = .di
  · subst hdi; rw [exec_di] at h; cases h; exact .inr (.inr (.inl ⟨rfl, rfl⟩))
  by_cases hhlt : i = .hlt
  · subst hhlt; rw [exec_hlt] at h; cases h; exact .inr (.inr (.inr (.inl ⟨rfl, rfl⟩)))
  by_cases hsim : i = .sim
  · subst hsim; rw [exec_sim] at h; cases h; exact .inr (.inr (.inr (.inr ⟨rfl, rfl⟩)))
  exact .inl ((exec_effect h).ctl hei hdi hhlt hsim)

/-- A served latch is cleared, every other request is kept (R281). -/
theorem afterEntry_r75 (c : Control) (src : IntSource) :
    (c.afterEntry src).r75 = true ↔ src ≠ .rst75 ∧ c.r75 = true := by
  cases src <;> simp [Control.afterEntry]

theorem afterEntry_trapReq (c : Control) (src : IntSource) :
    (c.afterEntry src).trapReq = true ↔ src ≠ .trap ∧ c.trapReq = true := by
  cases src <;> simp [Control.afterEntry]

/-- While `ei_shadow` is set TRAP alone is recognisable (R276, R277). -/
theorem recognisable_of_eiShadow {src : IntSource} (h : s.ctl.eiShadow = true) (hsrc : src ≠ .trap) :
    s.recognisable src = false := by
  have hoff : s.maskableEnabled = false := by simp [State.maskableEnabled, h]
  cases src with
  | trap => exact absurd rfl hsrc
  | rst75 | rst65 | rst55 | intr b => simp [State.recognisable, hoff]

theorem isEi_iff : isEi i = true ↔ i = .ei := by
  constructor
  · intro h
    unfold isEi at h
    split at h
    · rfl
    · cases h
  · rintro rfl
    rfl

/-! ## What a step does to the control state -/

/-- A step that fetches is one instruction, then step 6, then the end of the step. -/
theorem exists_exec_of_fetches (hf : Fetches s) (h : step s = .next t) :
    ∃ i u, fetchInstr (sampleInterrupts s) = .next i ∧ exec i (sampleInterrupts s) = .next u ∧
      t = (updateShadow i u).tick := by
  rw [step_of_fetches hf] at h
  obtain ⟨i, hi, h⟩ := andThen_eq_next h
  obtain ⟨u, hu, h⟩ := andThen_eq_next h
  cases h
  exact ⟨i, u, hi, hu, rfl⟩

theorem tick_updateShadow_ctl {u : State} (hu : exec i s = .next u) :
    (updateShadow i u).tick.ctl =
      { u.ctl with eiShadow := if s.params.eiDelay then isEi i else u.ctl.eiShadow } := by
  rw [tick_updateShadow, (exec_effect hu).params]

/-- The control state after a step, by the kind of the step. -/
theorem step_ctl (h : step s = .next t) :
    (s.env.inputs.reset = true ∧ t.ctl = Control.afterReset) ∨
    (∃ src, (sampleInterrupts s).pendingInterrupt = some src ∧ t.ctl = (sampleInterrupts s).ctl.afterEntry src) ∨
    (FinalHalt s ∧ t.ctl = (sampleInterrupts s).ctl) ∨
    (Fetches s ∧ ∃ i u, fetchInstr (sampleInterrupts s) = .next i ∧ exec i (sampleInterrupts s) = .next u ∧
      t.ctl = { u.ctl with eiShadow := if s.params.eiDelay then isEi i else u.ctl.eiShadow }) := by
  rcases step_eq_next h with ⟨hr, rfl⟩ | ⟨-, src, u, hp, hu, rfl⟩ | ⟨-, hp, hh, rfl⟩ | ⟨hr, hp, hh, i, u, hi, hu, rfl⟩
  · exact .inl ⟨hr, rfl⟩
  · obtain rfl := takeInterrupt_state hu
    exact .inr (.inl ⟨src, hp, pushed_ctl _ _ _⟩)
  · exact .inr (.inr (.inl ⟨⟨hh, hp⟩, rfl⟩))
  · exact .inr (.inr (.inr ⟨⟨hr, hp, hh⟩, i, u, hi, hu, tick_updateShadow_ctl (s := sampleInterrupts s) hu⟩))

/-! ## What a step does to parameters, memory and the trace -/

theorem stores_pushed_setCtl (s : State) (c : Control) (hi lo : Byte) : Stores s (pushed (s.setCtl c) hi lo).mem := by
  have hmem : (pushed (s.setCtl c) hi lo).mem = (stored (stored s (s.sp - 1) hi) (s.sp - 1 - 1) lo).mem :=
    (pushed_mem _ _ _).trans (stored_congr_mem _ _ (stored_congr_mem _ _ rfl rfl) (by simp))
  rw [hmem]
  exact .two _ _ _ _

theorem step_params_stores (h : step s = .next t) : t.params = s.params ∧ Stores (sampleInterrupts s) t.mem := by
  rcases step_eq_next h with ⟨-, rfl⟩ | ⟨-, src, u, -, hu, rfl⟩ | ⟨-, -, -, rfl⟩ | ⟨-, -, -, i, u, -, hu, rfl⟩
  · rw [State.tick_mem, State.tick_params, performReset_mem, performReset_params]
    exact ⟨rfl, .none⟩
  · obtain rfl := takeInterrupt_state hu
    exact ⟨pushed_params _ _ _, stores_pushed_setCtl _ _ _ _⟩
  · exact ⟨rfl, .none⟩
  · rw [State.tick_mem, State.tick_params, updateShadow_mem, updateShadow_params]
    exact ⟨(exec_effect hu).params, (exec_effect hu).mem⟩

theorem performReset_out (s : State) :
    (performReset s).env.out = s.env.out ++ if s.ctl.sod = false then [] else [.sod false] := by
  simp [performReset, latchSod_env]

theorem exec_out (s : State) (p : Byte) : exec (.out p) s = .next ((s.emit (.port p s.regs.a)).advance 2) := rfl

/-- Only OUT and SIM write the trace, by one event at most. -/
theorem exec_trace (h : exec i s = .next t) :
    ∃ es, t.env.out = s.env.out ++ es ∧ es.length ≤ 1 ∧ (es ≠ [] → i = .sim ∨ ∃ p, i = .out p) := by
  by_cases hsim : i = .sim
  · subst hsim
    rw [exec_sim] at h
    cases h
    refine ⟨_, rfl, ?_, fun _ => .inl rfl⟩
    split
    · exact Nat.zero_le 1
    · exact Nat.le_refl 1
  by_cases hout : ∃ p, i = .out p
  · obtain ⟨p, rfl⟩ := hout
    rw [exec_out] at h
    cases h
    exact ⟨_, rfl, Nat.le_refl 1, fun _ => .inr ⟨p, rfl⟩⟩
  · refine ⟨[], ?_, Nat.zero_le 1, fun h => absurd rfl h⟩
    rw [List.append_nil]
    exact (exec_effect h).out hsim fun p hp => hout ⟨p, hp⟩

end

end Sys2Proof.Says

namespace Sys2Proof.Steps

open Sys2Proof.Machine Sys2Proof.Says

/-- Settles O10: memory is as before but for stores, and the one instruction that sets `ei_shadow` sets `IE` too. -/
theorem everyStepKeepsTheInvariant : Obligations.EveryStepKeepsTheInvariant := by
  intro s t ⟨hwf, hshadow⟩ h
  obtain ⟨hparams, hstores⟩ := step_params_stores h
  refine ⟨hstores.wf hwf, fun ht => ?_⟩
  rw [hparams]
  rcases step_ctl h with ⟨-, hctl⟩ | ⟨src, -, hctl⟩ | ⟨-, hctl⟩ | ⟨⟨-, -, hrun⟩, i, u, -, hu, hctl⟩ <;> rw [hctl] at ht ⊢
  · cases ht
  · cases ht
  · exact hshadow ht
  · cases hdelay : s.params.eiDelay with
    | true =>
      simp only [hdelay, if_true] at ht
      obtain rfl := isEi_iff.1 ht
      rw [exec_ei] at hu
      cases hu
      exact ⟨rfl, rfl, hrun⟩
    | false =>
      simp only [hdelay, Bool.false_eq_true, if_false] at ht
      have hs : s.ctl.eiShadow = true := by
        rcases exec_ctl hu with huctl | ⟨-, huctl⟩ | ⟨-, huctl⟩ | ⟨-, huctl⟩ | ⟨-, huctl⟩ <;> rw [huctl] at ht
        on_goal 2 => simpa [hdelay] using ht
        all_goals exact ht
      obtain ⟨hdelayed, -⟩ := hshadow hs
      exact absurd (hdelay.symm.trans hdelayed) Bool.false_ne_true

/-- Settles O11. -/
theorem resetStateHasTheInvariant : Obligations.ResetStateHasTheInvariant :=
  ⟨reset_mem_wf, fun h => nomatch h⟩

/-- Settles O12: a step stores at most, and a store leaves ROM alone. -/
theorem noStepChangesRomOrParameters : Obligations.NoStepChangesRomOrParameters := by
  intro s t h
  obtain ⟨hparams, hstores⟩ := step_params_stores h
  exact ⟨hparams, fun x hx => hstores.lookup_rom x hx⟩

/-- Settles O13: reset's change of `SOD` and the trace of one instruction are all a step can add. -/
theorem outputTraceGrowsByOneEventAtMost : Obligations.OutputTraceGrowsByOneEventAtMost := by
  intro s t h
  rcases step_eq_next h with ⟨hr, rfl⟩ | ⟨-, src, u, -, hu, rfl⟩ | ⟨-, -, -, rfl⟩ | ⟨hr, hp, hh, i, u, hi, hu, rfl⟩
  · refine ⟨_, (Env.tick_out _).trans (performReset_out s), ?_, fun _ => .inl hr⟩
    split
    · exact Nat.zero_le 1
    · exact Nat.le_refl 1
  · obtain rfl := takeInterrupt_state hu
    exact ⟨[], by simp, Nat.zero_le 1, fun h => absurd rfl h⟩
  · exact ⟨[], by simp, Nat.zero_le 1, fun h => absurd rfl h⟩
  · obtain ⟨es, hout, hlen, hes⟩ := exec_trace hu
    refine ⟨es, ?_, hlen, fun hne => .inr ⟨⟨hr, hp, hh⟩, i, hi, hes hne⟩⟩
    rw [State.tick_env, Env.tick_out, updateShadow_env, hout]
    rfl

/-- Settles O14: of the instructions that write control state EI alone sets `IE`, SIM alone writes the masks. -/
theorem onlyEiEnablesAndOnlySimMasks : Obligations.OnlyEiEnablesAndOnlySimMasks := by
  intro s t h
  have hkept (hs : s.ctl.ie = false) (ht : s.ctl.ie = true) : False := Bool.false_ne_true (hs.symm.trans ht)
  rcases step_ctl h with ⟨hr, hctl⟩ | ⟨src, -, hctl⟩ | ⟨-, hctl⟩ | ⟨hf, i, u, hi, hu, hctl⟩ <;> rw [hctl]
  · exact ⟨fun _ hie => (nomatch hie), fun _ => .inl hr⟩
  · exact ⟨fun _ hie => (nomatch hie), fun hmask => absurd rfl hmask⟩
  · exact ⟨fun hs hie => (hkept hs hie).elim, fun hmask => absurd rfl hmask⟩
  · rcases exec_ctl hu with huctl | ⟨rfl, huctl⟩ | ⟨-, huctl⟩ | ⟨-, huctl⟩ | ⟨rfl, huctl⟩ <;> rw [huctl]
    · exact ⟨fun hs hie => (hkept hs hie).elim, fun hmask => absurd rfl hmask⟩
    · exact ⟨fun _ _ => ⟨hf, hi⟩, fun hmask => absurd rfl hmask⟩
    · exact ⟨fun _ hie => (nomatch hie), fun hmask => absurd rfl hmask⟩
    · exact ⟨fun hs hie => (hkept hs hie).elim, fun hmask => absurd rfl hmask⟩
    · exact ⟨fun hs hie => (hkept hs hie).elim, fun _ => .inr ⟨hf, hi⟩⟩

/-- Settles O15: of the instructions that write control state HLT alone sets `halted`, and none clears it. -/
theorem onlyHltHaltsAndOnlyInterruptOrResetWakes : Obligations.OnlyHltHaltsAndOnlyInterruptOrResetWakes := by
  intro s t h
  have hkept (hs : s.ctl.halted = false) (ht : s.ctl.halted = true) : False := Bool.false_ne_true (hs.symm.trans ht)
  rcases step_ctl h with ⟨hr, hctl⟩ | ⟨src, hp, hctl⟩ | ⟨-, hctl⟩ | ⟨hf, i, u, hi, hu, hctl⟩ <;> rw [hctl]
  · exact ⟨fun _ hhalt => (nomatch hhalt), fun _ _ => .inl hr⟩
  · exact ⟨fun _ hhalt => (nomatch hhalt), fun _ _ => .inr (by rw [hp]; exact Option.some_ne_none src)⟩
  · exact ⟨fun hs hhalt => (hkept hs hhalt).elim, fun hs hwake => (hkept hwake hs).elim⟩
  · obtain ⟨hr, hp, hrun⟩ := hf
    refine ⟨fun _ hhalt => ?_, fun hs => (hkept hrun hs).elim⟩
    rcases exec_ctl hu with huctl | ⟨-, huctl⟩ | ⟨-, huctl⟩ | ⟨rfl, -⟩ | ⟨-, huctl⟩
    on_goal 4 => exact ⟨⟨hr, hp, hrun⟩, hi⟩
    all_goals
      rw [huctl] at hhalt
      exact (hkept hrun hhalt).elim

/-- Settles O16, the running machine by the one step that resets. -/
theorem resetLeavesTheStateOfTheTable : Obligations.ResetLeavesTheStateOfTheTable := by
  refine ⟨⟨rfl, rfl, rfl, rfl, rfl, rfl, rfl, rfl, rfl, rfl⟩, fun s hr => ?_⟩
  exact ⟨_, step_of_reset hr, rfl, rfl, rfl, rfl, rfl, rfl, rfl, rfl, rfl, rfl,
    fun x => congrArg (Memory.lookup · x.toNat) (performReset_mem s), performReset_params s⟩

/-- Settles O21: the latch is cleared by the entry of RST 7.5, by reset and by SIM, and nothing else writes it. -/
theorem rst75RequestStaysStored : Obligations.Rst75RequestStaysStored := by
  intro s t h hr hreq hsrc hsim
  have hsampled : (sampleInterrupts s).ctl.r75 = true := by
    rw [sampleInterrupts_ctl_r75, Bool.or_eq_true]
    exact hreq
  rcases step_ctl h with ⟨hreset, -⟩ | ⟨src, hp, hctl⟩ | ⟨-, hctl⟩ | ⟨hf, i, u, hi, hu, hctl⟩
  · exact absurd (hr.symm.trans hreset) Bool.false_ne_true
  · rw [hctl, afterEntry_r75]
    exact ⟨fun hsrc75 => hsrc (hsrc75 ▸ hp), hsampled⟩
  · rw [hctl]
    exact hsampled
  · rw [hctl]
    rcases exec_ctl hu with huctl | ⟨-, huctl⟩ | ⟨-, huctl⟩ | ⟨-, huctl⟩ | ⟨rfl, -⟩
    on_goal 5 => exact absurd ⟨hf, hi⟩ hsim
    all_goals
      rw [huctl]
      exact hsampled

/-- Settles O22: step 6 leaves `ei_shadow` set after EI alone. -/
theorem eiTakesEffectAfterTheNextInstruction : Obligations.EiTakesEffectAfterTheNextInstruction := by
  intro s t i hdelay hf hi h
  obtain ⟨j, u, hj, hu, rfl⟩ := exists_exec_of_fetches hf h
  obtain rfl : i = j := by
    rw [hi] at hj
    cases hj
    rfl
  have hshadow : (updateShadow i u).tick.ctl.eiShadow = isEi i := by
    rw [tick_updateShadow_ctl hu, sampleInterrupts_params, hdelay]
    rfl
  refine ⟨fun hei => ?_, fun hei => ?_⟩
  · have hset := hshadow.trans (isEi_iff.2 hei)
    refine ⟨?_, hset, fun src hsrc => recognisable_of_eiShadow hset hsrc⟩
    subst hei
    rw [exec_ei] at hu
    cases hu
    rw [State.tick_ctl, updateShadow_ctl]
    rfl
  · rw [hshadow, ← Bool.not_eq_true]
    exact fun h => hei (isEi_iff.1 h)

end Sys2Proof.Steps
end

section
/-! Placing an instruction for the next step (log entry 10): what the placing leaves in memory and in the map, that
nothing keeps the next step from fetching, and that the bytes placed are the instruction's. -/

namespace Sys2Proof.Says

open Sys2Proof.Machine

/-! ## A byte placed from outside -/

theorem kindIn_admitAddress_self (m : List Region) (a : Word) : kindIn (admitAddress m a) a ≠ .absent := by
  unfold admitAddress
  split
  · simp [kindIn, regionHolds]
  · next h => rw [h]; decide
  · next h => rw [h]; decide

/-- Admitting an address makes no other absent. -/
theorem kindIn_admitAddress {m : List Region} {x : Word} (a : Word) (h : kindIn m x ≠ .absent) :
    kindIn (admitAddress m a) x ≠ .absent := by
  unfold admitAddress
  split
  · rw [kindIn]
    split
    · exact MemKind.noConfusion
    · exact h
  · exact h
  · exact h

section
variable {s : State} (a : Word) (b : Byte)

theorem present_place_self : Present (s.place a b) a := kindIn_admitAddress_self _ a

theorem present_place {x : Word} (h : Present s x) : Present (s.place a b) x := kindIn_admitAddress a h

theorem place_wf (hm : Memory.wf s.mem = true) : Memory.wf (s.place a b).mem = true := Memory.wf_store a b hm

theorem place_byteAt_self (hm : Memory.wf s.mem = true) : (s.place a b).byteAt a = b :=
  Memory.lookup_store_word_self a b hm

theorem place_byteAt_other {x : Word} (h : x ≠ a) : (s.place a b).byteAt x = s.byteAt x :=
  Memory.lookup_store_word_other a x b h

/-- Whether the next step fetches depends on the control state and the inputs alone. -/
theorem fetches_place (h : Fetches s) : Fetches (s.place a b) := h

end

/-- `s` with three bytes placed at `a` and after it. -/
def placeThree (s : State) (a : Word) (b0 b1 b2 : Byte) : State :=
  ((s.place a b0).place (a + 1) b1).place (a + 2) b2

section
variable {s : State} (a : Word) (b0 b1 b2 : Byte)

theorem placeThree_byteAt (hm : Memory.wf s.mem = true) :
    (placeThree s a b0 b1 b2).byteAt a = b0 ∧ (placeThree s a b0 b1 b2).byteAt (a + 1) = b1 ∧
      (placeThree s a b0 b1 b2).byteAt (a + 2) = b2 := by
  have hm0 := place_wf a b0 hm
  have hm1 := place_wf (a + 1) b1 hm0
  refine ⟨?_, ?_, place_byteAt_self _ _ hm1⟩
  · rw [placeThree, place_byteAt_other _ _ (by bv_omega), place_byteAt_other _ _ (by bv_omega),
      place_byteAt_self _ _ hm]
  · rw [placeThree, place_byteAt_other _ _ (by bv_omega), place_byteAt_self _ _ hm0]

theorem placeThree_byteAt_other {x : Word} (h0 : x ≠ a) (h1 : x ≠ a + 1) (h2 : x ≠ a + 2) :
    (placeThree s a b0 b1 b2).byteAt x = s.byteAt x := by
  rw [placeThree, place_byteAt_other _ _ h2, place_byteAt_other _ _ h1, place_byteAt_other _ _ h0]

theorem placeThree_present :
    Present (placeThree s a b0 b1 b2) a ∧ Present (placeThree s a b0 b1 b2) (a + 1) ∧
      Present (placeThree s a b0 b1 b2) (a + 2) :=
  ⟨present_place _ _ (present_place _ _ (present_place_self _ _)), present_place _ _ (present_place_self _ _),
    present_place_self _ _⟩

theorem fetches_placeThree (h : Fetches s) : Fetches (placeThree s a b0 b1 b2) :=
  fetches_place _ _ (fetches_place _ _ (fetches_place _ _ h))

/-- Three bytes placed at `pc` are fetched as the instruction they decode to. -/
theorem fetchInstr_placeThree {i : Instr} {rest : List Byte} (hm : Memory.wf s.mem = true)
    (hdec : decode [b0, b1, b2] = .ok (i, rest)) :
    fetchInstr (sampleInterrupts (placeThree s s.pc b0 b1 b2)) = .next i := by
  obtain ⟨h0, h1, h2⟩ := placeThree_byteAt s.pc b0 b1 b2 hm
  obtain ⟨k0, k1, k2⟩ := placeThree_present (s := s) s.pc b0 b1 b2
  have hbytes : [(placeThree s s.pc b0 b1 b2).byteAt s.pc, (placeThree s s.pc b0 b1 b2).byteAt (s.pc + 1),
      (placeThree s s.pc b0 b1 b2).byteAt (s.pc + 2)] = [b0, b1, b2] := by rw [h0, h1, h2]
  exact fetchInstr_of_decode (s := sampleInterrupts (placeThree s s.pc b0 b1 b2)) ((congrArg decode hbytes).trans hdec)
    k0 (fun _ => k1) fun _ => k2

end

/-! ## Nothing in the way of the fetch -/

theorem pendingInterrupt_eq_none {s : State} (h : ∀ src, s.recognisable src = false) : s.pendingInterrupt = none := by
  cases hp : s.pendingInterrupt with
  | none => rfl
  | some src => exact absurd ((h src).symm.trans (pendingInterrupt_recognisable hp)) Bool.false_ne_true

/-- The requests and the halt are cleared, and what would still be recognised is held off as after an EI. -/
theorem fetches_readyToFetch (s : State) : Fetches s.readyToFetch := by
  unfold State.readyToFetch
  dsimp only
  split
  · next hp => exact ⟨rfl, hp, rfl⟩
  · refine ⟨rfl, pendingInterrupt_eq_none fun src => ?_, rfl⟩
    by_cases htrap : src = .trap
    · subst htrap
      rfl
    · exact recognisable_of_eiShadow rfl htrap

/-- Making ready writes control state and inputs only. -/
theorem readyToFetch_eq (s : State) : ∃ c e, s.readyToFetch = (s.setCtl c).setEnv e := by
  unfold State.readyToFetch
  dsimp only
  split
  · exact ⟨_, _, rfl⟩
  · exact ⟨_, _, rfl⟩

/-! ## The word of an instruction and its bytes -/

theorem ofNat_wordOf (bytes : List Byte) : BitVec.ofNat 8 (wordOf bytes) = bytes.headD 0 := by
  cases bytes with
  | nil => rfl
  | cons b rest =>
    apply BitVec.eq_of_toNat_eq
    have := b.isLt
    simp only [wordOf, BitVec.toNat_ofNat, List.headD_cons]
    omega

theorem wordOf_div (bytes : List Byte) : wordOf bytes / 2 ^ 8 = wordOf bytes.tail := by
  cases bytes with
  | nil => rfl
  | cons b rest =>
    have := b.isLt
    simp only [wordOf, List.tail_cons]
    omega

theorem wordOf_lt (bytes : List Byte) : wordOf bytes < 2 ^ (8 * bytes.length) := by
  induction bytes with
  | nil => decide
  | cons b rest ih =>
    have := b.isLt
    rw [wordOf, List.length_cons, Nat.mul_succ, Nat.pow_add]
    omega

/-- Up to three bytes, and zeros after them, are the low-order three bytes of their word. -/
theorem append_eq_bytes_of_word {bytes : List Byte} (h : bytes.length ≤ 3) : ∃ rest, bytes ++ rest =
    [BitVec.ofNat 8 (wordOf bytes), BitVec.ofNat 8 (wordOf bytes / 2 ^ 8), BitVec.ofNat 8 (wordOf bytes / 2 ^ 16)] := by
  have h16 : wordOf bytes / 2 ^ 16 = wordOf bytes.tail.tail := by
    rw [← wordOf_div, ← wordOf_div, Nat.div_div_eq_div_mul, ← Nat.pow_add]
  rw [h16, wordOf_div, ofNat_wordOf, ofNat_wordOf, ofNat_wordOf]
  match bytes, h with
  | [], _ => exact ⟨_, rfl⟩
  | [_], _ => exact ⟨_, rfl⟩
  | [_, _], _ => exact ⟨_, rfl⟩
  | [_, _, _], _ => exact ⟨[], rfl⟩

theorem length_le_three (i : Instr) : i.length ≤ 3 := by
  cases i <;> simp [Instr.length, encode, threeBytes]

end Sys2Proof.Says

namespace Sys2Proof.Steps

open Sys2Proof.Machine Sys2Proof.Says

/-- Settles O7: the three bytes placed decode to the instruction, and are there. -/
theorem placedInstructionRunsNext : Obligations.PlacedInstructionRunsNext := by
  intro s i _ hm u
  obtain ⟨c, e, hready⟩ := readyToFetch_eq s
  obtain ⟨rest, hbytes⟩ := append_eq_bytes_of_word (length_le_three i)
  have hdec := decode_encode i rest
  have hv : wordOf (encode i) % 2 ^ (8 * i.length) = wordOf (encode i) := Nat.mod_eq_of_lt (wordOf_lt _)
  have hu : u = placeThree s.readyToFetch s.pc (BitVec.ofNat 8 (wordOf (encode i)))
      (BitVec.ofNat 8 (wordOf (encode i) / 2 ^ 8)) (BitVec.ofNat 8 (wordOf (encode i) / 2 ^ 16)) := by
    show State.withFetchWord s _ _ = _
    rw [State.withFetchWord, hv]
    rfl
  rw [hbytes] at hdec
  have hf := fetches_readyToFetch s
  rw [hready] at hu hf
  rw [hu]
  exact ⟨fetches_placeThree _ _ _ _ hf, rfl, fetchInstr_placeThree (s := (s.setCtl c).setEnv e) _ _ _ hm hdec, rfl, rfl,
    rfl, fun x h0 h1 h2 => placeThree_byteAt_other _ _ _ _ h0 h1 h2⟩

end Sys2Proof.Steps
end

section
/-! Interrupts and the halt (60_exceptions.md): which source is recognised, what an entry leaves, what RET gives back
after it, and the steps of a halted machine. -/

namespace Sys2Proof.Says

open Sys2Proof.Machine

/-! ## Recognition (R277) -/

section
variable (s : State)

theorem recognisable_trap_iff : s.recognisable .trap = true ↔ s.ctl.trapReq = true := Iff.rfl

theorem maskableEnabled_iff : s.maskableEnabled = true ↔ s.ctl.ie = true ∧ s.ctl.eiShadow = false := by
  simp [State.maskableEnabled]

theorem recognisable_rst75_iff : s.recognisable .rst75 = true ↔
    (s.ctl.ie = true ∧ s.ctl.eiShadow = false) ∧ s.ctl.r75 = true ∧ s.ctl.m75 = false := by
  rw [State.recognisable, Bool.and_eq_true, maskableEnabled_iff, and_comm, Bool.and_eq_true, Bool.not_eq_true']

theorem recognisable_rst65_iff : s.recognisable .rst65 = true ↔
    (s.ctl.ie = true ∧ s.ctl.eiShadow = false) ∧ s.env.inputs.line65 = true ∧ s.ctl.m65 = false := by
  rw [State.recognisable, Bool.and_eq_true, maskableEnabled_iff, and_comm, Bool.and_eq_true, Bool.not_eq_true']

theorem recognisable_rst55_iff : s.recognisable .rst55 = true ↔
    (s.ctl.ie = true ∧ s.ctl.eiShadow = false) ∧ s.env.inputs.line55 = true ∧ s.ctl.m55 = false := by
  rw [State.recognisable, Bool.and_eq_true, maskableEnabled_iff, and_comm, Bool.and_eq_true, Bool.not_eq_true']

theorem recognisable_intr_iff (b : Byte) : s.recognisable (.intr b) = true ↔
    (s.ctl.ie = true ∧ s.ctl.eiShadow = false) ∧ s.env.inputs.intr = some b := by
  rw [State.recognisable, Bool.and_eq_true, maskableEnabled_iff, and_comm, decide_eq_true_eq]

end

/-! ## The entry (R280, R281) -/

/-- The state an interrupt entry leaves: the unadvanced `pc` pushed, `pc` at the restart address. -/
def entered (s : State) (src : IntSource) : State :=
  (pushed (s.setCtl (s.ctl.afterEntry src)) (high8 s.pc) (low8 s.pc)).setPc src.restartAddress

section
variable {s : State} {src : IntSource}

theorem interruptEntry_present (h1 : Present s (s.sp - 1)) (h2 : Present s (s.sp - 2)) :
    interruptEntry s src = .next (entered s src) := by
  rw [← sub_one_sub_one] at h2
  rw [entered, ← hiByte_eq_high8, ← loByte_eq_low8]
  exact callTo_present (s := s.setCtl (s.ctl.afterEntry src)) _ _ h1 h2

theorem entered_called (src : IntSource) (hm : Memory.wf s.mem = true) :
    Called (s.setCtl (s.ctl.afterEntry src)) (entered s src) s.pc src.restartAddress :=
  called_pushed s.pc src.restartAddress hm

theorem entered_regs : (entered s src).regs = s.regs := pushed_regs _ _ _
theorem entered_ctl : (entered s src).ctl = s.ctl.afterEntry src := pushed_ctl _ _ _
theorem entered_env : (entered s src).env = s.env := pushed_env _ _ _

theorem rstAddress_toNat (n : BitVec 3) : (rstAddress n).toNat = 8 * n.toNat := by
  rcases field3_cases n with h | h | h | h | h | h | h | h <;> subst h <;> rfl

/-- The restart address is the one in the table of R271; INTR's is that of RST n, 8n. -/
theorem restartAddress_toNat (src : IntSource) : src.restartAddress.toNat = restartOf src := by
  cases src with
  | trap | rst75 | rst65 | rst55 => rfl
  | intr b =>
    have hmid : (midField b).toNat = b.toNat / 8 % 8 := by
      simp [midField, Nat.shiftRight_eq_div_pow]
    rw [IntSource.restartAddress, rstAddress_toNat, restartOf, hmid]

theorem step_of_admitted (hr : s.env.inputs.reset = false) (hp : (sampleInterrupts s).pendingInterrupt = some src)
    (hadm : ∀ b, src = .intr b → AdmittedByte s.params b) :
    step s = andThen (interruptEntry (sampleInterrupts s) src) fun t => .next t.tick := by
  rw [step_of_pending hr hp, takeInterrupt_admitted (s := sampleInterrupts s) hadm]

theorem step_entered (hr : s.env.inputs.reset = false) (hp : (sampleInterrupts s).pendingInterrupt = some src)
    (hadm : ∀ b, src = .intr b → AdmittedByte s.params b) (h1 : Present s (s.sp - 1)) (h2 : Present s (s.sp - 2)) :
    step s = .next (entered (sampleInterrupts s) src).tick := by
  rw [step_of_admitted hr hp hadm, interruptEntry_present (s := sampleInterrupts s) h1 h2, andThen_next]

theorem stopsAt_interruptEntry_first (h : ¬ Present s (s.sp - 1)) : StopsAt (interruptEntry s src) (s.sp - 1) .write :=
  stopsAt_callTo_first (s := s.setCtl (s.ctl.afterEntry src)) _ _ h

theorem stopsAt_interruptEntry_second (h1 : Present s (s.sp - 1)) (h2 : ¬ Present s (s.sp - 2)) :
    StopsAt (interruptEntry s src) (s.sp - 2) .write :=
  stopsAt_callTo_second (s := s.setCtl (s.ctl.afterEntry src)) _ _ h1 h2

theorem StopsAt.andThen {o : Result State} {a : Word} {acc : Access} (h : StopsAt o a acc)
    (f : State → Result State) : StopsAt (andThen o f) a acc := by
  rw [StopsAt, h, andThen_fault]

end

/-! ## Popping what was pushed -/

/-- A state with the memory of a push and `sp` where the push left it pops the bytes pushed, with the stack in RAM. -/
theorem popBytes_of_pushed {s u : State} {hi lo : Byte} (hm : Memory.wf s.mem = true)
    (h1 : s.kindAt (s.sp - 1) = .ram) (h2 : s.kindAt (s.sp - 2) = .ram) (hmem : u.mem = (pushed s hi lo).mem)
    (hsp : u.sp = s.sp - 2) (hparams : u.params = s.params) : popBytes u = .next (hi, lo, u.setSp s.sp) := by
  have hkind x : u.kindAt x = s.kindAt x := congrArg (fun p : Params => kindIn p.memMap x) hparams
  have hbyte x : u.byteAt x = (pushed s hi lo).byteAt x := congrArg (Memory.lookup · x.toNat) hmem
  have hnext : u.sp + 1 = s.sp - 1 := by rw [hsp]; bv_omega
  have hback : u.sp + 1 + 1 = s.sp := by rw [hsp]; bv_omega
  have hhi : u.byteAt (u.sp + 1) = hi := by
    rw [hnext, hbyte, written_pushed_high hi lo hm, h1]
    rfl
  have hlo : u.byteAt u.sp = lo := by
    rw [hsp, hbyte, written_pushed_low hi lo hm, h2]
    rfl
  rw [popBytes_present (by rw [hsp, hkind, h2]; decide) (by rw [hnext, hkind, h1]; decide), hhi, hlo, hback]

/-! ## A quiet environment -/

theorem sampleInterrupts_of_quiet {s : State} (h : QuietEnv s) : sampleInterrupts s = s := by
  obtain ⟨-, -, htrap, h75⟩ := h
  rw [sampleInterrupts, htrap, h75, Bool.or_false, Bool.or_false]
  rfl

theorem run_succ {M : Host.Core} {s s' : M.State} (n : Nat) (h : M.step s = .next s') : M.run (n + 1) s = M.run n s' := by
  rw [Host.Core.run, h]

theorem held_of_quiet {i : Inputs} (hreset : i.reset = false) (htrap : i.trapRequest = false)
    (h75 : i.rst75Request = false) : i.held = i := by
  cases i
  cases hreset
  cases htrap
  cases h75
  rfl

theorem tick_of_quiet {s : State} (h : QuietEnv s) : s.tick = s := by
  obtain ⟨hscript, hreset, htrap, h75⟩ := h
  have henv : s.env.tick = s.env := by
    rw [Env.tick, hscript]
    dsimp only
    rw [held_of_quiet hreset htrap h75, ← hscript]
  rw [State.tick, henv]
  rfl

end Sys2Proof.Says

namespace Sys2Proof.Interrupts

open Sys2Proof.Machine Sys2Proof.Says

/-- Settles O17: the first source in the order of R278 that is recognisable. -/
theorem recognitionAndPriority : Obligations.RecognitionAndPriority := by
  intro s on q75 q65 q55
  have h75 : s.recognisable .rst75 = true ↔ q75 := recognisable_rst75_iff s
  have h65 : s.recognisable .rst65 = true ↔ q65 := recognisable_rst65_iff s
  have h55 : s.recognisable .rst55 = true ↔ q55 := recognisable_rst55_iff s
  have hintr b : s.recognisable (.intr b) = true ↔ on ∧ s.env.inputs.intr = some b := recognisable_intr_iff s b
  have htrap := recognisable_trap_iff s
  unfold State.pendingInterrupt
  simp only [h75, h65, h55, htrap, hintr]
  split_ifs with c1 c2 c3 c4
  · simp [*]
  · simp [*]
  · simp [*]
  · simp [*]
  · split
    · next b hb => split_ifs with hon <;> simp_all
    · next hnone => simp [*]

/-- Settles O18: the entry is a push of `pc` and a jump, with the control state it says. -/
theorem interruptEntrySavesPcAndGoesToTheRestartAddress :
    Obligations.InterruptEntrySavesPcAndGoesToTheRestartAddress := by
  intro s src hr hp hadm
  refine ⟨fun hm h1 h2 => ?_, fun h1 => ?_, fun h1 h2 => ?_⟩
  · obtain ⟨hpc, hsp, hhi, hlo, hkept, -, hflags, -, -, hparams⟩ :=
      entered_called (s := sampleInterrupts s) src hm
    have hctl : (entered (sampleInterrupts s) src).tick.ctl = (sampleInterrupts s).ctl.afterEntry src := entered_ctl
    have henv : (entered (sampleInterrupts s) src).tick.env = s.env.tick := congrArg Env.tick entered_env
    refine ⟨_, step_entered hr hp hadm h1 h2, (congrArg BitVec.toNat hpc).trans (restartAddress_toNat src), hsp, hhi, hlo,
      hkept, entered_regs, hflags, ?_⟩
    rw [hctl, henv, Env.tick_out, Env.tick_draws, afterEntry_r75, afterEntry_trapReq, sampleInterrupts_ctl_r75,
      sampleInterrupts_ctl_trapReq, Bool.or_eq_true, Bool.or_eq_true]
    exact ⟨rfl, rfl, rfl, Iff.rfl, Iff.rfl, rfl, rfl, rfl, rfl, rfl, rfl, hparams⟩
  · rw [step_of_admitted hr hp hadm]
    exact (stopsAt_interruptEntry_first (s := sampleInterrupts s) h1).andThen _
  · rw [step_of_admitted hr hp hadm]
    exact (stopsAt_interruptEntry_second (s := sampleInterrupts s) h1 h2).andThen _

/-- Settles O19: TRAP's latch alone makes it pending, above every other source. -/
theorem trapCannotBeDisabled : Obligations.TrapCannotBeDisabled := by
  intro s hr htrap h1 h2
  have hp : (sampleInterrupts s).pendingInterrupt = some .trap := by
    apply pendingInterrupt_trap
    rw [sampleInterrupts_ctl_trapReq, Bool.or_eq_true]
    exact htrap
  refine ⟨_, step_entered hr hp (fun b hb => (nomatch hb)) h1 h2, rfl, ?_⟩
  rw [State.tick_ctl, entered_ctl]
  exact ⟨rfl, rfl, rfl⟩

/-- Settles O20: such a byte is not admitted. -/
theorem otherIntrBytesAreRefused : Obligations.OtherIntrBytesAreRefused := by
  intro s b hr hp hb
  have hadm : ¬ AdmittedByte s.params b := by
    rintro ⟨hmem, hhigh, hlow⟩
    rcases hb with hb | hb | hb
    · exact hb hmem
    · exact hb hhigh
    · exact hb hlow
  rw [step_of_pending hr hp, takeInterrupt_refused (s := sampleInterrupts s) hadm, andThen_refused]

/-- Settles O25: RET pops the `pc` the entry pushed. -/
theorem retAfterInterruptEntryResumes : Obligations.RetAfterInterruptEntryResumes := by
  intro s u src hm h1 h2 hu
  obtain ⟨-, -, rfl⟩ := interruptEntry_eq_next hu
  have hpop : popBytes ((pushed (s.setCtl (s.ctl.afterEntry src)) (hiByte s.pc) (loByte s.pc)).setPc src.restartAddress) =
      .next (hiByte s.pc, loByte s.pc, _) :=
    popBytes_of_pushed (s := s.setCtl (s.ctl.afterEntry src)) hm h1 h2 rfl
      ((pushed_sp _ _ _).trans (sub_one_sub_one _)) (pushed_params _ _ _)
  rw [exec_ret, returnToCaller, hpop, andThen_next]
  exact ⟨_, rfl, word_of_bytes s.pc, rfl, pushed_regs _ _ _, pushed_flags _ _ _⟩

/-- Settles O23: the step is the sampling and the environment's clock. -/
theorem haltedStepChangesNothing : Obligations.HaltedStepChangesNothing := by
  intro s hr hf
  exact ⟨_, step_of_halted hr hf, rfl, rfl, rfl, rfl, fun _ => rfl, rfl, Env.tick_out _, Env.tick_draws _, rfl⟩

/-- Settles O24: a halted step in a quiet environment is the identity. -/
theorem haltedRunIsFinal : Obligations.HaltedRunIsFinal := by
  intro s n hq hf
  have hstep : core.step s = .next s := by
    show step s = .next s
    rw [step_of_halted hq.2.1 hf, sampleInterrupts_of_quiet hq, tick_of_quiet hq]
  induction n with
  | zero => rfl
  | succ n ih => exact (run_succ n hstep).trans ih

end Sys2Proof.Interrupts
end

section
/-! Arithmetic (41_arithmetic.md): the addition and subtraction laws, INR and DCR, pairs, DAD and DAA in the statements'
terms, then what each instruction of the family does, then the statements. -/

namespace Sys2Proof.Says

open Sys2Proof.Machine

/-! ## The addition and subtraction laws (R141, R142) -/

theorem reflectsZSP_aluFlags (o : AluOut) (f : Flags) : ReflectsZSP (o.flags f) o.res := reflectsZSP_setZSP f o.res

section
variable (a b : Byte) (cin : Bool)

theorem add8_res : (add8 a b cin).res.toNat = (a.toNat + b.toNat + cin.toNat) % 256 := BitVec.toNat_ofNat _ _

theorem add8_cy : (add8 a b cin).cy = true ↔ 256 ≤ a.toNat + b.toNat + cin.toNat := decide_eq_true_iff

theorem add8_ac : (add8 a b cin).ac = true ↔ 16 ≤ a.toNat % 16 + b.toNat % 16 + cin.toNat := decide_eq_true_iff

theorem sub8_res (nibble0 : Bool) : ((sub8 nibble0 a b cin).res.toNat + b.toNat + cin.toNat) % 256 = a.toNat := by
  have := a.isLt
  have := b.isLt
  have := cin.toNat_le
  simp only [sub8, BitVec.toNat_ofNat]
  omega

/-- AC is the carry out of bit D3 of the two's complement addition, or the platform's bit where the nibble is 0 (D3). -/
theorem differenceFlags_sub8 (p : Params) (f : Flags) :
    DifferenceFlags p ((sub8 p.acSubNibble0 a b cin).flags f) a b cin (sub8 p.acSubNibble0 a b cin).res := by
  refine ⟨reflectsZSP_aluFlags _ _, decide_eq_true_iff, ?_⟩
  show if _ then (sub8 p.acSubNibble0 a b cin).ac = _ else ((sub8 p.acSubNibble0 a b cin).ac = true ↔ _)
  have := b.isLt
  have := cin.toNat_le
  simp only [sub8]
  cases cin with
  | false =>
    simp only [Bool.toNat_false, Nat.add_zero, and_true]
    split
    · rfl
    · rw [decide_eq_true_iff]
      omega
  | true =>
    simp only [Bool.toNat_true, Bool.true_eq_false, and_false, if_false, decide_eq_true_iff]
    omega

end

section
variable {s : State} {i : Instr} {n : Nat} {v : Byte} {cin : Bool}

/-- An instruction that ends in `addToA` adds. -/
theorem adds_addToA (hexec : exec i s = .next ((s.addToA v cin).advance n)) : Adds i n s v cin :=
  ⟨_, hexec, add8_res _ _ _, reflectsZSP_aluFlags _ _, add8_cy _ _ _, add8_ac _ _ _, rfl, keptBut_setA_setFlags s _ _ n⟩

/-- An instruction that ends in `subFromA` subtracts. -/
theorem subtracts_subFromA (hexec : exec i s = .next ((s.subFromA v cin).advance n)) : Subtracts i n s v cin :=
  ⟨_, hexec, sub8_res _ _ _ s.params.acSubNibble0, differenceFlags_sub8 _ _ _ _ _, rfl, keptBut_setA_setFlags s _ _ n⟩

/-- An instruction that ends in `compareA` compares: the difference is formed and dropped. -/
theorem compares_compareA (hexec : exec i s = .next ((s.compareA v).advance n)) : Compares i n s v :=
  ⟨_, hexec, ⟨_, (sub8_res s.regs.a v false s.params.acSubNibble0 :), differenceFlags_sub8 _ _ _ _ _⟩, rfl,
    ((KeptBut.refl s []).setFlags _).advance n⟩

end

/-! ## INR and DCR (R152, R153) -/

section
variable (v : Byte) (f : Flags)

theorem incResult_toNat : (incResult v).toNat = (v.toNat + 1) % 256 := BitVec.toNat_ofNat _ _

theorem decResult_toNat : ((decResult v).toNat + 1) % 256 = v.toNat := by
  have := v.isLt
  rw [decResult, BitVec.toNat_ofNat]
  omega

theorem stepFlags_inc : StepFlags f (f.inc v) (incResult v) (v.toNat % 16 = 15) :=
  ⟨reflectsZSP_setZSP f _, decide_eq_true_iff, rfl⟩

theorem stepFlags_dec : StepFlags f (f.dec v) (decResult v) (v.toNat % 16 ≠ 0) :=
  ⟨reflectsZSP_setZSP f _, decide_eq_true_iff, rfl⟩

end

/-! ## DAA (R157) -/

/-- What DAA adds to A: 6 for the low nibble, 60H for the high one. -/
def daaAdjust (a : Byte) (ac cy : Bool) : Nat :=
  (if a.toNat % 16 > 9 ∨ ac = true then 0x06 else 0) + if a.toNat > 0x99 ∨ cy = true then 0x60 else 0

section
variable (a : Byte) (ac cy : Bool)

/-- The high-order step, taken on the value after the low-order one, is taken where A itself is over 99H. -/
theorem daa8_cy : (daa8 a ac cy).cy = true ↔ a.toNat > 0x99 ∨ cy = true := by
  have := a.isLt
  simp only [daa8, Bool.or_eq_true, decide_eq_true_eq]
  cases cy <;> split_ifs <;> simp <;> omega

theorem daa8_res : (daa8 a ac cy).res.toNat = (a.toNat + daaAdjust a ac cy) % 256 := by
  have hhigh := daa8_cy a ac cy
  simp only [daa8, daaAdjust, ← hhigh, BitVec.toNat_ofNat, Bool.or_eq_true, decide_eq_true_eq]
  split_ifs <;> omega

theorem daa8_ac : (daa8 a ac cy).ac = true ↔ 16 ≤ a.toNat % 16 + daaAdjust a ac cy % 16 := by
  simp only [daa8, daaAdjust, Bool.and_eq_true, Bool.or_eq_true, decide_eq_true_eq]
  split_ifs with h <;> simp [h] <;> omega

end

/-! ## Packed BCD (R157) -/

/-- Digit by digit: `u` is the sum of the units, `d` that of the tens with the carry of the units. -/
theorem daaAdjust_digits {dx ux dy uy c : Nat} (hdx : dx < 10) (hux : ux < 10) (hdy : dy < 10) (huy : uy < 10) (hc : c ≤ 1)
    {a : Byte} {ac cy : Bool} (ha : a.toNat = (dx * 16 + ux + (dy * 16 + uy) + c) % 256)
    (hac : ac = true ↔ 16 ≤ ux + uy + c) (hcy : cy = true ↔ 256 ≤ dx * 16 + ux + (dy * 16 + uy) + c) :
    (a.toNat + daaAdjust a ac cy) % 256 = (dx + dy + (ux + uy + c) / 10) % 10 * 16 + (ux + uy + c) % 10 ∧
      (a.toNat > 0x99 ∨ cy = true ↔ 10 ≤ dx + dy + (ux + uy + c) / 10) := by
  simp only [daaAdjust, hac, hcy]
  have hcarry : (ux + uy + c) / 10 = if 10 ≤ ux + uy + c then 1 else 0 := by split_ifs <;> omega
  have hlow : (a.toNat % 16 > 9 ∨ 16 ≤ ux + uy + c) ↔ 10 ≤ ux + uy + c := by omega
  have hhigh : (a.toNat > 0x99 ∨ 256 ≤ dx * 16 + ux + (dy * 16 + uy) + c) ↔ 10 ≤ dx + dy + (ux + uy + c) / 10 := by
    rw [hcarry]
    split_ifs <;> omega
  simp only [hlow, hhigh, hcarry, and_true]
  split_ifs <;> omega

theorem bcd_toNat {n : Nat} (h : n < 100) : (bcd n).toNat = n / 10 * 16 + n % 10 := by
  rw [bcd, BitVec.toNat_ofNat]
  omega

/-- After an addition of packed BCD bytes DAA gives the packed BCD of the sum, the hundreds in the carry. -/
theorem daa8_after_adding_bcd {x y : Nat} {a : Byte} {ac cy cin : Bool} (hx : x < 100) (hy : y < 100)
    (ha : a.toNat = ((bcd x).toNat + (bcd y).toNat + cin.toNat) % 256)
    (hac : ac = true ↔ 16 ≤ (bcd x).toNat % 16 + (bcd y).toNat % 16 + cin.toNat)
    (hcy : cy = true ↔ 256 ≤ (bcd x).toNat + (bcd y).toNat + cin.toNat) :
    (daa8 a ac cy).res = bcd ((x + y + cin.toNat) % 100) ∧ ((daa8 a ac cy).cy = true ↔ 100 ≤ x + y + cin.toNat) := by
  have hcin := cin.toNat_le
  rw [bcd_toNat hx, bcd_toNat hy] at ha hac hcy
  have hunits : 16 ≤ (x / 10 * 16 + x % 10) % 16 + (y / 10 * 16 + y % 10) % 16 + cin.toNat ↔
      16 ≤ x % 10 + y % 10 + cin.toNat := by omega
  obtain ⟨hres, hhundreds⟩ := daaAdjust_digits (by omega) (by omega) (by omega) (by omega) hcin ha (hac.trans hunits) hcy
  have htens : x / 10 + y / 10 + (x % 10 + y % 10 + cin.toNat) / 10 = (x + y + cin.toNat) / 10 := by omega
  rw [htens] at hres hhundreds
  constructor
  · apply BitVec.eq_of_toNat_eq
    rw [daa8_res, hres, bcd_toNat (by omega)]
    omega
  · rw [daa8_cy, hhundreds]
    omega

/-! ## Register pairs (R154 to R156) -/

theorem pairSP_setPairSP (s : State) (p : PairSP) (v : Word) : (s.setPairSP p v).pairSP p = v := by
  cases p with
  | bc | de | hl => exact word_of_bytes v
  | sp => rfl

theorem advance_pairSP (s : State) (n : Nat) (p : PairSP) : (s.advance n).pairSP p = s.pairSP p := rfl

/-- What a pair write leaves alone, SP as well as a register pair. -/
theorem setPairSP_frame (s : State) (p : PairSP) (v : Word) :
    (s.setPairSP p v).flags = s.flags ∧ (s.setPairSP p v).pc = s.pc ∧ MemKept s (s.setPairSP p v) ∧
      RestKept s (s.setPairSP p v) ∧ (p ≠ .sp → (s.setPairSP p v).sp = s.sp) ∧
      RegsKeptBut s (s.setPairSP p v) (pairSPRegs p) := by
  have hreg (hp : p ≠ .sp) := keptBut_setPairSP s hp v
  cases p with
  | bc | de | hl => exact ⟨rfl, rfl, fun _ => rfl, ⟨rfl, rfl, rfl⟩, fun _ => rfl, (hreg (by decide)).1⟩
  | sp => exact ⟨rfl, rfl, fun _ => rfl, ⟨rfl, rfl, rfl⟩, fun h => absurd rfl h, fun _ _ => rfl⟩

theorem dadSum_toNat (v w : Word) : (dadSum v w).toNat = (v.toNat + w.toNat) % 65536 := BitVec.toNat_ofNat _ _

theorem dadCarry_iff (v w : Word) : dadCarry v w = true ↔ 65536 ≤ v.toNat + w.toNat := decide_eq_true_iff

/-! ## What each instruction of the family does, by the shared operations -/

section
variable (s : State)

theorem exec_addR (r : Reg) : exec (.addR r) s = .next ((s.addToA (s.reg r) false).advance 1) := rfl
theorem exec_adcR (r : Reg) : exec (.adcR r) s = .next ((s.addToA (s.reg r) s.flags.cy).advance 1) := rfl
theorem exec_adi (v : Byte) : exec (.adi v) s = .next ((s.addToA v false).advance 2) := rfl
theorem exec_aci (v : Byte) : exec (.aci v) s = .next ((s.addToA v s.flags.cy).advance 2) := rfl
theorem exec_addM : exec .addM s = withM s fun v => .next ((s.addToA v false).advance 1) := rfl
theorem exec_adcM : exec .adcM s = withM s fun v => .next ((s.addToA v s.flags.cy).advance 1) := rfl

theorem exec_subR (r : Reg) : exec (.subR r) s = .next ((s.subFromA (s.reg r) false).advance 1) := rfl
theorem exec_sbbR (r : Reg) : exec (.sbbR r) s = .next ((s.subFromA (s.reg r) s.flags.cy).advance 1) := rfl
theorem exec_sui (v : Byte) : exec (.sui v) s = .next ((s.subFromA v false).advance 2) := rfl
theorem exec_sbi (v : Byte) : exec (.sbi v) s = .next ((s.subFromA v s.flags.cy).advance 2) := rfl
theorem exec_subM : exec .subM s = withM s fun v => .next ((s.subFromA v false).advance 1) := rfl
theorem exec_sbbM : exec .sbbM s = withM s fun v => .next ((s.subFromA v s.flags.cy).advance 1) := rfl

theorem exec_cmpR (r : Reg) : exec (.cmpR r) s = .next ((s.compareA (s.reg r)).advance 1) := rfl
theorem exec_cpi (v : Byte) : exec (.cpi v) s = .next ((s.compareA v).advance 2) := rfl
theorem exec_cmpM : exec .cmpM s = withM s fun v => .next ((s.compareA v).advance 1) := rfl

theorem exec_inrR (r : Reg) :
    exec (.inrR r) s = .next (((s.setReg r (incResult (s.reg r))).setFlags (s.flags.inc (s.reg r))).advance 1) := rfl
theorem exec_dcrR (r : Reg) :
    exec (.dcrR r) s = .next (((s.setReg r (decResult (s.reg r))).setFlags (s.flags.dec (s.reg r))).advance 1) := rfl
theorem exec_inrM : exec .inrM s = withM s fun v =>
    andThen (memWrite s s.hl (incResult v)) fun s1 => .next ((s1.setFlags (s.flags.inc v)).advance 1) := rfl
theorem exec_dcrM : exec .dcrM s = withM s fun v =>
    andThen (memWrite s s.hl (decResult v)) fun s1 => .next ((s1.setFlags (s.flags.dec v)).advance 1) := rfl

theorem exec_inx (p : PairSP) : exec (.inx p) s = .next ((s.setPairSP p (s.pairSP p + 1)).advance 1) := rfl
theorem exec_dcx (p : PairSP) : exec (.dcx p) s = .next ((s.setPairSP p (s.pairSP p - 1)).advance 1) := rfl
theorem exec_dad (p : PairSP) : exec (.dad p) s = .next (((s.setPairSP .hl (dadSum s.hl (s.pairSP p))).setFlags
    (s.flags.setCy (dadCarry s.hl (s.pairSP p)))).advance 1) := rfl

theorem exec_daa : exec .daa s = .next (((s.setReg .a (daa8 s.regs.a s.flags.ac s.flags.cy).res).setFlags
    ((daa8 s.regs.a s.flags.ac s.flags.cy).flags s.flags)).advance 1) := rfl

end

/-- A register stepped by one: its new value and flags, everything else kept. -/
theorem setReg_setFlags_frame (s : State) (r : Reg) (v : Byte) (f : Flags) :
    (((s.setReg r v).setFlags f).advance 1).reg r = v ∧ KeptBut s (((s.setReg r v).setFlags f).advance 1) [r] :=
  ⟨Regs.get_set_self _ _ _, (((KeptBut.refl s [r]).setReg r v (List.mem_singleton_self r)).setFlags f).advance 1⟩

/-- INR M and DCR M: the byte at HL is read, its successor `res` written back, the flags set (R152, R153). -/
theorem stepsM {s : State} {res : Byte} {f : Flags} (hm : Memory.wf s.mem = true) (h : Present s s.hl) :
    ∃ t, andThen (memWrite s s.hl res) (fun s1 => .next ((s1.setFlags f).advance 1)) = .next t ∧ Written s t s.hl res ∧
      t.flags = f ∧ MemKeptBut s t [s.hl] ∧ t.pc = s.pc + 1 ∧ RegsKeptBut s t [] ∧ t.sp = s.sp ∧ RestKept s t := by
  obtain ⟨-, hpc, hregs, hsp, hrest⟩ := ((OnlyMem.refl s).stored s.hl res).advance_frame 1
  rw [memWrite_present res h, andThen_next]
  exact ⟨_, rfl, written_stored res hm, rfl, memKeptBut_stored res, hpc, hregs, hsp, hrest⟩

end Sys2Proof.Says

namespace Sys2Proof.Arithmetic

open Sys2Proof.Machine Sys2Proof.Says

/-- Settles O36: every form ends in `addToA`, the M forms once the byte at HL is read. -/
theorem addFamilyAdds : Obligations.AddFamilyAdds := by
  intro s
  refine ⟨fun r => ⟨adds_addToA (exec_addR s r), adds_addToA (exec_adcR s r)⟩,
    fun v => ⟨adds_addToA (exec_adi s v), adds_addToA (exec_aci s v)⟩, fun hp => ?_, fun hn => ?_⟩
  · exact ⟨adds_addToA ((exec_addM s).trans (withM_present _ hp)), adds_addToA ((exec_adcM s).trans (withM_present _ hp))⟩
  · rw [exec_addM, exec_adcM]
    exact ⟨stopsAt_withM hn, stopsAt_withM hn⟩

/-- Settles O37: every form ends in `subFromA`. -/
theorem subtractFamilySubtracts : Obligations.SubtractFamilySubtracts := by
  intro s
  refine ⟨fun r => ⟨subtracts_subFromA (exec_subR s r), subtracts_subFromA (exec_sbbR s r)⟩,
    fun v => ⟨subtracts_subFromA (exec_sui s v), subtracts_subFromA (exec_sbi s v)⟩, fun hp => ?_, fun hn => ?_⟩
  · exact ⟨subtracts_subFromA ((exec_subM s).trans (withM_present _ hp)),
      subtracts_subFromA ((exec_sbbM s).trans (withM_present _ hp))⟩
  · rw [exec_subM, exec_sbbM]
    exact ⟨stopsAt_withM hn, stopsAt_withM hn⟩

/-- Settles O38: every form ends in `compareA`. -/
theorem compareFamilySetsFlagsOnly : Obligations.CompareFamilySetsFlagsOnly := by
  intro s
  refine ⟨fun r => compares_compareA (exec_cmpR s r), fun v => compares_compareA (exec_cpi s v), fun hp => ?_, fun hn => ?_⟩
  · exact compares_compareA ((exec_cmpM s).trans (withM_present _ hp))
  · rw [exec_cmpM]
    exact stopsAt_withM hn

/-- Settles O39: one register write and the flags of its result. -/
theorem inrAndDcrOfARegister : Obligations.InrAndDcrOfARegister := by
  intro r s
  obtain ⟨hinc, hinckept⟩ := setReg_setFlags_frame s r (incResult (s.reg r)) (s.flags.inc (s.reg r))
  obtain ⟨hdec, hdeckept⟩ := setReg_setFlags_frame s r (decResult (s.reg r)) (s.flags.dec (s.reg r))
  refine ⟨⟨_, exec_inrR s r, ?_, ?_, rfl, hinckept⟩, ⟨_, exec_dcrR s r, ?_, ?_, rfl, hdeckept⟩⟩
  · rw [hinc]
    exact incResult_toNat _
  · rw [hinc]
    exact stepFlags_inc _ _
  · rw [hdec]
    exact decResult_toNat _
  · rw [hdec]
    exact stepFlags_dec _ _

/-- Settles O40: a read and a store at the same address, and the flags of the byte stored. -/
theorem inrAndDcrOfMemory : Obligations.InrAndDcrOfMemory := by
  intro s hm
  rw [exec_inrM, exec_dcrM]
  refine ⟨fun hp => ⟨?_, ?_⟩, fun hn => ⟨stopsAt_withM hn, stopsAt_withM hn⟩⟩
  · obtain ⟨t, hexec, hwritten, hflags, hrest⟩ := stepsM hm hp
    exact ⟨t, _, (withM_present _ hp).trans hexec, incResult_toNat _, hwritten, hflags ▸ stepFlags_inc _ _, hrest⟩
  · obtain ⟨t, hexec, hwritten, hflags, hrest⟩ := stepsM hm hp
    exact ⟨t, _, (withM_present _ hp).trans hexec, decResult_toNat _, hwritten, hflags ▸ stepFlags_dec _ _, hrest⟩

/-- Settles O41: a pair write gives the word written, and 16-bit arithmetic wraps. -/
theorem inxAndDcxCountAPair : Obligations.InxAndDcxCountAPair := by
  intro s p
  obtain ⟨hincflags, hincpc, hincmem, hincrest, hincsp, hincregs⟩ := setPairSP_frame s p (s.pairSP p + 1)
  obtain ⟨hdecflags, hdecpc, hdecmem, hdecrest, hdecsp, hdecregs⟩ := setPairSP_frame s p (s.pairSP p - 1)
  refine ⟨_, _, exec_inx s p, exec_dcx s p, ?_, ?_, hincflags, hdecflags, congrArg (· + 1) hincpc, congrArg (· + 1) hdecpc,
    hincmem, hdecmem, hincrest, hdecrest, fun hp => ⟨hincsp hp, hdecsp hp⟩, ?_⟩
  · rw [advance_pairSP, pairSP_setPairSP, BitVec.toNat_add]
    rfl
  · rw [advance_pairSP, pairSP_setPairSP]
    bv_omega
  · cases p with
    | bc | de | hl | sp => exact ⟨hincregs, hdecregs⟩

/-- Settles O42: a write of HL and of CY. -/
theorem dadAddsToHl : Obligations.DadAddsToHl := by
  intro p s
  refine ⟨_, exec_dad s p, ?_, dadCarry_iff _ _, keptButCy_setCy _ _, rfl,
    ((keptBut_setPairSP s (p := .hl) (by decide) _).setFlags _).advance 1⟩
  exact (congrArg BitVec.toNat (pairSP_setPairSP s .hl _)).trans (dadSum_toNat _ _)

/-- Settles O43: the two steps of DAA are one addition of `daaAdjust`. -/
theorem daaAddsTheAdjustment : Obligations.DaaAddsTheAdjustment := by
  intro s a low high
  refine ⟨_, daaAdjust s.regs.a s.flags.ac s.flags.cy, exec_daa s, ?_, ?_, ?_, ?_, daa8_res _ _ _, reflectsZSP_aluFlags _ _,
    daa8_cy _ _ _, daa8_ac _ _ _, rfl, keptBut_setA_setFlags s _ _ 1⟩
  · intro hl hh
    rw [daaAdjust, if_pos hl, if_pos hh]
  · intro hl hh
    rw [daaAdjust, if_pos hl, if_neg hh]
  · intro hl hh
    rw [daaAdjust, if_neg hl, if_pos hh]
  · intro hl hh
    rw [daaAdjust, if_neg hl, if_neg hh]

/-- Settles O44, by the digits of the two numbers. -/
theorem daaAfterAddingBcdGivesTheDecimalSum : Obligations.DaaAfterAddingBcdGivesTheDecimalSum := by
  intro s x y hx hy ha
  have hdaa {i : Instr} {cin : Bool} (hi : Adds i 2 s (bcd y) cin) : ∃ t u, exec i s = .next t ∧ exec .daa t = .next u ∧
      u.regs.a = bcd ((x + y + cin.toNat) % 100) ∧ (u.flags.cy = true ↔ 100 ≤ x + y + cin.toNat) := by
    obtain ⟨t, ht, hsum, -, hcy, hac, -⟩ := hi
    rw [ha] at hsum hcy hac
    exact ⟨t, _, ht, exec_daa t, daa8_after_adding_bcd hx hy hsum hac hcy⟩
  have hadi := hdaa (adds_addToA (exec_adi s (bcd y)))
  rw [Bool.toNat_false, Nat.add_zero] at hadi
  exact ⟨hadi, hdaa (adds_addToA (exec_aci s (bcd y)))⟩

end Sys2Proof.Arithmetic
end

section
/-! Stack, input/output and machine control (44_stack_io_control.md), and RST (43_branch.md): the bits of the flag byte
and of RIM's byte, what PUSH, POP and XTHL leave alone, then the statements. -/

namespace Sys2Proof.Says

open Sys2Proof.Machine

/-! ## The flag byte and RIM's byte, bit by bit (R25, R36) -/

/-- A byte written bit by bit, D7 first. -/
def byteOfBits (b7 b6 b5 b4 b3 b2 b1 b0 : Bool) : Byte :=
  BitVec.ofBool b7 ++ BitVec.ofBool b6 ++ BitVec.ofBool b5 ++ BitVec.ofBool b4 ++ BitVec.ofBool b3 ++ BitVec.ofBool b2 ++
    BitVec.ofBool b1 ++ BitVec.ofBool b0

theorem byteOfBits_getLsbD (b7 b6 b5 b4 b3 b2 b1 b0 : Bool) :
    (byteOfBits b7 b6 b5 b4 b3 b2 b1 b0).getLsbD 7 = b7 ∧ (byteOfBits b7 b6 b5 b4 b3 b2 b1 b0).getLsbD 6 = b6 ∧
    (byteOfBits b7 b6 b5 b4 b3 b2 b1 b0).getLsbD 5 = b5 ∧ (byteOfBits b7 b6 b5 b4 b3 b2 b1 b0).getLsbD 4 = b4 ∧
    (byteOfBits b7 b6 b5 b4 b3 b2 b1 b0).getLsbD 3 = b3 ∧ (byteOfBits b7 b6 b5 b4 b3 b2 b1 b0).getLsbD 2 = b2 ∧
    (byteOfBits b7 b6 b5 b4 b3 b2 b1 b0).getLsbD 1 = b1 ∧ (byteOfBits b7 b6 b5 b4 b3 b2 b1 b0).getLsbD 0 = b0 := by
  revert b7 b6 b5 b4 b3 b2 b1 b0
  decide

theorem flagByte_getLsbD (f : Flags) (fill : BitVec 3) :
    (flagByte f fill).getLsbD 7 = f.s ∧ (flagByte f fill).getLsbD 6 = f.z ∧
    (flagByte f fill).getLsbD 5 = fill.getLsbD 2 ∧ (flagByte f fill).getLsbD 4 = f.ac ∧
    (flagByte f fill).getLsbD 3 = fill.getLsbD 1 ∧ (flagByte f fill).getLsbD 2 = f.p ∧
    (flagByte f fill).getLsbD 1 = fill.getLsbD 0 ∧ (flagByte f fill).getLsbD 0 = f.cy :=
  byteOfBits_getLsbD _ _ _ _ _ _ _ _

theorem rimByte_getLsbD (s : State) (sid : Bool) :
    (s.rimByte sid).getLsbD 7 = sid ∧ (s.rimByte sid).getLsbD 6 = s.ctl.r75 ∧
    (s.rimByte sid).getLsbD 5 = s.env.inputs.line65 ∧ (s.rimByte sid).getLsbD 4 = s.env.inputs.line55 ∧
    (s.rimByte sid).getLsbD 3 = s.ctl.ie ∧ (s.rimByte sid).getLsbD 2 = s.ctl.m75 ∧
    (s.rimByte sid).getLsbD 1 = s.ctl.m65 ∧ (s.rimByte sid).getLsbD 0 = s.ctl.m55 :=
  byteOfBits_getLsbD _ _ _ _ _ _ _ _

/-- POP PSW reads back the five flags PUSH PSW wrote, whatever fills the other bits. -/
theorem flagsOfByte_flagByte (f : Flags) (fill : BitVec 3) : flagsOfByte (flagByte f fill) = f := by
  obtain ⟨h7, h6, -, h4, -, h2, -, h0⟩ := flagByte_getLsbD f fill
  rw [flagsOfByte, h7, h6, h4, h2, h0]

@[simp] theorem advance_byteAt (s : State) (n : Nat) (x : Word) : (s.advance n).byteAt x = s.byteAt x := rfl
@[simp] theorem setReg_byteAt (s : State) (r : Reg) (v : Byte) (x : Word) : (s.setReg r v).byteAt x = s.byteAt x := rfl

/-! ## RST (R229) -/

theorem exec_rst (n : BitVec 3) (s : State) :
    exec (.rst n) s = callTo s (s.nextPc 1) (BitVec.ofNat 16 (8 * n.toNat)) := by
  have htarget : rstAddress n = BitVec.ofNat 16 (8 * n.toNat) := by
    rw [← rstAddress_toNat, BitVec.ofNat_toNat, BitVec.setWidth_eq]
  rw [← htarget]
  rfl

/-! ## PUSH and POP (R240, R241) -/

/-- The environment after PUSH: PUSH PSW draws the open bits where the platform names none (D2). -/
def pushEnv (s : State) (p : PairPSW) : Env :=
  { s.env with draws := s.env.draws + if p = .psw ∧ s.params.pswFill = none then 1 else 0 }

/-- The state PUSH leaves. -/
def pushedPair (s : State) (p : PairPSW) : State :=
  ((pushed s (s.pushPair p).1 (s.pushPair p).2).setEnv (pushEnv s p)).advance 1

section
variable (s : State) (p : PairPSW)

@[simp] theorem pushedPair_regs : (pushedPair s p).regs = s.regs := by simp [pushedPair]
@[simp] theorem pushedPair_flags : (pushedPair s p).flags = s.flags := by simp [pushedPair]
@[simp] theorem pushedPair_pc : (pushedPair s p).pc = s.pc + 1 := by simp [pushedPair, State.nextPc]
@[simp] theorem pushedPair_sp : (pushedPair s p).sp = s.sp - 2 := by
  rw [pushedPair, State.advance_sp, State.setEnv_sp, pushed_sp, sub_one_sub_one]
@[simp] theorem pushedPair_ctl : (pushedPair s p).ctl = s.ctl := by simp [pushedPair]
@[simp] theorem pushedPair_env : (pushedPair s p).env = pushEnv s p := by simp [pushedPair]
@[simp] theorem pushedPair_params : (pushedPair s p).params = s.params := by simp [pushedPair]
@[simp] theorem pushedPair_mem : (pushedPair s p).mem = (pushed s (s.pushPair p).1 (s.pushPair p).2).mem := by
  simp [pushedPair]
@[simp] theorem pushedPair_byteAt (x : Word) :
    (pushedPair s p).byteAt x = (pushed s (s.pushPair p).1 (s.pushPair p).2).byteAt x := by simp [pushedPair]

end

section
variable {s : State} (p : PairPSW)

theorem afterFill_if_psw (s : State) : (if p = .psw then s.afterFill else s) = s.setEnv (pushEnv s p) := by
  by_cases hdraw : p = .psw ∧ s.params.pswFill = none
  · rw [if_pos hdraw.1, State.afterFill, if_pos hdraw.2, pushEnv, if_pos hdraw]
    rfl
  · have hsame : s.setEnv (pushEnv s p) = s := by
      rw [pushEnv, if_neg hdraw]
      rfl
    rw [hsame]
    split
    · next hp => exact if_neg fun hf => hdraw ⟨hp, hf⟩
    · rfl

theorem exec_push (s : State) : exec (.push p) s = andThen (pushBytes s (s.pushPair p).1 (s.pushPair p).2) fun s1 =>
    .next ((s1.setEnv (pushEnv s1 p)).advance 1) := by
  show execPush p s = _
  simp only [execPush, afterFill_if_psw]

theorem pushEnv_pushed (s : State) (hi lo : Byte) : pushEnv (pushed s hi lo) p = pushEnv s p := by
  simp only [pushEnv, pushed_env, pushed_params]

theorem exec_push_present (h1 : Present s (s.sp - 1)) (h2 : Present s (s.sp - 2)) :
    exec (.push p) s = .next (pushedPair s p) := by
  rw [← sub_one_sub_one] at h2
  rw [exec_push, pushBytes_present _ _ h1 h2, andThen_next, pushEnv_pushed]
  rfl

theorem stopsAt_push_first (h : ¬ Present s (s.sp - 1)) : StopsAt (exec (.push p) s) (s.sp - 1) .write := by
  rw [StopsAt, exec_push, pushBytes_absent_first _ _ (not_present_iff.1 h), andThen_fault]

theorem stopsAt_push_second (h1 : Present s (s.sp - 1)) (h2 : ¬ Present s (s.sp - 2)) :
    StopsAt (exec (.push p) s) (s.sp - 2) .write := by
  rw [← sub_one_sub_one] at h2 ⊢
  rw [StopsAt, exec_push, pushBytes_absent_second _ _ h1 (not_present_iff.1 h2), andThen_fault]

theorem exec_pop (s : State) :
    exec (.pop p) s = andThen (popBytes s) fun r => .next ((r.2.2.popPair p r.1 r.2.1).advance 1) := rfl

theorem popPair_frame (s : State) (hi lo : Byte) : (s.popPair p hi lo).sp = s.sp ∧ MemKept s (s.popPair p hi lo) ∧
    RegsKeptBut s (s.popPair p hi lo) (pairRegs p) ∧ (s.popPair p hi lo).pc = s.pc ∧ RestKept s (s.popPair p hi lo) ∧
    (p ≠ .psw → (s.popPair p hi lo).flags = s.flags) := by
  have hregs : RegsKeptBut s (s.popPair p hi lo) (pairRegs p) := by
    cases p with
    | bc => exact (((KeptBut.refl s [.b, .c]).setReg .b hi (by decide)).setReg .c lo (by decide)).1
    | de => exact (((KeptBut.refl s [.d, .e]).setReg .d hi (by decide)).setReg .e lo (by decide)).1
    | hl => exact (((KeptBut.refl s [.h, .l]).setReg .h hi (by decide)).setReg .l lo (by decide)).1
    | psw => exact ((KeptBut.refl s [.a]).setReg .a hi (by decide)).1
  refine ⟨?_, fun x => ?_, hregs, ?_, ⟨popPair_ctl _ _ _ _, popPair_env _ _ _ _, popPair_params _ _ _ _⟩, fun hp => ?_⟩
  · cases p <;> rfl
  · exact congrArg (Memory.lookup · x.toNat) (popPair_mem s p hi lo)
  · cases p <;> rfl
  · cases p with
    | bc | de | hl => rfl
    | psw => exact absurd rfl hp

/-- Popping the bytes a push of the same pair wrote restores what they were read from. -/
theorem popPair_pushPair {s t : State} (hregs : t.regs = s.regs) (hflags : t.flags = s.flags) :
    (t.popPair p (s.pushPair p).1 (s.pushPair p).2).regs = s.regs ∧
      (t.popPair p (s.pushPair p).1 (s.pushPair p).2).flags = s.flags := by
  cases p with
  | bc | de | hl => exact ⟨by simp only [State.popPair, State.pushPair, State.setRegs_regs, hregs], hflags⟩
  | psw => exact ⟨by simp only [State.popPair, State.pushPair, State.setFlags_regs, State.setReg_regs, hregs, Regs.set],
      flagsOfByte_flagByte _ _⟩

theorem exec_pop_present (h1 : Present s s.sp) (h2 : Present s (s.sp + 1)) : exec (.pop p) s =
    .next (((s.setSp (s.sp + 1 + 1)).popPair p (s.byteAt (s.sp + 1)) (s.byteAt s.sp)).advance 1) := by
  rw [exec_pop, popBytes_present h1 h2, andThen_next]

/-! ## XTHL (R242) -/

theorem exec_xthl (s : State) : exec .xthl s = andThen (memRead s s.sp) fun lo => andThen (memRead s (s.sp + 1)) fun hi =>
    andThen (memWrite s (s.sp + 1) s.regs.h) fun s1 => andThen (memWrite s1 s.sp s.regs.l) fun s2 =>
      .next (((s2.setReg .l lo).setReg .h hi).advance 1) := rfl

theorem exec_xthl_present (h1 : Present s s.sp) (h2 : Present s (s.sp + 1)) : exec .xthl s =
    .next ((((stored (stored s (s.sp + 1) s.regs.h) s.sp s.regs.l).setReg .l (s.byteAt s.sp)).setReg .h
      (s.byteAt (s.sp + 1))).advance 1) := by
  rw [exec_xthl, memRead_present h1, andThen_next, memRead_present h2, andThen_next, memWrite_present _ h2, andThen_next,
    memWrite_present _ (present_stored.2 h1), andThen_next]

/-- HL loaded where otherwise only memory was written. -/
theorem OnlyMem.loadHl_frame {t : State} (h : OnlyMem s t) (hi lo : Byte) :
    (((t.setReg .l lo).setReg .h hi).advance 1).sp = s.sp ∧ (((t.setReg .l lo).setReg .h hi).advance 1).flags = s.flags ∧
      (((t.setReg .l lo).setReg .h hi).advance 1).pc = s.pc + 1 ∧
      RegsKeptBut s (((t.setReg .l lo).setReg .h hi).advance 1) [.h, .l] ∧
      RestKept s (((t.setReg .l lo).setReg .h hi).advance 1) := by
  obtain ⟨m, rfl⟩ := h
  exact ⟨rfl, rfl, rfl, (((KeptBut.refl s [.h, .l]).setReg .l lo (by decide)).setReg .h hi (by decide)).1, rfl, rfl, rfl⟩

/-! ## Ports and lines (R244, R245, R257) -/

theorem exec_inp (s : State) (port : Byte) :
    exec (.inp port) s = .next (((ioRead s port).2.setReg .a (ioRead s port).1).advance 2) := rfl

theorem ioRead_some {port v : Byte} (h : s.env.inputs.portIn = some v) : ioRead s port = (v, s) := by rw [ioRead, h]

theorem ioRead_none {port : Byte} (h : s.env.inputs.portIn = none) :
    ioRead s port = (Config.portByte (port ++ port) s.env.draws, s.drawn) := by rw [ioRead, h]; rfl

theorem exec_rim (s : State) : exec .rim s = .next (((sidRead s).2.setReg .a (s.rimByte (sidRead s).1)).advance 1) := rfl

theorem regsKeptBut_of_set {t : State} {r : Reg} {v : Byte} (h : t.regs = s.regs.set r v) : RegsKeptBut s t [r] := by
  intro q hq
  rw [State.reg_eq, State.reg_eq, h]
  exact Regs.get_set_other _ _ _ _ (List.ne_of_not_mem_cons hq)

theorem sidRead_some {b : Bool} (h : s.env.inputs.sid = some b) : sidRead s = (b, s) := by rw [sidRead, h]

theorem sidRead_none (h : s.env.inputs.sid = none) : sidRead s = (Config.serialIn s.env.draws, s.drawn) := by
  rw [sidRead, h]

end

end Sys2Proof.Says

namespace Sys2Proof.StackIo

open Sys2Proof.Machine Sys2Proof.Says

/-- Settles O51: RST is the call of the branch family. -/
theorem rstCallsItsRestartAddress : Obligations.RstCallsItsRestartAddress := by
  intro n s
  rw [exec_rst]
  exact ⟨⟨rfl, fun _ => rfl⟩, callTo_called _ _, stopsAt_callTo_first _ _, stopsAt_callTo_second _ _⟩

/-- Settles O52: a push of the pair's two bytes, and the count of draws. -/
theorem pushStoresAPair : Obligations.PushStoresAPair := by
  intro p s hm
  refine ⟨fun h1 h2 => ?_, stopsAt_push_first p, stopsAt_push_second p⟩
  refine ⟨_, (s.pushPair p).1, (s.pushPair p).2, exec_push_present p h1 h2, pushedPair_sp s p,
    (pushedPair_byteAt s p _).trans (written_pushed_high _ _ hm),
    (pushedPair_byteAt s p _).trans (written_pushed_low _ _ hm),
    fun x hx => (pushedPair_byteAt s p x).trans (memKeptBut_pushed _ _ x hx),
    fun r _ => congrArg (Regs.get · r) (pushedPair_regs s p), pushedPair_flags s p, pushedPair_pc s p,
    pushedPair_ctl s p, pushedPair_params s p, ?_⟩
  rw [pushedPair_env]
  refine ⟨rfl, rfl, rfl, rfl, ?_⟩
  cases p with
  | bc | de | hl => exact ⟨rfl, rfl⟩
  | psw =>
    obtain ⟨h7, h6, h5, h4, h3, h2, h1, h0⟩ := flagByte_getLsbD s.flags s.pswFillBits
    refine ⟨rfl, h7, h6, h4, h2, h0, fun f hf => ?_⟩
    have hfill : s.pswFillBits = f := by rw [State.pswFillBits, hf, Option.getD_some]
    rw [← hfill]
    exact ⟨h5, h3, h1⟩

/-- Settles O53: the two bytes at `sp` go to the pair, A and the flags for PSW. -/
theorem popLoadsAPair : Obligations.PopLoadsAPair := by
  intro p s
  refine ⟨fun h1 h2 => ?_, stopsAt_popBytes_first, stopsAt_popBytes_second⟩
  obtain ⟨hsp, hmem, hregs, hpc, hrest, hflags⟩ :=
    popPair_frame p (s.setSp (s.sp + 1 + 1)) (s.byteAt (s.sp + 1)) (s.byteAt s.sp)
  refine ⟨_, exec_pop_present p h1 h2, hsp.trans (add_one_add_one _), hmem, hregs, congrArg (· + 1) hpc, hrest, hflags, ?_⟩
  cases p with
  | bc | de | hl => exact ⟨rfl, rfl⟩
  | psw => exact ⟨rfl, rfl, rfl, rfl, rfl, rfl⟩

/-- Settles O54: with the stack in RAM POP pops the bytes PUSH pushed. -/
theorem popUndoesPush : Obligations.PopUndoesPush := by
  intro p s hm h1 h2
  have hpush : exec (.push p) s = .next (pushedPair s p) :=
    exec_push_present p (by rw [Present, h1]; decide) (by rw [Present, h2]; decide)
  have hpop : popBytes (pushedPair s p) = .next ((s.pushPair p).1, (s.pushPair p).2, (pushedPair s p).setSp s.sp) :=
    popBytes_of_pushed hm h1 h2 (pushedPair_mem s p) (pushedPair_sp s p) (pushedPair_params s p)
  have hexec : exec (.pop p) (pushedPair s p) =
      .next ((((pushedPair s p).setSp s.sp).popPair p (s.pushPair p).1 (s.pushPair p).2).advance 1) := by
    rw [exec_pop, hpop, andThen_next]
  obtain ⟨hregs, hflags⟩ := popPair_pushPair p (s := s) (t := (pushedPair s p).setSp s.sp) (pushedPair_regs s p)
    (pushedPair_flags s p)
  obtain ⟨hsp, -⟩ := popPair_frame p ((pushedPair s p).setSp s.sp) (s.pushPair p).1 (s.pushPair p).2
  exact ⟨_, _, hpush, hexec, hregs, hflags, hsp⟩

/-- Settles O55: both bytes are read before either is written, so each goes where the other came from. -/
theorem xthlExchangesHlWithTheStack : Obligations.XthlExchangesHlWithTheStack := by
  intro s hm
  refine ⟨⟨rfl, fun _ => rfl⟩, fun h1 h2 => ?_, fun h1 => ?_, fun h1 h2 => ?_⟩
  · have hne := (ne_add_one s.sp).symm
    have hframe := ((OnlyMem.refl s).stored (s.sp + 1) s.regs.h).stored s.sp s.regs.l
    obtain ⟨hsp, hrest⟩ := hframe.loadHl_frame (s.byteAt (s.sp + 1)) (s.byteAt s.sp)
    refine ⟨_, exec_xthl_present h1 h2, rfl, rfl, ?_, ?_, fun x hx => ?_, hsp, hrest⟩
    · rw [Written, advance_byteAt, setReg_byteAt, setReg_byteAt]
      exact written_second _ _ hne hm
    · rw [Written, advance_byteAt, setReg_byteAt, setReg_byteAt]
      exact written_first _ _ hne hm
    · rw [advance_byteAt, setReg_byteAt, setReg_byteAt]
      exact memKeptBut_stored_stored _ _ x (by simpa [or_comm] using hx)
  · rw [exec_xthl]
    exact stopsAt_read h1
  · rw [exec_xthl, memRead_present h1, andThen_next]
    exact stopsAt_read h2

/-- Settles O56: the two answers of the environment. -/
theorem inLoadsFromTheEnvironment : Obligations.InLoadsFromTheEnvironment := by
  intro p s
  refine ⟨⟨rfl, fun _ => rfl⟩, ?_⟩
  rw [exec_inp]
  cases hport : s.env.inputs.portIn with
  | some v =>
    rw [ioRead_some hport]
    exact ⟨_, rfl, fun w hw => by cases hw; exact ⟨rfl, rfl⟩, fun h => (nomatch h), rfl, rfl, regsKeptBut_of_set rfl, rfl,
      fun _ => rfl, rfl, rfl⟩
  | none =>
    rw [ioRead_none hport]
    exact ⟨_, rfl, fun w hw => (nomatch hw), fun _ => ⟨rfl, rfl⟩, rfl, rfl, regsKeptBut_of_set rfl, rfl, fun _ => rfl, rfl,
      rfl⟩

/-- Settles O59: the byte bit by bit; only where the inputs name no serial bit is one drawn. -/
theorem rimReadsTheInterruptState : Obligations.RimReadsTheInterruptState := by
  intro s
  refine ⟨⟨rfl, fun _ => rfl⟩, ?_⟩
  rw [exec_rim]
  cases hsid : s.env.inputs.sid with
  | some b =>
    obtain ⟨h7, h6, h5, h4, h3, h2, h1, h0⟩ := rimByte_getLsbD s b
    rw [sidRead_some hsid]
    exact ⟨_, rfl, fun c hc => by cases hc; exact ⟨h7, rfl⟩, fun h => (nomatch h), h6, h5, h4, h3, h2, h1, h0, rfl, rfl,
      regsKeptBut_of_set rfl, rfl, fun _ => rfl, rfl, rfl⟩
  | none =>
    obtain ⟨-, h6, h5, h4, h3, h2, h1, h0⟩ := rimByte_getLsbD s (Config.serialIn s.env.draws)
    rw [sidRead_none hsid]
    exact ⟨_, rfl, fun c hc => (nomatch hc), fun _ => rfl, h6, h5, h4, h3, h2, h1, h0, rfl, rfl, regsKeptBut_of_set rfl,
      rfl, fun _ => rfl, rfl, rfl⟩

/-- Settles O60: each group of SIM's control state under its own bit. -/
theorem simWritesMasksR75AndSod : Obligations.SimWritesMasksR75AndSod := by
  intro s
  refine ⟨⟨rfl, fun _ => rfl⟩, _, exec_sim s, fun h3 => ?_, fun h3 => ?_, ?_, rfl, rfl, rfl, rfl, rfl, rfl, rfl, rfl, rfl,
    rfl, rfl, fun _ _ => rfl, rfl, fun _ => rfl, rfl⟩
  · exact ⟨if_pos h3, if_pos h3, if_pos h3⟩
  · exact ⟨if_neg (Bool.not_eq_true _ ▸ h3), if_neg (Bool.not_eq_true _ ▸ h3), if_neg (Bool.not_eq_true _ ▸ h3)⟩
  · show (s.ctl.r75 && !s.regs.a.getLsbD 4) = _
    cases s.regs.a.getLsbD 4 with
    | true => exact Bool.and_false _
    | false => exact Bool.and_true _

/-- Settles O57. -/
theorem outDeliversA : Obligations.OutDeliversA := by
  intro p s
  exact ⟨⟨rfl, fun _ => rfl⟩, _, exec_out s p, rfl, rfl, rfl, fun _ _ => rfl, rfl, fun _ => rfl, rfl, rfl⟩

/-- Settles O58. -/
theorem nopDiEiHltControlTheMachine : Obligations.NopDiEiHltControlTheMachine := by
  intro s
  refine ⟨⟨⟨rfl, fun _ => rfl⟩, _, rfl, rfl, onlyPc_advance s 1⟩, ⟨⟨rfl, fun _ => rfl⟩, _, exec_di s, rfl⟩,
    ⟨⟨rfl, fun _ => rfl⟩, _, exec_ei s, ?_⟩, rfl, _, exec_hlt s, rfl⟩
  have hshadow : (s.ctl.eiShadow || s.params.eiDelay) = if s.params.eiDelay then true else s.ctl.eiShadow := by
    cases s.params.eiDelay with
    | true => exact Bool.or_true _
    | false => exact Bool.or_false _
  rw [hshadow]
  rfl

end Sys2Proof.StackIo
end
